-- ==== Sys2Proof/Word.lean ====
section
/-!
DEFINITION. The word types of the HBPU (spec 00_scope.md R10, R13, R14, R15): what the manual treats as bits is
a `BitVec`, and a bit string of R15 is a list of bits, first bit first.
-/

namespace Sys2Proof

/-- A byte of IN, OUT or a host window; a symbol is "a byte value, 0–255" (R10). -/
abbrev Byte := BitVec 8

/-- A host word or a command word, `DW = 32` bits (R13). -/
abbrev Word := BitVec 32

/-- A host byte address, `AW = 16` bits (R13). -/
abbrev Addr := BitVec 16

/-- A bit string of R15: the head is the first bit, the one emitted or scanned first. -/
abbrev Bits := List Bool

end Sys2Proof
end

