-- ==== Sys2Proof/Syntax.lean ====
section
/-!
DEFINITION. The ten commands of spec/opcode_table.json, with the operand fields of 30_encoding.md R82 to R86.
-/

namespace Sys2Proof

/-- A command of the HBPU, one constructor per row of the opcode table (R81). -/
inductive Instr where
  /-- NOP, format N (R100). -/
  | nop
  /-- PUTBITS, format B: `N` in `w[20:16]`, `VALUE` in `w[15:0]` (R83, R121). -/
  | putbits (n : BitVec 5) (value : BitVec 16)
  /-- PUTSYM, format S: `SYM` in `w[7:0]` (R84, R122). -/
  | putsym (sym : BitVec 8)
  /-- PACKBUF, format C: `COUNT` in `w[26:0]` (R85, R123). -/
  | packbuf (count : BitVec 27)
  /-- FLUSH, format N (R124). -/
  | flush
  /-- UNPACK, format C (R85, R141). -/
  | unpack (count : BitVec 27)
  /-- ALIGNIN, format N (R144). -/
  | alignin
  /-- CLRCT, format N (R101). -/
  | clrct
  /-- ASSIGN, format N, present only if `HAS_TREE = 1` (R102). -/
  | assign
  /-- UNPACKT, format C, present only if `HAS_TREE = 1` (R85, R143). -/
  | unpackt (count : BitVec 27)
  deriving DecidableEq, Repr

end Sys2Proof
end

