-- ==== Sys2Proof/WellFormed.lean ====
section
/-!
DEFINITION. Which terms of `Instr` are commands: the operand constraint the opcode table's masks do not express
(spec 30_encoding.md R87, R90: PUTBITS) and the option each command needs (R81 column "requires").
-/

namespace Sys2Proof

/-- The operand constraint: for PUTBITS `1 ≤ N ≤ 16` and `VALUE < 2^N` (R83, R87); every value of every other
operand field is allowed. -/
def Instr.wellFormed : Instr → Bool
  | .putbits n value => decide (1 ≤ n.toNat) && decide (n.toNat ≤ 16) && decide (value.toNat < 2 ^ n.toNat)
  | .nop | .putsym _ | .packbuf _ | .flush | .unpack _ | .alignin | .clrct | .assign | .unpackt _ => true

/-- ASSIGN and UNPACKT exist only if `HAS_TREE = 1` (R12, R81, R89). -/
def Instr.present (hasTree : Bool) : Instr → Bool
  | .assign | .unpackt _ => hasTree
  | .nop | .putbits _ _ | .putsym _ | .packbuf _ | .flush | .unpack _ | .alignin | .clrct => true

/-- The instruction is a legal command of an HBPU with this `HAS_TREE`. -/
def Instr.isLegal (hasTree : Bool) (i : Instr) : Bool :=
  i.wellFormed && i.present hasTree

end Sys2Proof
end

