-- ==== Sys2Proof/Decode.lean ====
section
/-!
DEFINITION. The decoder of spec 30_encoding.md R81 to R90, total on all 2^32 words and rejecting by name; the
encoder of R91; and `legal(w)` and `units(w)` as R87 and R88 write them. Decoding has the two stages of R90: the
row of the opcode table whose mask and pattern match (`decode`), then the constraint the mask does not express
(`Instr.isLegal`).
-/

namespace Sys2Proof

/-! ### The operand fields (R81, R86) -/

/-- `OP = w[31:27]`. -/
def opField (w : Word) : BitVec 5 := w.extractLsb' 27 5

/-- `N = w[20:16]`. -/
def nField (w : Word) : BitVec 5 := w.extractLsb' 16 5

/-- `VALUE = w[15:0]`. -/
def valueField (w : Word) : BitVec 16 := w.extractLsb' 0 16

/-- `SYM = w[7:0]`. -/
def symField (w : Word) : BitVec 8 := w.extractLsb' 0 8

/-- `COUNT = w[26:0]`; in format N the same bits are reserved (R82). -/
def countField (w : Word) : BitVec 27 := w.extractLsb' 0 27

/-- The reserved bits `w[26:21]` of format B (R83). -/
def reservedB (w : Word) : BitVec 6 := w.extractLsb' 21 6

/-- The reserved bits `w[26:8]` of format S (R84). -/
def reservedS (w : Word) : BitVec 19 := w.extractLsb' 8 19

/-! ### The opcode table (R90) -/

/-- One row of spec/opcode_table.json: a word `w` is in the row when `w AND mask = pattern`. -/
structure OpcodeRow where
  mnemonic : String
  mask : Word
  pattern : Word
  deriving DecidableEq, Repr

/-- The row of spec/opcode_table.json each constructor stands for. -/
def Instr.row : Instr → OpcodeRow
  | .nop => ⟨"NOP", 0xFFFFFFFF#32, 0x00000000#32⟩
  | .putbits _ _ => ⟨"PUTBITS", 0xFFE00000#32, 0x08000000#32⟩
  | .putsym _ => ⟨"PUTSYM", 0xFFFFFF00#32, 0x10000000#32⟩
  | .packbuf _ => ⟨"PACKBUF", 0xF8000000#32, 0x18000000#32⟩
  | .flush => ⟨"FLUSH", 0xFFFFFFFF#32, 0x20000000#32⟩
  | .unpack _ => ⟨"UNPACK", 0xF8000000#32, 0x28000000#32⟩
  | .alignin => ⟨"ALIGNIN", 0xFFFFFFFF#32, 0x30000000#32⟩
  | .clrct => ⟨"CLRCT", 0xFFFFFFFF#32, 0x38000000#32⟩
  | .assign => ⟨"ASSIGN", 0xFFFFFFFF#32, 0x40000000#32⟩
  | .unpackt _ => ⟨"UNPACKT", 0xF8000000#32, 0x48000000#32⟩

/-- Every row of the table, in the table's order. -/
def opcodeRows : List OpcodeRow :=
  [Instr.nop, .putbits 0 0, .putsym 0, .packbuf 0, .flush, .unpack 0, .alignin, .clrct, .assign, .unpackt 0].map
    Instr.row

/-! ### Decoding -/

/-- Why a word is in no row of the opcode table (R89). -/
inductive DecodeError where
  /-- OP is one of 0x0A..0x1F. -/
  | reservedOpcode (op : BitVec 5)
  /-- A reserved bit of the format (R82, R83, R84) is set. -/
  | reservedBits (op : BitVec 5)
  deriving DecidableEq, Repr

/-- `i` if the reserved bits are clear, else the rejection by name. -/
def requireClear (w : Word) (clear : Bool) (i : Instr) : Except DecodeError Instr :=
  if clear then .ok i else .error (.reservedBits (opField w))

/-- The command whose row of the opcode table the word is in (R81 to R86, R90). -/
def decode (w : Word) : Except DecodeError Instr :=
  match opField w with
  | 0x00#5 => requireClear w (countField w == 0#27) .nop
  | 0x01#5 => requireClear w (reservedB w == 0#6) (.putbits (nField w) (valueField w))
  | 0x02#5 => requireClear w (reservedS w == 0#19) (.putsym (symField w))
  | 0x03#5 => .ok (.packbuf (countField w))
  | 0x04#5 => requireClear w (countField w == 0#27) .flush
  | 0x05#5 => .ok (.unpack (countField w))
  | 0x06#5 => requireClear w (countField w == 0#27) .alignin
  | 0x07#5 => requireClear w (countField w == 0#27) .clrct
  | 0x08#5 => requireClear w (countField w == 0#27) .assign
  | 0x09#5 => .ok (.unpackt (countField w))
  | op => .error (.reservedOpcode op)

/-- The command word of an instruction, from the formats of R82 to R85 and the opcode map of R81; for a
well-formed instruction it is the word of R91. -/
def encode : Instr → Word
  | .nop => 0x00#5 ++ 0#27
  | .putbits n value => 0x01#5 ++ 0#6 ++ n ++ value
  | .putsym sym => 0x02#5 ++ 0#19 ++ sym
  | .packbuf count => 0x03#5 ++ count
  | .flush => 0x04#5 ++ 0#27
  | .unpack count => 0x05#5 ++ count
  | .alignin => 0x06#5 ++ 0#27
  | .clrct => 0x07#5 ++ 0#27
  | .assign => 0x08#5 ++ 0#27
  | .unpackt count => 0x09#5 ++ count

/-! ### Legality and units -/

/-- `legal(w)`, the pseudocode of R87 line by line, total on all words. -/
def legal (hasTree : Bool) (w : Word) : Bool :=
  match opField w with
  | 0x00#5 | 0x04#5 | 0x06#5 | 0x07#5 => countField w == 0#27
  | 0x01#5 =>
    reservedB w == 0#6 && decide (1 ≤ (nField w).toNat) && decide ((nField w).toNat ≤ 16) &&
      decide ((valueField w).toNat < 2 ^ (nField w).toNat)
  | 0x02#5 => reservedS w == 0#19
  | 0x03#5 | 0x05#5 => true
  | 0x08#5 => hasTree && countField w == 0#27
  | 0x09#5 => hasTree
  | _ => false

/-- `units(w)` of R88: COUNT for OP 0x03, 0x05 and 0x09, and 1 for every other legal OP. -/
def units (w : Word) : BitVec 27 :=
  match opField w with
  | 0x03#5 | 0x05#5 | 0x09#5 => countField w
  | _ => 1#27

/-- The instruction the decoder reads from a word numbered as the opcode table numbers it (one 32-bit word, R80);
a bit at or above `nbits` is 0. -/
def decodeTableWord (nbits w : Nat) : Option Instr :=
  match decode (BitVec.ofNat 32 (w % 2 ^ nbits)) with
  | .ok i => some i
  | .error _ => none

end Sys2Proof
end

