-- ==== Sys2Proof/Machine/Bits.lean ====
section
/-!
DEFINITION. Bit strings as spec 00_scope.md R15 defines them, and the byte order helpers of 10_state.md R41, R45
(little-endian words). Every bit-field and byte-order helper the machine uses stands here.
-/

namespace Sys2Proof.Machine

/-- `bitsOf(k, v)`: the `k`-bit string of `v`, most significant bit first, `bitsOf(k, v)[j] = v[k−1−j]` (R15). -/
def bitsOf (k v : Nat) : Bits :=
  (List.range k).map fun j => v.testBit (k - 1 - j)

/-- `val(w) = Σ w[j]·2^(|w|−1−j)` (R15). -/
def val (w : Bits) : Nat :=
  w.foldl (fun acc b => 2 * acc + b.toNat) 0

/-- `nb` bytes from the front of a bit string, eight bits each, the first bit of a group into bit 7 (R65). -/
def packBytes : Nat → Bits → List Byte
  | 0, _ => []
  | nb + 1, w => BitVec.ofNat 8 (val (w.take 8)) :: packBytes nb (w.drop 8)

/-- The number whose bytes, least significant first, are the list (R41, R45). -/
def leNat : List Byte → Nat
  | [] => 0
  | b :: bs => b.toNat + 256 * leNat bs

/-- `n` bytes of a number, least significant first. -/
def leBytes : Nat → Nat → List Byte
  | 0, _ => []
  | n + 1, v => BitVec.ofNat 8 v :: leBytes n (v / 256)

end Sys2Proof.Machine
end

