-- ==== Sys2Proof/Config.lean ====
section
/-!
DEFINITION. What is fixed for one HBPU: the implementation parameters of spec 00_scope.md R10 to R13, the
constants of 10_state.md R24, the local memory spaces of R16, and the free values of 20_memory.md R72.
`HAS_TREE` is not here: both of its values are covered, so it stands in State (assumption 1).
-/

namespace Sys2Proof

/-- The byte memories behind CT, ARENA, IN and OUT (R16, R22). `ctLen` holds LEN of symbol `s` at `s`;
`ctCode` holds byte `b` of CODE of symbol `s`, least significant first, at `32·s + b`; `arena` holds byte `b` of
node word `i`, least significant first, at `4·i + b`; `inBuf` and `outBuf` are indexed by byte (assumption 3). -/
inductive Space where
  | ctLen
  | ctCode
  | arena
  | inBuf
  | outBuf
  deriving DecidableEq, Repr

namespace Config

/-- `N_SYM` (R10). -/
def nSym : Nat := 256

/-- `L_MAX`, the longest code in bits (R11). -/
def lMax : Nat := 255

/-- `IN_SIZE`, bytes in IN (R13). -/
def inSize : Nat := 16384

/-- `OUT_SIZE`, bytes in OUT (R13). -/
def outSize : Nat := 16384

/-- `ARENA_NODES` (R13). -/
def arenaNodes : Nat := 511

/-- The ID register's constant (R24). -/
def idWord : Word := 0x48425055#32

/-- FREE VALUE (R42, R44, R45, R46, R72; assumption 2): what the byte `a` of a memory space reads as after the
`epoch`-th hardware reset, while no write has set it. It has no body, so nothing can be proved of its value. -/
opaque draw (epoch : Nat) (sp : Space) (a : Nat) : Byte

end Config

end Sys2Proof
end

