-- ==== Sys2Proof/Machine/Memory.lean ====
section
/-!
DEFINITION. One byte memory as plain data: a list of (address, byte) cells in one canonical form. The parameter
`unlisted` is what an address that is not listed holds: `some v` for a byte reset to `v`, `none` for a byte no
write has set, whose value is then a draw (spec 20_memory.md R72; assumption 4).
-/

namespace Sys2Proof.Machine

/-- A byte memory: cells in rising order of address. -/
abbrev Memory := List Host.Cell

/-- The byte listed at an address, if one is. -/
def Memory.get? : Memory → Nat → Option Byte
  | [], _ => none
  | (k, v) :: m, a => if k = a then some v else Memory.get? m a

/-- List a byte at an address, in its place. -/
def Memory.insert : Memory → Nat → Byte → Memory
  | [], a, v => [(a, v)]
  | (k, w) :: m, a, v =>
    if a < k then (a, v) :: (k, w) :: m
    else if a = k then (a, v) :: m
    else (k, w) :: Memory.insert m a v

/-- Take an address out of the list. -/
def Memory.erase (m : Memory) (a : Nat) : Memory :=
  m.filter fun c => c.1 ≠ a

/-- Write a byte and keep the canonical form: the value an unlisted address holds is not listed. -/
def Memory.write (unlisted : Option Byte) (m : Memory) (a : Nat) (v : Byte) : Memory :=
  if unlisted = some v then m.erase a else m.insert a v

/-- The canonical form: addresses strictly rising and below `size`, every listed byte within the bits that exist
at its address, and no entry equal to what an unlisted address holds. -/
abbrev Memory.wf (unlisted : Option Byte) (size : Nat) (mask : Nat → Byte) (m : Memory) : Prop :=
  m.Pairwise (fun c d => c.1 < d.1) ∧
    ∀ c ∈ m, c.1 < size ∧ c.2 &&& mask c.1 = c.2 ∧ unlisted ≠ some c.2

end Sys2Proof.Machine

namespace Sys2Proof

/-- What an unlisted byte of a space holds: LEN is 0 after reset (R42); CODE, ARENA, IN and OUT are unspecified
after a hardware reset, so an unlisted byte of them is one that nothing has written (R72). -/
def Space.unlisted : Space → Option Byte
  | .ctLen => some 0#8
  | .ctCode | .arena | .inBuf | .outBuf => none

/-- How many bytes the space has: 256 LEN bytes, 256 CODE of 32 bytes, 511 node words, IN and OUT (R13, R40, R43). -/
def Space.size : Space → Nat
  | .ctLen => Config.nSym
  | .ctCode => 32 * Config.nSym
  | .arena => 4 * Config.arenaNodes
  | .inBuf => Config.inSize
  | .outBuf => Config.outSize

/-- The bits that exist at a byte of the space: all of them, but for the top bit of the 32nd byte of a CODE, the
256th bit, which does not exist (R40, R41). -/
def Space.mask : Space → Nat → Byte
  | .ctCode, a => if a % 32 = 31 then 0x7F#8 else 0xFF#8
  | .ctLen, _ | .arena, _ | .inBuf, _ | .outBuf, _ => 0xFF#8

/-- The value of a byte that no write has set since the `epoch`-th hardware reset: 0 for LEN, else the draw (R72). -/
def Space.fresh (sp : Space) (epoch a : Nat) : Byte :=
  match sp.unlisted with
  | some v => v
  | none => Config.draw epoch sp a &&& sp.mask a

end Sys2Proof
end

