-- ==== Sys2Proof/Machine/State.lean ====
section
/-!
DEFINITION. The state of one HBPU (spec 10_state.md R22) as plain data, the reasons a step can stop, and the state
after reset (70_reset_and_hazards.md R192).
-/

namespace Sys2Proof.Machine

/-- The two agents whose steps are serialised into one order (R18). -/
inductive Agent where
  | host
  | engine
  deriving DecidableEq, Repr

/-- What the outside does to the HBPU, one at a time (R60, R93, R190). -/
inductive Input where
  /-- `HostRead(a)` (R60). -/
  | read (a : Addr)
  /-- `HostWrite(a, d)` (R60). -/
  | write (a : Addr) (d : Word)
  /-- `wait`: repeat a read of STATUS until bit 0, BUSY, reads 0 (R93). -/
  | wait
  /-- The hardware reset input is asserted (R190). -/
  | resetAssert
  /-- The hardware reset input is released (R190). -/
  | resetRelease
  deriving DecidableEq, Repr

/-- The error codes 1 to 6 of STATUS.ERRCODE (R161). -/
inductive ErrCode where
  | illegalCmd
  | unknownSymbol
  | outOverflow
  | inExhausted
  | malformed
  | badTree
  deriving DecidableEq, Repr

/-- `Err(code, info)` of R16: how a unit ends when it fails. -/
structure UnitErr where
  code : ErrCode
  info : Word
  deriving DecidableEq, Repr

/-- The state of one HBPU (R22), the level of its reset input (R190), and the model's own five
fields (assumptions 2, 5 and 18). -/
structure State where
  /-- `HAS_TREE`, the configuration option; no step changes it (R12, assumption 1). -/
  hasTree : Bool
  /-- CTRL.IRQ_EN (R25). -/
  irqEn : Bool
  /-- STATUS.BUSY (R27). -/
  busy : Bool
  /-- STATUS.DONE (R27). -/
  done : Bool
  /-- STATUS.ERR (R27). -/
  err : Bool
  /-- STATUS.DROP (R27). -/
  drop : Bool
  /-- STATUS.ERRCODE (R27, R161). -/
  errCode : BitVec 4
  /-- LASTCMD (R29). -/
  lastCmd : Word
  /-- REMAIN (R30). -/
  remain : BitVec 27
  /-- SYMCOUNT (R31). -/
  symCount : BitVec 27
  /-- ERRINFO (R32). -/
  errInfo : Word
  /-- IN_PTR, a bit index (R33). -/
  inPtr : BitVec 18
  /-- IN_LIMIT (R34). -/
  inLimit : BitVec 16
  /-- OUT_PTR, a byte index (R35). -/
  outPtr : BitVec 16
  /-- ACC.ACC_BITS, left-aligned (R36). -/
  accBits : BitVec 8
  /-- ACC.ACC_N (R36). -/
  accN : BitVec 3
  /-- BITCOUNT (R37). -/
  bitCount : BitVec 32
  /-- ROOT (R38). -/
  root : BitVec 9
  /-- ROOT_SNAP, hidden (R47). -/
  rootSnap : BitVec 9
  /-- CT[s].LEN at `s` (R40). -/
  ctLen : Memory
  /-- Byte `b` of CT[s].CODE at `32·s + b` (R40). -/
  ctCode : Memory
  /-- Byte `b` of ARENA[i] at `4·i + b` (R43). -/
  arena : Memory
  /-- IN[a] at `a` (R45). -/
  inBuf : Memory
  /-- OUT[a] at `a` (R46). -/
  outBuf : Memory
  /-- The hardware reset input is asserted (R190, assumption 10). -/
  inReset : Bool
  /-- The model's own: hardware resets so far, which index the free contents of the memories (R72, assumption 2). -/
  epoch : Nat
  /-- The model's own: what the outside does next, in order (assumption 5). -/
  inputs : List Input
  /-- The model's own: which agent moves next, in order (assumption 5). -/
  turns : List Agent
  /-- The model's own: the words host reads returned, newest first (assumption 5). -/
  replies : List Word
  /-- The model's own: the host has read `BUSY = 0` from STATUS and has not written CMD since (R201, assumption 18). -/
  idleSeen : Bool
  deriving DecidableEq, Repr

/-- Why the machine stops with a fault. The HBPU has none of its own: every error is a defined state (R180). -/
inductive Fault where
  /-- Raised by an engine turn when BUSY = 1 and LASTCMD holds no legal command: the rules give the step no meaning
  and no state reachable from reset shows it (R26, assumption 8). Safe. -/
  | noCommand
  deriving DecidableEq, Repr

/-- Why something has no meaning in the model. -/
inductive Refusal where
  /-- An instruction that has no meaning yet; raised in `exec`'s arms only. Safe. -/
  | notModelled (mnemonic : String)
  /-- Raised by `loadProgram`, never by a step: a host-program statement with no meaning, such as an operand the
  assembler rejects (R91, R180). Safe. -/
  | hostStatement
  deriving DecidableEq, Repr

/-- The state right after a hardware reset whose input has been released, with the reference value `HAS_TREE = 1`
(R12, R190, R192). The memories list nothing: LEN reads 0 and every other byte reads as its draw (R42, R72). -/
def State.reset : State where
  hasTree := true
  irqEn := false
  busy := false
  done := false
  err := false
  drop := false
  errCode := 0#4
  lastCmd := 0#32
  remain := 0#27
  symCount := 0#27
  errInfo := 0#32
  inPtr := 0#18
  inLimit := 0#16
  outPtr := 0#16
  accBits := 0#8
  accN := 0#3
  bitCount := 0#32
  root := 0#9
  rootSnap := 0#9
  ctLen := []
  ctCode := []
  arena := []
  inBuf := []
  outBuf := []
  inReset := false
  epoch := 0
  inputs := []
  turns := []
  replies := []
  idleSeen := false

end Sys2Proof.Machine
end

