-- ==== Sys2Proof/Machine/Ops.lean ====
section
/-!
DEFINITION. The named operations over State: one byte and one word of each memory, code-table entries and node
words, the bit-stream primitives Fetch and Emit (spec 20_memory.md R63 to R65), error entry and the return from it
(60_exceptions.md R170, R171), the engine step (20_memory.md R66), and the accept of a command (10_state.md R26).
-/

namespace Sys2Proof.Machine

/-! ### Memories (R16, R72) -/

/-- The cells of a memory space. -/
def State.space (s : State) : Space → Memory
  | .ctLen => s.ctLen
  | .ctCode => s.ctCode
  | .arena => s.arena
  | .inBuf => s.inBuf
  | .outBuf => s.outBuf

/-- The state with one memory space replaced. -/
def State.withSpace (s : State) (sp : Space) (m : Memory) : State :=
  match sp with
  | .ctLen => { s with ctLen := m }
  | .ctCode => { s with ctCode := m }
  | .arena => { s with arena := m }
  | .inBuf => { s with inBuf := m }
  | .outBuf => { s with outBuf := m }

/-- The one read of a byte: what a write set, else the value of a byte nothing has written (R72). -/
def State.byte (s : State) (sp : Space) (a : Nat) : Byte :=
  match (s.space sp).get? a with
  | some v => v
  | none => sp.fresh s.epoch a

/-- The one write of a byte; a bit that does not exist is not stored (R41). -/
def State.setByte (s : State) (sp : Space) (a : Nat) (v : Byte) : State :=
  s.withSpace sp ((s.space sp).write sp.unlisted a (v &&& sp.mask a))

/-- Write consecutive bytes from address `a` up. -/
def State.setBytes (s : State) (sp : Space) (a : Nat) : List Byte → State
  | [] => s
  | v :: vs => (s.setByte sp a v).setBytes sp (a + 1) vs

/-- The `n` consecutive bytes from address `a` up, `MemRead(SP, a, n)` (R16). -/
def State.bytes (s : State) (sp : Space) (a n : Nat) : List Byte :=
  (List.range n).map fun j => s.byte sp (a + j)

/-- A little-endian word of four bytes from address `a` up (R41, R45, R67). -/
def State.word (s : State) (sp : Space) (a : Nat) : Word :=
  BitVec.ofNat 32 (leNat (s.bytes sp a 4))

/-- Write a little-endian word of four bytes from address `a` up (R41, R45, R67). -/
def State.setWord (s : State) (sp : Space) (a : Nat) (d : Word) : State :=
  s.setBytes sp a (leBytes 4 d.toNat)

/-- CT[sym].LEN; 0 means absent (R40). -/
def State.len (s : State) (sym : Nat) : Byte := s.byte .ctLen sym

/-- CT[sym].CODE, all 255 bits, right-aligned (R40). -/
def State.code (s : State) (sym : Nat) : BitVec 255 :=
  BitVec.ofNat 255 (leNat (s.bytes .ctCode (32 * sym) 32))

/-- `CT[sym].LEN <- n`; CODE is not changed (R41). -/
def State.setLen (s : State) (sym : Nat) (n : Byte) : State := s.setByte .ctLen sym n

/-- `CT[sym].CODE <- c`; LEN is not changed (R41). -/
def State.setCode (s : State) (sym : Nat) (c : BitVec 255) : State :=
  s.setBytes .ctCode (32 * sym) (leBytes 32 c.toNat)

/-- Every `CT[s].LEN <- 0`; CODE is not changed (R42, R101, R191). -/
def State.clearLens (s : State) : State := { s with ctLen := [] }

/-- The code of a symbol, `code(s) = bitsOf(LEN, CODE[LEN−1:0])` (R40). -/
def State.codeBits (s : State) (sym : Nat) : Bits :=
  bitsOf (s.len sym).toNat ((s.code sym).toNat % 2 ^ (s.len sym).toNat)

/-- Node word `i` of the arena (R43). -/
def State.node (s : State) (i : Nat) : Word := s.word .arena (4 * i)

/-! ### Bit streams (R63 to R65) -/

/-- `InBit(q) = MemRead(IN, q div 8, 1)[7 − (q mod 8)]` (R63). -/
def State.inBit (s : State) (q : Nat) : Bool :=
  (s.byte .inBuf (q / 8)).getLsbD (7 - q % 8)

/-- `EFF_LIMIT = min(IN_LIMIT, IN_SIZE)` (R34, R64). -/
def State.effLimit (s : State) : Nat := min s.inLimit.toNat Config.inSize

/-- `Fetch(p, k)`: the `k` input bits that start at bit index `p` (R64). -/
def State.fetch (s : State) (p k : Nat) : Except UnitErr Bits :=
  if 8 * s.effLimit < p + k then .error ⟨.inExhausted, BitVec.ofNat 32 k⟩
  else .ok ((List.range k).map fun j => s.inBit (p + j))

/-- The pending output bits, first to last, `bitsOf(8, ACC_BITS)[0 .. ACC_N−1]` (R36). -/
def State.pendingBits (s : State) : Bits :=
  (bitsOf 8 s.accBits.toNat).take s.accN.toNat

/-- `OUT_PTR <- ptr; ACC.ACC_N <- n; ACC.ACC_BITS <- b; BITCOUNT <- c`. -/
def State.setOutput (s : State) (ptr : BitVec 16) (n : BitVec 3) (b : BitVec 8) (c : BitVec 32) : State :=
  { s with outPtr := ptr, accN := n, accBits := b, bitCount := c }

/-- `IN_PTR <- p`. -/
def State.setInPtr (s : State) (p : BitVec 18) : State := { s with inPtr := p }

/-- Append a bit string to the output stream: complete bytes go to OUT and the rest stays in ACC (R65). -/
def State.emitBits (s : State) (w : Bits) : Except UnitErr State :=
  let str := s.pendingBits ++ w
  let nb := str.length / 8
  let r := str.length % 8
  if 0 < nb ∧ Config.outSize < s.outPtr.toNat + nb then .error ⟨.outOverflow, BitVec.ofNat 32 nb⟩
  else
    .ok ((s.setBytes .outBuf s.outPtr.toNat (packBytes nb str)).setOutput (s.outPtr + BitVec.ofNat 16 nb)
      (BitVec.ofNat 3 r) (BitVec.ofNat 8 (val (str.drop (8 * nb) ++ List.replicate (8 - r) false)))
      (s.bitCount + BitVec.ofNat 32 w.length))

/-- `Emit(k, v)`: append the `k`-bit string of `v` (R65). -/
def State.emit (s : State) (k v : Nat) : Except UnitErr State := s.emitBits (bitsOf k v)

/-- Append the code of a symbol, or UNKNOWN_SYMBOL if it has none (R122, R123). -/
def State.emitSymbol (s : State) (sym : Nat) : Except UnitErr State :=
  if s.len sym = 0#8 then .error ⟨.unknownSymbol, BitVec.ofNat 32 sym⟩ else s.emitBits (s.codeBits sym)

/-! ### Error entry, return from it, completion (R66, R170, R171) -/

/-- The code STATUS.ERRCODE holds for an error (R161). -/
def ErrCode.toBits : ErrCode → BitVec 4
  | .illegalCmd => 1
  | .unknownSymbol => 2
  | .outOverflow => 3
  | .inExhausted => 4
  | .malformed => 5
  | .badTree => 6

/-- Taking an error, the one operation every error goes through: ERR, ERRCODE and ERRINFO are set, BUSY is cleared,
and everything else is kept (R66, R160, R170). -/
def State.takeError (s : State) (e : UnitErr) : State :=
  { s with busy := false, err := true, errCode := e.code.toBits, errInfo := e.info }

/-- The return from an error: ERR and ERRCODE are cleared and ERRINFO is kept (R28, R171). -/
def State.clearError (s : State) : State := { s with err := false, errCode := 0#4 }

/-- The completion step (R66). -/
def State.complete (s : State) : State := { s with busy := false, done := true }

/-- The bookkeeping of a unit that commits (R66). -/
def State.commit (s : State) : State := { s with symCount := s.symCount + 1#27, remain := s.remain - 1#27 }

/-- `EngineStep` (R66) for a command whose unit is given: the completion step if REMAIN = 0, else one unit, whose
writes are all kept or all discarded. -/
def State.engineStep (s : State) (unit : State → Except UnitErr State) : State :=
  if s.remain = 0#27 then s.complete
  else
    match unit s with
    | .error e => s.takeError e
    | .ok t => t.commit

/-! ### Accept (R26) -/

/-- A word that is accepted: LASTCMD, SYMCOUNT and DONE are written, then either ILLEGAL_CMD is taken or the command
starts (R26, R162). -/
def State.accept (s : State) (w : Word) : State :=
  let s := { s with lastCmd := w, symCount := 0#27, done := false }
  if legal s.hasTree w then
    { s with remain := units w, rootSnap := if s.hasTree then s.root else 0#9, busy := true }
  else { s with remain := 0#27 }.takeError ⟨.illegalCmd, 0#32⟩

/-- `HostWrite(CMD, w)`: dropped while BUSY = 1 or ERR = 1, else accepted (R26); no effect while the reset input is
asserted (R190, assumption 17). -/
def State.writeCmd (s : State) (w : Word) : State :=
  if s.inReset then s
  else if s.busy || s.err then { s with drop := true }
  else s.accept w

/-- The next step in the life of a command `w` whose unit is given: while BUSY = 1 it is the engine's step of the
running command (R66); otherwise it is the write of `w` to CMD (R26). Every meaning is one call of this
(assumptions 6 and 16). -/
def runCommand (w : Word) (unit : State → Except UnitErr State) (s : State) :
    Host.Outcome State Fault Refusal :=
  .next (if s.busy then s.engineStep unit else s.writeCmd w)

end Sys2Proof.Machine
end

