-- ==== Sys2Proof/Machine/Operands.lean ====
section
/-!
DEFINITION. Operand forms. Every operand is an unsigned field of the command word, zero-extended (spec
30_encoding.md R86); the fields of a node word (10_state.md R43) are the other operands a command takes.
-/

namespace Sys2Proof.Machine

/-- `N`, zero-extended (R83, R86). -/
def operandN (n : BitVec 5) : Nat := n.toNat

/-- `VALUE[N−1:0]`; bits of VALUE at or above `N` are 0 in a legal word (R83, R86). -/
def operandValue (n : BitVec 5) (value : BitVec 16) : Nat := value.toNat % 2 ^ n.toNat

/-- `SYM`, zero-extended (R84, R86). -/
def operandSym (sym : BitVec 8) : Nat := sym.toNat

/-- Bit 31 of a node word: 1 for a leaf (R43). -/
def nodeIsLeaf (w : Word) : Bool := w.getLsbD 31

/-- SYM of a leaf, `w[7:0]` (R43). -/
def nodeSym (w : Word) : Nat := (w.extractLsb' 0 8).toNat

/-- LEFT of an internal node, `w[8:0]`, reached by bit 0 (R43). -/
def nodeLeft (w : Word) : Nat := (w.extractLsb' 0 9).toNat

/-- RIGHT of an internal node, `w[24:16]`, reached by bit 1 (R43). -/
def nodeRight (w : Word) : Nat := (w.extractLsb' 16 9).toNat

/-- A leaf's reserved bits `w[30:8]` are all 0 (R43). -/
def leafClear (w : Word) : Bool := w.extractLsb' 8 23 == 0#23

/-- An internal node's reserved bits `w[30:25]` and `w[15:9]` are all 0 (R43). -/
def internalClear (w : Word) : Bool := w.extractLsb' 25 6 == 0#6 && w.extractLsb' 9 7 == 0#7

/-- BAD_TREE with ERRINFO `subcode·2^16 + index` (R103). -/
def badTree (subcode index : Nat) : UnitErr := ⟨.badTree, BitVec.ofNat 32 (subcode * 2 ^ 16 + index)⟩

end Sys2Proof.Machine
end

