-- ==== Sys2Proof/Machine/CodeTable.lean ====
section
/-!
DEFINITION. The code-table commands NOP, CLRCT and ASSIGN (spec 40_code_table.md R100 to R104).
-/

namespace Sys2Proof.Machine

/-- The NOP unit reads and writes nothing (R100). -/
def nopUnit (s : State) : Except UnitErr State := .ok s

/-- The CLRCT unit marks every symbol absent; CODE is not changed (R101). -/
def clrctUnit (s : State) : Except UnitErr State := .ok s.clearLens

/-- What `Visit` does at a leaf `i` with word `w`, depth `d` and path value `v` (R102). -/
def assignLeaf (i d v : Nat) (w : Word) (s : State) : Except UnitErr State :=
  if leafClear w = false then .error (badTree 4 i)
  else if s.len (nodeSym w) ≠ 0#8 then .error (badTree 3 i)
  else if d = 0 then .ok ((s.setLen (nodeSym w) 1#8).setCode (nodeSym w) 0#255)
  else .ok ((s.setLen (nodeSym w) (BitVec.ofNat 8 d)).setCode (nodeSym w) (BitVec.ofNat 255 v))

/-- `Visit(i, d, v)` of R102 with `d = 255 − fuel`, so that `fuel = 0` is the depth at which an internal node is
rejected. -/
def visit : Nat → Nat → Nat → Nat → State → Except UnitErr State
  | 0, i, d, v, s =>
    if Config.arenaNodes ≤ i then .error (badTree 1 i)
    else
      let w := s.node i
      if nodeIsLeaf w then assignLeaf i d v w s
      else if internalClear w = false then .error (badTree 4 i)
      else .error (badTree 2 i)
  | fuel + 1, i, d, v, s =>
    if Config.arenaNodes ≤ i then .error (badTree 1 i)
    else
      let w := s.node i
      if nodeIsLeaf w then assignLeaf i d v w s
      else if internalClear w = false then .error (badTree 4 i)
      else
        match visit fuel (nodeLeft w) (d + 1) (2 * v) s with
        | .error e => .error e
        | .ok t => visit fuel (nodeRight w) (d + 1) (2 * v + 1) t

/-- The ASSIGN unit: clear every LEN, then walk the tree from ROOT_SNAP, depth first, left first (R102). -/
def assignUnit (s : State) : Except UnitErr State :=
  visit Config.lMax s.rootSnap.toNat 0 0 s.clearLens

/-- NOP (R100). -/
def execNop (s : State) : Host.Outcome State Fault Refusal := runCommand (encode .nop) nopUnit s

/-- CLRCT (R101). -/
def execClrct (s : State) : Host.Outcome State Fault Refusal := runCommand (encode .clrct) clrctUnit s

/-- ASSIGN (R102). -/
def execAssign (s : State) : Host.Outcome State Fault Refusal := runCommand (encode .assign) assignUnit s

end Sys2Proof.Machine
end

