-- ==== Sys2Proof/Machine/Flags.lean ====
section
/-!
DEFINITION. The register words the host sees and writes: STATUS and its write-one-to-clear flags (spec 10_state.md
R27, R28), ACC and its mask (R36), CTRL, CAPS, and the IRQ output (R50). No command sets a condition code (R27).
-/

namespace Sys2Proof.Machine

/-- What a read of STATUS returns (R27). -/
def State.statusWord (s : State) : Word :=
  0#24 ++ s.errCode ++ BitVec.ofBool s.drop ++ BitVec.ofBool s.err ++ BitVec.ofBool s.done ++ BitVec.ofBool s.busy

/-- `HostWrite(STATUS, d)`: DONE, ERR with ERRCODE, and DROP are each cleared by a 1 (R28). -/
def State.writeStatus (s : State) (d : Word) : State :=
  let s := if d.getLsbD 1 then { s with done := false } else s
  let s := if d.getLsbD 2 then s.clearError else s
  if d.getLsbD 3 then { s with drop := false } else s

/-- The IRQ output: `IRQ_EN AND (DONE OR ERR)` (R50, R172). -/
def State.irq (s : State) : Bool := s.irqEn && (s.done || s.err)

/-- What a read of CTRL returns: SRST reads 0 (R25). -/
def State.ctrlWord (s : State) : Word := 0#31 ++ BitVec.ofBool s.irqEn

/-- What a read of CAPS returns (R24). -/
def State.capsWord (s : State) : Word :=
  BitVec.ofNat 8 (Config.outSize / 1024) ++ BitVec.ofNat 8 (Config.inSize / 1024) ++ BitVec.ofNat 8 Config.lMax ++
    0#7 ++ BitVec.ofBool s.hasTree

/-- What a read of ACC returns (R36). -/
def State.accWord (s : State) : Word := 0#21 ++ s.accN ++ s.accBits

/-- `mask(n) = (0xFF << (8−n)) AND 0xFF` (R36). -/
def accMask (n : BitVec 3) : BitVec 8 := 0xFF#8 <<< (8 - n.toNat)

/-- A host write of ACC: bits below the pending ones are stored as 0 (R36). -/
def State.writeAcc (s : State) (d : Word) : State :=
  { s with accN := d.extractLsb' 8 3, accBits := d.extractLsb' 0 8 &&& accMask (d.extractLsb' 8 3) }

end Sys2Proof.Machine
end

