-- ==== Sys2Proof/Machine/Pack.lean ====
section
/-!
DEFINITION. The packing commands PUTBITS, PUTSYM, PACKBUF and FLUSH (spec 41_pack.md R120 to R124).
-/

namespace Sys2Proof.Machine

/-- The PUTBITS unit: append `bitsOf(N, VALUE)` (R121). -/
def putbitsUnit (n : BitVec 5) (value : BitVec 16) (s : State) : Except UnitErr State :=
  s.emit (operandN n) (operandValue n value)

/-- The PUTSYM unit: append the code of SYM (R122). -/
def putsymUnit (sym : BitVec 8) (s : State) : Except UnitErr State := s.emitSymbol (operandSym sym)

/-- The PACKBUF unit: the next input byte's code is appended and IN_PTR moves past the byte (R123). -/
def packbufUnit (s : State) : Except UnitErr State :=
  match s.fetch s.inPtr.toNat 8 with
  | .error e => .error e
  | .ok w =>
    match s.emitSymbol (val w) with
    | .error e => .error e
    | .ok t => .ok (t.setInPtr (t.inPtr + 8#18))

/-- The FLUSH unit: pad the pending bits with zeros to a byte and write it; BITCOUNT is not changed (R124). -/
def flushUnit (s : State) : Except UnitErr State :=
  if s.accN = 0#3 then .ok s
  else if Config.outSize < s.outPtr.toNat + 1 then .error ⟨.outOverflow, 1#32⟩
  else
    .ok ((s.setByte .outBuf s.outPtr.toNat s.accBits).setOutput (s.outPtr + 1#16) 0#3 0#8 s.bitCount)

/-- PUTBITS (R121). -/
def execPutbits (n : BitVec 5) (value : BitVec 16) (s : State) : Host.Outcome State Fault Refusal :=
  runCommand (encode (.putbits n value)) (putbitsUnit n value) s

/-- PUTSYM (R122). -/
def execPutsym (sym : BitVec 8) (s : State) : Host.Outcome State Fault Refusal :=
  runCommand (encode (.putsym sym)) (putsymUnit sym) s

/-- PACKBUF (R123); COUNT is in REMAIN while the command runs (R30). -/
def execPackbuf (count : BitVec 27) (s : State) : Host.Outcome State Fault Refusal :=
  runCommand (encode (.packbuf count)) packbufUnit s

/-- FLUSH (R124). -/
def execFlush (s : State) : Host.Outcome State Fault Refusal := runCommand (encode .flush) flushUnit s

end Sys2Proof.Machine
end

