-- ==== Sys2Proof/Machine/Unpack.lean ====
section
/-!
DEFINITION. The unpacking commands UNPACK, UNPACKT and ALIGNIN (spec 42_unpack.md R140 to R144).
-/

namespace Sys2Proof.Machine

/-- `min M` for `M = { s | CT[s].LEN = k and code(s) = w }` with `k = |w|`: the lowest symbol whose code is the
scanned bits, if there is one (R140). -/
def State.matchSymbol (s : State) (w : Bits) : Option Nat :=
  (List.range Config.nSym).find? fun sym => (s.len sym).toNat == w.length && s.codeBits sym == w

/-- Some symbol has a code longer than the scanned bits of which they are a prefix (R140). -/
def State.isProperPrefix (s : State) (w : Bits) : Bool :=
  (List.range Config.nSym).any fun sym => decide (w.length < (s.len sym).toNat) && w.isPrefixOf (s.codeBits sym)

/-- The rounds of `DecodeCT(p)` from scan length `k` on, with `k = 256 − fuel` (R140). `fuel = 0` is never reached:
at `k = 255` no code is longer (assumption 14). -/
def scanCT (s : State) (p : Nat) : Nat → Nat → Except UnitErr (Nat × Nat)
  | 0, k => .error ⟨.malformed, BitVec.ofNat 32 k⟩
  | fuel + 1, k =>
    match s.fetch p k with
    | .error e => .error e
    | .ok w =>
      match s.matchSymbol w with
      | some sym => .ok (sym, k)
      | none => if s.isProperPrefix w then scanCT s p fuel (k + 1) else .error ⟨.malformed, BitVec.ofNat 32 k⟩

/-- `DecodeCT(p)`: the symbol whose code is the shortest match at bit index `p`, and the bits used (R140). -/
def decodeCT (s : State) (p : Nat) : Except UnitErr (Nat × Nat) := scanCT s p Config.lMax 1

/-- What `DecodeTree` does at a leaf at depth `d` (R142): at depth 0 the tree's only code is "0". -/
def treeLeaf (s : State) (p d : Nat) (w : Word) : Except UnitErr (Nat × Nat) :=
  if d = 0 then
    match s.fetch p 1 with
    | .error e => .error e
    | .ok b => if b = [true] then .error ⟨.malformed, 1#32⟩ else .ok (nodeSym w, 1)
  else .ok (nodeSym w, d)

/-- The loop of `DecodeTree(p)` at node `i` and depth `d`, with `d = 255 − fuel`, so that `fuel = 0` is the depth at
which an internal node is rejected (R142). -/
def walkTree (s : State) (p : Nat) : Nat → Nat → Nat → Except UnitErr (Nat × Nat)
  | 0, i, d =>
    if Config.arenaNodes ≤ i then .error (badTree 1 i)
    else
      let w := s.node i
      if nodeIsLeaf w then
        if leafClear w = false then .error (badTree 4 i) else treeLeaf s p d w
      else if internalClear w = false then .error (badTree 4 i)
      else .error (badTree 2 i)
  | fuel + 1, i, d =>
    if Config.arenaNodes ≤ i then .error (badTree 1 i)
    else
      let w := s.node i
      if nodeIsLeaf w then
        if leafClear w = false then .error (badTree 4 i) else treeLeaf s p d w
      else if internalClear w = false then .error (badTree 4 i)
      else
        match s.fetch p (d + 1) with
        | .error e => .error e
        | .ok b => walkTree s p fuel (if b.getD d false = false then nodeLeft w else nodeRight w) (d + 1)

/-- `DecodeTree(p)`: the symbol of the leaf the input bits lead to from ROOT_SNAP, and the bits used (R142). -/
def decodeTree (s : State) (p : Nat) : Except UnitErr (Nat × Nat) := walkTree s p Config.lMax s.rootSnap.toNat 0

/-- Emit a decoded symbol as 8 bits and move IN_PTR past its code (R141, R143). -/
def emitDecoded (s : State) (r : Except UnitErr (Nat × Nat)) : Except UnitErr State :=
  match r with
  | .error e => .error e
  | .ok (sym, k) =>
    match s.emit 8 sym with
    | .error e => .error e
    | .ok t => .ok (t.setInPtr (t.inPtr + BitVec.ofNat 18 k))

/-- The UNPACK unit (R141). -/
def unpackUnit (s : State) : Except UnitErr State := emitDecoded s (decodeCT s s.inPtr.toNat)

/-- The UNPACKT unit (R143). -/
def unpacktUnit (s : State) : Except UnitErr State := emitDecoded s (decodeTree s s.inPtr.toNat)

/-- The ALIGNIN unit: `IN_PTR <- (8 · ((IN_PTR + 7) div 8)) mod 2^18` (R144). -/
def aligninUnit (s : State) : Except UnitErr State :=
  .ok (s.setInPtr (BitVec.ofNat 18 (8 * ((s.inPtr.toNat + 7) / 8))))

/-- UNPACK (R141); COUNT is in REMAIN while the command runs (R30). -/
def execUnpack (count : BitVec 27) (s : State) : Host.Outcome State Fault Refusal :=
  runCommand (encode (.unpack count)) unpackUnit s

/-- UNPACKT (R143); COUNT is in REMAIN while the command runs (R30). -/
def execUnpackt (count : BitVec 27) (s : State) : Host.Outcome State Fault Refusal :=
  runCommand (encode (.unpackt count)) unpacktUnit s

/-- ALIGNIN (R144). -/
def execAlignin (s : State) : Host.Outcome State Fault Refusal := runCommand (encode .alignin) aligninUnit s

end Sys2Proof.Machine
end

