-- ==== Sys2Proof/Machine/Dispatch.lean ====
section
/-!
DEFINITION. One arm per command, each one call of the command's meaning.
-/

namespace Sys2Proof.Machine

def exec (i : Instr) (s : State) : Host.Outcome State Fault Refusal :=
  match i with
  | .nop => Sys2Proof.Machine.execNop s
  | .putbits n value => Sys2Proof.Machine.execPutbits n value s
  | .putsym sym => Sys2Proof.Machine.execPutsym sym s
  | .packbuf count => Sys2Proof.Machine.execPackbuf count s
  | .flush => Sys2Proof.Machine.execFlush s
  | .unpack count => Sys2Proof.Machine.execUnpack count s
  | .alignin => Sys2Proof.Machine.execAlignin s
  | .clrct => Sys2Proof.Machine.execClrct s
  | .assign => Sys2Proof.Machine.execAssign s
  | .unpackt count => Sys2Proof.Machine.execUnpackt count s

end Sys2Proof.Machine
end

