-- ==== Sys2Proof/Machine/Reset.lean ====
section
/-!
DEFINITION. The two resets (spec 70_reset_and_hazards.md R190 to R192).
-/

namespace Sys2Proof.Machine

/-- The register part of the reset action, which both resets perform: every register takes its reset value, every
CT entry gets `LEN = 0`, and `ROOT_SNAP <- 0` (R190, R191). CODE, ARENA, IN and OUT are kept. -/
def State.resetRegisters (s : State) : State :=
  { s with
    irqEn := false
    busy := false
    done := false
    err := false
    drop := false
    errCode := 0#4
    lastCmd := 0#32
    remain := 0#27
    symCount := 0#27
    errInfo := 0#32
    inPtr := 0#18
    inLimit := 0#16
    outPtr := 0#16
    accBits := 0#8
    accN := 0#3
    bitCount := 0#32
    root := 0#9
    rootSnap := 0#9
    ctLen := [] }

/-- The soft reset, a write of CTRL with SRST = 1 (R191). -/
def State.softReset (s : State) : State := s.resetRegisters

/-- The hardware reset action: the register part, and CODE, ARENA, IN and OUT become unspecified, which a new epoch
of draws says (R190, assumption 2). -/
def State.hardReset (s : State) : State :=
  { s.resetRegisters with
    ctCode := []
    arena := []
    inBuf := []
    outBuf := []
    epoch := s.epoch + 1 }

/-- The hardware reset input is asserted: the reset action happens at once, whatever the HBPU is doing (R190). -/
def State.assertReset (s : State) : State := { s.hardReset with inReset := true }

/-- The hardware reset input is released: the HBPU is idle (R190). -/
def State.releaseReset (s : State) : State := { s with inReset := false }

end Sys2Proof.Machine
end

