-- ==== Sys2Proof/Machine/HostPort.lean ====
section
/-!
DEFINITION. The host port: the address map (spec 10_state.md R23, R41, R44 to R46), the two transactions
(20_memory.md R60, R61), and the drop and read-zero rules while a command runs (R62).
-/

namespace Sys2Proof.Machine

/-- What a host address names (R23, R41, R44, R45, R46). -/
inductive Target where
  | id
  | caps
  | ctrl
  | status
  | cmd
  | lastCmd
  | remain
  | symCount
  | errInfo
  | inPtr
  | inLimit
  | outPtr
  | acc
  | bitCount
  | root
  /-- A reserved address outside every window. -/
  | reserved
  /-- LEN of entry `sym` (R41). -/
  | ctLen (sym : Nat)
  /-- CODE word `j` of entry `sym` (R41). -/
  | ctCode (sym j : Nat)
  /-- The words +0x24 to +0x3C of a CT entry (R41). -/
  | ctPad
  /-- Node word `i` (R44). -/
  | arena (i : Nat)
  /-- The word at 0x57FC (R44). -/
  | arenaPad
  /-- Word `m` of IN (R45). -/
  | inWord (m : Nat)
  /-- Word `m` of OUT (R46). -/
  | outWord (m : Nat)
  deriving DecidableEq, Repr

/-- The register at a word offset below 0x1000 (R23). -/
def registerAt (off : Nat) : Target :=
  match off with
  | 0x0000 => .id
  | 0x0004 => .caps
  | 0x0008 => .ctrl
  | 0x000C => .status
  | 0x0010 => .cmd
  | 0x0014 => .lastCmd
  | 0x0018 => .remain
  | 0x001C => .symCount
  | 0x0020 => .errInfo
  | 0x0024 => .inPtr
  | 0x0028 => .inLimit
  | 0x002C => .outPtr
  | 0x0030 => .acc
  | 0x0034 => .bitCount
  | 0x0038 => .root
  | _ => .reserved

/-- The word at offset `q` of a CT entry (R41). -/
def ctEntryAt (sym q : Nat) : Target :=
  if q = 0 then .ctLen sym else if q ≤ 0x20 then .ctCode sym (q / 4 - 1) else .ctPad

/-- The address map of R23; address bits [1:0] are ignored (R60). -/
def target (a : Addr) : Target :=
  let off := a.toNat / 4 * 4
  if off < 0x1000 then registerAt off
  else if off < 0x5000 then ctEntryAt ((off - 0x1000) / 64) ((off - 0x1000) % 64)
  else if off < 0x57FC then .arena ((off - 0x5000) / 4)
  else if off < 0x5800 then .arenaPad
  else if off < 0x8000 then .reserved
  else if off < 0xC000 then .inWord ((off - 0x8000) / 4)
  else .outWord ((off - 0xC000) / 4)

/-- Part of the CT, ARENA, IN_BUF or OUT_BUF window (R23, R62). -/
def Target.isWindow : Target → Bool
  | .ctLen _ | .ctCode _ _ | .ctPad | .arena _ | .arenaPad | .inWord _ | .outWord _ => true
  | .id | .caps | .ctrl | .status | .cmd | .lastCmd | .remain | .symCount | .errInfo | .inPtr | .inLimit | .outPtr
  | .acc | .bitCount | .root | .reserved => false

/-- Engine-owned: a host write is dropped while BUSY = 1 (R23, R62; assumption 9). -/
def Target.isOwned : Target → Bool
  | .inPtr | .inLimit | .outPtr | .acc | .bitCount | .root => true
  | .ctLen _ | .ctCode _ _ | .ctPad | .arena _ | .arenaPad | .inWord _ | .outWord _ => true
  | .id | .caps | .ctrl | .status | .cmd | .lastCmd | .remain | .symCount | .errInfo | .reserved => false

/-- What a read of a register or window word returns; reserved bits read 0 (R24 to R38, R41, R44 to R46, R61). -/
def State.readTarget (s : State) : Target → Word
  | .id => Config.idWord
  | .caps => s.capsWord
  | .ctrl => s.ctrlWord
  | .status => s.statusWord
  | .cmd => 0#32
  | .lastCmd => s.lastCmd
  | .remain => s.remain.setWidth 32
  | .symCount => s.symCount.setWidth 32
  | .errInfo => s.errInfo
  | .inPtr => s.inPtr.setWidth 32
  | .inLimit => s.inLimit.setWidth 32
  | .outPtr => s.outPtr.setWidth 32
  | .acc => s.accWord
  | .bitCount => s.bitCount
  | .root => if s.hasTree then s.root.setWidth 32 else 0#32
  | .reserved => 0#32
  | .ctLen sym => (s.len sym).setWidth 32
  | .ctCode sym j => s.word .ctCode (32 * sym + 4 * j)
  | .ctPad => 0#32
  | .arena i => if s.hasTree then s.node i else 0#32
  | .arenaPad => 0#32
  | .inWord m => s.word .inBuf (4 * m)
  | .outWord m => s.word .outBuf (4 * m)

/-- A host write of CTRL: SRST = 1 is the soft reset, else IRQ_EN takes bit 0 (R25, R191). -/
def State.writeCtrl (s : State) (d : Word) : State :=
  if d.getLsbD 1 then s.softReset else { s with irqEn := d.getLsbD 0 }

/-- The effect of a write to a register or window word that is not dropped (R24 to R38, R41, R44 to R46, R61). -/
def State.writeTarget (s : State) (t : Target) (d : Word) : State :=
  match t with
  | .ctrl => s.writeCtrl d
  | .status => s.writeStatus d
  | .cmd => s.writeCmd d
  | .inPtr => { s with inPtr := d.extractLsb' 0 18 }
  | .inLimit => { s with inLimit := d.extractLsb' 0 16 }
  | .outPtr => { s with outPtr := d.extractLsb' 0 16 }
  | .acc => s.writeAcc d
  | .bitCount => { s with bitCount := d }
  | .root => if s.hasTree then { s with root := d.extractLsb' 0 9 } else s
  | .ctLen sym => s.setLen sym (d.extractLsb' 0 8)
  | .ctCode sym j => s.setWord .ctCode (32 * sym + 4 * j) d
  | .arena i => if s.hasTree then s.setWord .arena (4 * i) d else s
  | .inWord m => s.setWord .inBuf (4 * m) d
  | .outWord m => s.setWord .outBuf (4 * m) d
  | .id | .caps | .lastCmd | .remain | .symCount | .errInfo | .reserved | .ctPad | .arenaPad => s

/-- `HostRead(a)`: no side effect; 0 while the reset input is asserted, and 0 from any window while BUSY = 1
(R60, R62, R69, R190). -/
def State.hostRead (s : State) (a : Addr) : Word :=
  if s.inReset then 0#32
  else if s.busy && (target a).isWindow then 0#32
  else s.readTarget (target a)

/-- `HostWrite(a, d)`: no effect while the reset input is asserted; dropped, with DROP set, if the target is
engine-owned and BUSY = 1 (R60, R62, R190). -/
def State.hostWrite (s : State) (a : Addr) (d : Word) : State :=
  if s.inReset then s
  else if s.busy && (target a).isOwned then { s with drop := true }
  else s.writeTarget (target a) d

/-- The address of STATUS (R23). -/
def statusAddr : Addr := 0x000C#16

/-- The address of CMD (R23). -/
def cmdAddr : Addr := 0x0010#16

end Sys2Proof.Machine
end

