-- ==== Sys2Proof/Machine/Turn.lean ====
section
/-!
DEFINITION. One turn of each agent, and whose turn it is (spec 00_scope.md R18, 20_memory.md R66, R73). The running
command is read from LASTCMD (10_state.md R21, R29).
-/

namespace Sys2Proof.Machine

/-- The command the engine is running: LASTCMD, if it holds a legal command (R29, R87, R90). -/
def State.runningCommand (s : State) : Option Instr :=
  match decode s.lastCmd with
  | .ok i => if i.isLegal s.hasTree then some i else none
  | .error _ => none

/-- The engine's turn: one engine step if BUSY = 1, else nothing happens (R66). -/
def engineTurn (s : State) : Host.Outcome State Fault Refusal :=
  if s.busy then
    match s.runningCommand with
    | some i => exec i s
    | none => .fault .noCommand
  else .next s

/-- A host read, whose word is handed back (R60); a read of STATUS tells the host whether BUSY is 0 (R201). -/
def State.performRead (s : State) (a : Addr) : State :=
  { s with
    replies := s.hostRead a :: s.replies
    idleSeen := if target a = .status then !(s.hostRead a).getLsbD 0 else s.idleSeen }

/-- What a host write does to what the host knows: after a write of CMD it has not seen `BUSY = 0` (R201,
assumption 18). -/
def State.noteWrite (s : State) (a : Addr) : State :=
  { s with idleSeen := if target a = .cmd then false else s.idleSeen }

/-- One input from outside. A `wait` reads STATUS and stays the next input while the word read has BUSY set (R93;
assumption 11). -/
def State.perform (s : State) : Input → State
  | .read a => s.performRead a
  | .write a d => (s.noteWrite a).hostWrite a d
  | .wait =>
    if (s.hostRead statusAddr).getLsbD 0 then { s.performRead statusAddr with inputs := .wait :: s.inputs }
    else s.performRead statusAddr
  | .resetAssert => s.assertReset
  | .resetRelease => s.releaseReset

/-- The outside's turn: its next input, or nothing if it has none. -/
def hostTurn (s : State) : Host.Outcome State Fault Refusal :=
  match s.inputs with
  | [] => .next s
  | x :: rest => .next (State.perform { s with inputs := rest } x)

/-- Whose turn it is: the head of `turns`, or, when no turn is laid down, the engine while BUSY = 1 and the host
otherwise (assumption 5). -/
def State.mover (s : State) : Agent :=
  match s.turns with
  | a :: _ => a
  | [] => if s.busy then .engine else .host

/-- The turn of one agent. -/
def takeTurn (a : Agent) (s : State) : Host.Outcome State Fault Refusal :=
  match a with
  | .engine => engineTurn s
  | .host => hostTurn s

/-- One step of the whole machine. -/
def stepTurn (s : State) : Host.Outcome State Fault Refusal :=
  takeTurn s.mover { s with turns := s.turns.tail }

/-- The state in which the very next step runs the command `w` (assumption 7): for a legal word, the state right
after its accept; an illegal word never sets BUSY, so for it the write of `w` to CMD is the next input (R26). -/
def State.withCommand (s : State) (w : Word) : State :=
  let idle := { s with busy := false, err := false, errCode := 0#4, inReset := false, turns := [] }
  if legal s.hasTree w then idle.writeCmd w else { idle with inputs := .write cmdAddr w :: s.inputs }

end Sys2Proof.Machine
end

