-- ==== Sys2Proof/Machine/Step.lean ====
section
/-!
DEFINITION. The step of the machine, and the state whose next step runs a given command word.
-/

namespace Sys2Proof.Machine

/-- One step: one turn of the host or of the engine (spec 00_scope.md R18). -/
def step (s : State) : Host.Outcome State Fault Refusal := stepTurn s

/-- The state whose next step runs the command word `w`, the bits at and above `nbits` being 0 (assumption 7). -/
def State.withFetchWord (s : State) (nbits w : Nat) : State :=
  s.withCommand (BitVec.ofNat 32 (w % 2 ^ nbits))

end Sys2Proof.Machine
end

