-- ==== Sys2Proof/Machine/HostProgram.lean ====
section
/-!
DEFINITION. The host's program language (spec 30_encoding.md R91 to R93): the assembler's commands and their
pseudo-commands, the host statements and the port accesses they stand for, and the two pipelines of 41_pack.md R126
and 42_unpack.md R147. A program is loaded from outside into State's `inputs` (assumptions 7, 12 and 13).
-/

namespace Sys2Proof.Machine

/-- A command as the assembler reads it: a mnemonic of R81 or a pseudo-command of R92, with unbounded numbers. -/
inductive AsmCmd where
  | nop
  | putbits (n v : Nat)
  | putsym (s : Nat)
  | packbuf (c : Nat)
  | flush
  | unpack (c : Nat)
  | alignin
  | clrct
  | assign
  | unpackt (c : Nat)
  /-- `PUTBYTE b` is `PUTBITS 8, b` (R92). -/
  | putbyte (b : Nat)
  /-- `PUTZEROS n` is `PUTBITS n, 0` (R92). -/
  | putzeros (n : Nat)
  /-- `PUTCODE n, v`: PUTBITS commands of at most 16 bits, most significant chunk first (R92). -/
  | putcode (n v : Nat)
  deriving DecidableEq, Repr

/-- `PUTBITS n, v`, rejected out of range, never truncated (R91). -/
def asmPutbits (n v : Nat) : Option Instr :=
  if 1 ≤ n ∧ n ≤ 16 ∧ v < 2 ^ n then some (.putbits (BitVec.ofNat 5 n) (BitVec.ofNat 16 v)) else none

/-- A command with a COUNT operand, rejected out of range (R91). -/
def asmCount (mk : BitVec 27 → Instr) (c : Nat) : Option (List Instr) :=
  if c < 2 ^ 27 then some [mk (BitVec.ofNat 27 c)] else none

/-- The `m` chunks of 16 bits of `v` that follow the first of PUTCODE, most significant first (R92). -/
def putcodeTail : Nat → Nat → List Instr
  | 0, _ => []
  | m + 1, v => .putbits 16#5 (BitVec.ofNat 16 (v / 2 ^ (16 * m))) :: putcodeTail m v

/-- PUTCODE: the first chunk has `((n − 1) mod 16) + 1` bits and every later one 16 (R92). -/
def asmPutcode (n v : Nat) : Option (List Instr) :=
  if 1 ≤ n ∧ v < 2 ^ n then
    let first := (n - 1) % 16 + 1
    let m := (n - first) / 16
    some (.putbits (BitVec.ofNat 5 first) (BitVec.ofNat 16 (v / 2 ^ (16 * m))) :: putcodeTail m v)
  else none

/-- The commands an assembler line stands for, or `none` if an operand is out of range (R91, R92). -/
def AsmCmd.assemble : AsmCmd → Option (List Instr)
  | .nop => some [.nop]
  | .putbits n v => (asmPutbits n v).map ([·])
  | .putsym s => if s < 256 then some [.putsym (BitVec.ofNat 8 s)] else none
  | .packbuf c => asmCount .packbuf c
  | .flush => some [.flush]
  | .unpack c => asmCount .unpack c
  | .alignin => some [.alignin]
  | .clrct => some [.clrct]
  | .assign => some [.assign]
  | .unpackt c => asmCount .unpackt c
  | .putbyte b => (asmPutbits 8 b).map ([·])
  | .putzeros n => (asmPutbits n 0).map ([·])
  | .putcode n v => asmPutcode n v

/-- A register, field or memory element that `expect` can name (R93): what R22 to R38 and R40 to R47 give the HBPU. -/
inductive Element where
  /-- Bits `[lo + width − 1 : lo]` of a register, as a host read gives them: a field, or the whole register. -/
  | field (reg : Target) (lo width : Nat)
  /-- ROOT_SNAP (R47). -/
  | rootSnap
  /-- The IRQ output (R50). -/
  | irq
  /-- `CT[s].LEN` (R40). -/
  | ctLen (s : Nat)
  /-- `CT[s].CODE` (R40). -/
  | ctCode (s : Nat)
  /-- `ARENA[i]` (R43). -/
  | arena (i : Nat)
  /-- `IN[a]` (R45). -/
  | inByte (a : Nat)
  /-- `OUT[a]` (R46). -/
  | outByte (a : Nat)
  deriving DecidableEq, Repr

/-- The element exists: its index is in range (R10, R13, R40, R43, R45, R46). -/
def Element.inRange : Element → Bool
  | .field _ _ _ | .rootSnap | .irq => true
  | .ctLen s | .ctCode s => s < Config.nSym
  | .arena i => i < Config.arenaNodes
  | .inByte a => a < Config.inSize
  | .outByte a => a < Config.outSize

/-- The value of an element in a state; a node word is 0 without a tree engine, as a host reads it (R44). -/
def State.element (s : State) : Element → Nat
  | .field reg lo width => (s.readTarget reg).toNat / 2 ^ lo % 2 ^ width
  | .rootSnap => s.rootSnap.toNat
  | .irq => s.irq.toNat
  | .ctLen sym => (s.len sym).toNat
  | .ctCode sym => (s.code sym).toNat
  | .arena i => (s.readTarget (.arena i)).toNat
  | .inByte a => (s.byte .inBuf a).toNat
  | .outByte a => (s.byte .outBuf a).toNat

/-- A host-program statement (R93). -/
inductive HostStmt where
  /-- `wr OFF, D`. -/
  | wr (off d : Nat)
  /-- `rd OFF`. -/
  | rd (off : Nat)
  /-- `run CMD`: the CMD write, then `wait`. -/
  | run (c : AsmCmd)
  | wait
  /-- Clears DONE, ERR and DROP. -/
  | ack
  /-- `setcode s, n, v`: CT entry `s` gets LEN `n` and CODE `v`. -/
  | setcode (s n v : Nat)
  /-- `setnode i, D`. -/
  | setnode (i d : Nat)
  /-- `ldin B0 B1 …`. -/
  | ldin (bs : List Nat)
  /-- `expect X = V`: the value the rules give for X; not a host action. -/
  | expect (x : Element) (v : Nat)
  deriving DecidableEq, Repr

/-- A port write whose offset and word are in range. -/
def writeInput (off d : Nat) : Option Input :=
  if off < 2 ^ 16 ∧ d < 2 ^ 32 then some (.write (BitVec.ofNat 16 off) (BitVec.ofNat 32 d)) else none

/-- The CMD write of a command and the wait for it (R93). -/
def runInputs (i : Instr) : List Input := [.write cmdAddr (encode i), .wait]

/-- The eight CODE words of `setcode` (R93); bit 31 of the last is ignored by the window (R41). -/
def codeInputs (s v : Nat) : Option (List Input) :=
  (List.range 8).mapM fun j => writeInput (0x1004 + 64 * s + 4 * j) (v / 2 ^ (32 * j) % 2 ^ 32)

/-- The writes of `ldin`: four bytes per word, little-endian, the last word padded with zero bytes (R93). -/
def ldinInputs : Nat → List Nat → Option (List Input)
  | m, b0 :: b1 :: b2 :: b3 :: bs =>
    (writeInput (0x8000 + 4 * m) (b0 + 2 ^ 8 * b1 + 2 ^ 16 * b2 + 2 ^ 24 * b3)).bind fun x =>
      (ldinInputs (m + 1) bs).map (x :: ·)
  | _, [] => some []
  | m, [b0] => (writeInput (0x8000 + 4 * m) b0).map ([·])
  | m, [b0, b1] => (writeInput (0x8000 + 4 * m) (b0 + 2 ^ 8 * b1)).map ([·])
  | m, [b0, b1, b2] => (writeInput (0x8000 + 4 * m) (b0 + 2 ^ 8 * b1 + 2 ^ 16 * b2)).map ([·])

/-- The port accesses a statement stands for, or `none` if an operand is out of range (R91, R93, R180;
assumption 13). -/
def HostStmt.expand : HostStmt → Option (List Input)
  | .wr off d => (writeInput off d).map ([·])
  | .rd off => if off < 2 ^ 16 then some [.read (BitVec.ofNat 16 off)] else none
  | .run c => c.assemble.map fun is => is.flatMap runInputs
  | .wait => some [.wait]
  | .ack => (writeInput 0x000C 0xE).map ([·])
  | .setcode s n v =>
    if s < 256 ∧ n < 256 ∧ v < 2 ^ 256 then
      (writeInput (0x1000 + 64 * s) n).bind fun x => (codeInputs s v).map (x :: ·)
    else none
  | .setnode i d => (writeInput (0x5000 + 4 * i) d).map ([·])
  | .ldin bs => if bs.all (· < 256) && bs.length ≤ Config.inSize then ldinInputs 0 bs else none
  | .expect x _ => if x.inRange then some [] else none

/-- The port accesses of a program. -/
def expandProgram (p : List HostStmt) : Option (List Input) := (p.mapM HostStmt.expand).map List.flatten

/-- What one `expect` states: `X = V` once the host has done that many of the program's port accesses (R93). -/
structure Expectation where
  after : Nat
  element : Element
  value : Nat
  deriving DecidableEq, Repr

/-- The state has the value the statement gives (R93). -/
def State.meets (s : State) (e : Expectation) : Prop := s.element e.element = e.value

/-- The `expect` statements of a program whose first `n` accesses come before it, each with the accesses before it. -/
def expectations (n : Nat) : List HostStmt → List Expectation
  | [] => []
  | .expect x v :: p => ⟨n, x, v⟩ :: expectations n p
  | st :: p => expectations (n + (st.expand.getD []).length) p

/-- Load a host program behind what the outside already does next; a statement with no meaning is refused (R180). -/
def loadProgram (p : List HostStmt) (s : State) : Host.Outcome State Fault Refusal :=
  match expandProgram p with
  | some xs => .next { s with inputs := s.inputs ++ xs }
  | none => .refused .hostStatement

/-- The compress pipeline after the host has set up the code table (R126). -/
def packPipeline (table : List HostStmt) (input : List Nat) : List HostStmt :=
  table ++ [.ldin input, .wr 0x0028 input.length, .wr 0x0024 0, .wr 0x002C 0, .wr 0x0030 0, .wr 0x0034 0,
    .run (.packbuf input.length), .run .flush]

/-- The decompress pipeline after the host has set up the code table (R147). -/
def unpackPipeline (table : List HostStmt) (packed : List Nat) (originalLength : Nat) : List HostStmt :=
  table ++ [.ldin packed, .wr 0x0028 packed.length, .wr 0x0024 0, .wr 0x002C 0, .wr 0x0030 0,
    .run (.unpack originalLength)]

end Sys2Proof.Machine
end

