-- ==== Sys2Proof/Machine/Assembler.lean ====
section
/-!
DEFINITION. The text form of the host's programs (spec 30_encoding.md R91 to R93): numbers, commands, and statements,
of which a line may hold several. What the rules leave open of the text is assumption 12.
-/

namespace Sys2Proof.Machine

/-- The end of the word whose characters, last first, are `cur`. -/
def wordEnd (cur : List Char) : List (List Char) := if cur = [] then [] else [cur.reverse]

/-- The words of a line: blanks and commas separate them, each of `;`, `=`, `[` and `]` is a word of its own, and so is
a character in single quotes, whatever it is. `cur` holds the characters of the word being read, last first. -/
def lineWords (cur : List Char) : List Char → List (List Char)
  | [] => wordEnd cur
  | '\'' :: c :: '\'' :: rest => wordEnd cur ++ ['\'', c, '\''] :: lineWords [] rest
  | c :: rest =>
    if c = ' ' ∨ c = '\t' ∨ c = ',' then wordEnd cur ++ lineWords [] rest
    else if c = ';' ∨ c = '=' ∨ c = '[' ∨ c = ']' then wordEnd cur ++ [c] :: lineWords [] rest
    else lineWords (c :: cur) rest

/-- The parts of a line, between its `;`. -/
def lineParts (line : String) : List (List (List Char)) := (lineWords [] line.toList).splitOn [';']

/-- The value of a digit below the base. -/
def digitValue (base : Nat) (c : Char) : Option Nat :=
  let v :=
    if '0' ≤ c ∧ c ≤ '9' then c.toNat - '0'.toNat
    else if 'a' ≤ c ∧ c ≤ 'f' then c.toNat - 'a'.toNat + 10
    else if 'A' ≤ c ∧ c ≤ 'F' then c.toNat - 'A'.toNat + 10
    else base
  if v < base then some v else none

/-- The number whose digits, most significant first, follow the value read so far. -/
def digitsValue (base : Nat) : Nat → List Char → Option Nat
  | acc, [] => some acc
  | acc, c :: cs => (digitValue base c).bind fun v => digitsValue base (base * acc + v) cs

/-- A number: decimal, `0x` hexadecimal, or the byte value of a character in single quotes (R91). -/
def parseNumber : List Char → Option Nat
  | [] => none
  | ['\'', c, '\''] => if c.toNat < 128 then some c.toNat else none
  | '0' :: 'x' :: [] => none
  | '0' :: 'x' :: ds => digitsValue 16 0 ds
  | ds => digitsValue 10 0 ds

/-- A command with no operand (R91). -/
def parseCommand0 (m : List Char) : Option AsmCmd :=
  if m = "NOP".toList then some .nop
  else if m = "FLUSH".toList then some .flush
  else if m = "ALIGNIN".toList then some .alignin
  else if m = "CLRCT".toList then some .clrct
  else if m = "ASSIGN".toList then some .assign
  else none

/-- A command with one operand (R91, R92). -/
def parseCommand1 (m : List Char) (x : Nat) : Option AsmCmd :=
  if m = "PUTSYM".toList then some (.putsym x)
  else if m = "PACKBUF".toList then some (.packbuf x)
  else if m = "UNPACK".toList then some (.unpack x)
  else if m = "UNPACKT".toList then some (.unpackt x)
  else if m = "PUTBYTE".toList then some (.putbyte x)
  else if m = "PUTZEROS".toList then some (.putzeros x)
  else none

/-- A command with two operands (R91, R92). -/
def parseCommand2 (m : List Char) (x y : Nat) : Option AsmCmd :=
  if m = "PUTBITS".toList then some (.putbits x y)
  else if m = "PUTCODE".toList then some (.putcode x y)
  else none

/-- A command: its mnemonic and its numbers (R91). -/
def parseCommand : List (List Char) → Option AsmCmd
  | [m] => parseCommand0 m
  | [m, x] => (parseNumber x).bind (parseCommand1 m)
  | [m, x, y] => (parseNumber x).bind fun a => (parseNumber y).bind (parseCommand2 m a)
  | _ => none

/-- A statement whose operands are numbers (R93). -/
def parseNumeric (m : List Char) (xs : List Nat) : Option HostStmt :=
  match xs with
  | [a] => if m = "rd".toList then some (.rd a) else if m = "ldin".toList then some (.ldin [a]) else none
  | [a, b] =>
    if m = "wr".toList then some (.wr a b)
    else if m = "setnode".toList then some (.setnode a b)
    else if m = "ldin".toList then some (.ldin [a, b])
    else none
  | [a, b, c] =>
    if m = "setcode".toList then some (.setcode a b c)
    else if m = "ldin".toList then some (.ldin [a, b, c])
    else none
  | [] => if m = "wait".toList then some .wait else if m = "ack".toList then some .ack else none
  | bs => if m = "ldin".toList then some (.ldin bs) else none

/-- The registers by name (R23). -/
def registerNames : List (String × Target) :=
  [("ID", .id), ("CAPS", .caps), ("CTRL", .ctrl), ("STATUS", .status), ("CMD", .cmd), ("LASTCMD", .lastCmd),
    ("REMAIN", .remain), ("SYMCOUNT", .symCount), ("ERRINFO", .errInfo), ("IN_PTR", .inPtr), ("IN_LIMIT", .inLimit),
    ("OUT_PTR", .outPtr), ("ACC", .acc), ("BITCOUNT", .bitCount), ("ROOT", .root)]

/-- The fields by register and name, each with its lowest bit and its width (R24, R25, R27, R36). -/
def fieldNames : List (String × String × Target × Nat × Nat) :=
  [("CAPS", "TREE", .caps, 0, 1), ("CAPS", "LMAX", .caps, 8, 8), ("CAPS", "IN_KIB", .caps, 16, 8),
    ("CAPS", "OUT_KIB", .caps, 24, 8), ("CTRL", "IRQ_EN", .ctrl, 0, 1), ("CTRL", "SRST", .ctrl, 1, 1),
    ("STATUS", "BUSY", .status, 0, 1), ("STATUS", "DONE", .status, 1, 1), ("STATUS", "ERR", .status, 2, 1),
    ("STATUS", "DROP", .status, 3, 1), ("STATUS", "ERRCODE", .status, 4, 4), ("ACC", "ACC_BITS", .acc, 0, 8),
    ("ACC", "ACC_N", .acc, 8, 3)]

/-- A register or a field by its name; a field with or without its register's name and a dot before it. -/
def parseName (m : List Char) : Option Element :=
  match registerNames.find? fun r => r.1.toList = m with
  | some r => some (.field r.2 0 32)
  | none =>
    match fieldNames.find? fun f => f.2.1.toList = m ∨ f.1.toList ++ '.' :: f.2.1.toList = m with
    | some f => some (.field f.2.2.1 f.2.2.2.1 f.2.2.2.2)
    | none =>
      if m = "ROOT_SNAP".toList then some .rootSnap else if m = "IRQ".toList then some .irq else none

/-- A memory element: the name of its memory, its index, and what follows the index (R22). -/
def parseIndexed (m : List Char) (i : Nat) (rest : List (List Char)) : Option Element :=
  if m = "CT".toList then
    if rest = [".LEN".toList] then some (.ctLen i) else if rest = [".CODE".toList] then some (.ctCode i) else none
  else if rest ≠ [] then none
  else if m = "ARENA".toList then some (.arena i)
  else if m = "IN".toList then some (.inByte i)
  else if m = "OUT".toList then some (.outByte i)
  else none

/-- The X of `expect X = V`. -/
def parseElement : List (List Char) → Option Element
  | [m] => parseName m
  | m :: b :: i :: e :: rest => if b = ['['] ∧ e = [']'] then (parseNumber i).bind fun n => parseIndexed m n rest else none
  | _ => none

/-- `expect X = V` after its first word; `none` for any other form (R93). -/
def parseExpect (ws : List (List Char)) : Option HostStmt :=
  match ws.splitOn ['='] with
  | [x, [v]] => (parseElement x).bind fun e => (parseNumber v).map (.expect e)
  | _ => none

/-- A statement of R93; `none` for any other line, which has no meaning (R180). -/
def parseStatement : List (List Char) → Option HostStmt
  | [] => none
  | m :: ws =>
    if m = "run".toList then (parseCommand ws).map .run
    else if m = "expect".toList then parseExpect ws
    else (ws.mapM parseNumber).bind (parseNumeric m)

/-- One line of a command listing: the words its command assembles to, or `none` if the assembler rejects it (R91).
A `;` begins a comment, and a line with no command on it, empty or a comment only, is rejected too: the model's choice
(assumption 12). -/
def assembleLine (line : String) : Option (List Word) :=
  ((parseCommand ((lineParts line).headD [])).bind AsmCmd.assemble).map fun is => is.map encode

/-- The first words of R93's statements that stand for other port accesses, which a listing may spell out after a `;`. -/
def expandedWords : List (List Char) := ["run", "ack", "setcode", "setnode", "ldin"].map String.toList

/-- The first words of the other statements of R93. -/
def singleWords : List (List Char) := ["wr", "rd", "wait", "expect"].map String.toList

/-- What follows a `;` after a statement whose first word is `m` is a further statement, and not a comment: it begins
with a statement's word, and it does not spell out with `wr` or `wait` the accesses `m` stands for (assumption 12). -/
def continues (m : List Char) (part : List (List Char)) : Bool :=
  match part with
  | [] => false
  | w :: _ =>
    if m ∈ expandedWords ∧ (w = "wr".toList ∨ w = "wait".toList) then false
    else decide (w ∈ expandedWords) || decide (w ∈ singleWords)

/-- The statements among the parts that follow a statement whose first word is `m`: all up to the comment. -/
def furtherStatements (m : List Char) : List (List (List Char)) → List (List (List Char))
  | [] => []
  | part :: parts => if continues m part then part :: furtherStatements (part.headD []) parts else []

/-- The statements of a line; a line that is empty or begins with `;` has none. -/
def lineStatements (line : String) : List (List (List Char)) :=
  match lineParts line with
  | [] | [] :: _ => []
  | part :: parts => part :: furtherStatements (part.headD []) parts

/-- The statements of a host program. -/
def parseProgram (lines : List String) : Option (List HostStmt) := (lines.flatMap lineStatements).mapM parseStatement

/-- Load a host program given as text; a line outside R93 is refused by name (R180). -/
def loadText (lines : List String) (s : State) : Host.Outcome State Fault Refusal :=
  match parseProgram lines with
  | some p => loadProgram p s
  | none => .refused .hostStatement

end Sys2Proof.Machine
end

