-- ==== Sys2Proof/Safety.lean ====
section
/-!
DEFINITION. The terms claims are stated in: the invariant of the machine, the named states of spec
70_reset_and_hazards.md R201 and R203, the output stream of 41_pack.md R120, the properties of a code table
(40_code_table.md R104), trees and the arena that holds one (10_state.md R43), and what a command may write.
-/

namespace Sys2Proof.Machine

/-- The invariant of the machine: what the rules say of every state the machine can be in. -/
structure State.Inv (s : State) : Prop where
  /-- BUSY = 1 implies ERR = 0 and DONE = 0 (R27). -/
  busyClean : s.busy = true → s.err = false ∧ s.done = false
  /-- DONE and ERR are never both 1 (R27). -/
  notDoneAndErr : ¬(s.done = true ∧ s.err = true)
  /-- ERRCODE is 0 whenever ERR is (R27). -/
  codeClear : s.err = false → s.errCode = 0#4
  /-- Error codes 7 to 15 are never written (R161). -/
  codeRange : s.err = true → 1 ≤ s.errCode.toNat ∧ s.errCode.toNat ≤ 6
  /-- ACC_BITS is 0 below its pending bits (R36). -/
  accLow : s.accBits &&& accMask s.accN = s.accBits
  /-- A command that runs is legal (R26). -/
  runsLegal : s.busy = true → legal s.hasTree s.lastCmd = true
  /-- While a command runs, SYMCOUNT and REMAIN add up to its units (R30, R31). -/
  progress : s.busy = true → s.symCount.toNat + s.remain.toNat = (units s.lastCmd).toNat
  /-- Without a tree engine, ROOT and ROOT_SNAP are 0 and the arena holds nothing (R12, R26, R38, R44). -/
  noTree : s.hasTree = false → s.root = 0#9 ∧ s.rootSnap = 0#9 ∧ s.arena = []
  /-- Every memory is in its canonical form (assumption 4). -/
  memories : ∀ sp, (s.space sp).wf sp.unlisted sp.size sp.mask
  /-- While the reset input is asserted nothing runs and no flag is set (R190). -/
  quietInReset : s.inReset = true → s.busy = false ∧ s.done = false ∧ s.err = false ∧ s.drop = false
  /-- BUSY stays 0 from a read of STATUS that returned it as 0 to the next write of CMD (R26, R201). -/
  seenIdle : s.idleSeen = true → s.busy = false

/-- The launch premise `Clean`: `STATUS = 0`, so no command is in flight and no error is recorded (R203). -/
def State.Clean (s : State) : Prop := s.statusWord = 0#32 ∧ s.inReset = false

/-- The end of a run: the host has done its last statement, and a read of STATUS, with no write of CMD after it,
returned `BUSY = 0` (R201, assumption 18). -/
def State.Finished (s : State) : Prop := s.inputs = [] ∧ s.busy = false ∧ s.idleSeen = true

/-- The program's `expect` statements are true of the run that starts in `s` with the program's accesses as its inputs:
each of them in every state between the accesses it stands between (R93). -/
def ExpectationsHold (p : List HostStmt) (s : State) : Prop :=
  ∀ xs, expandProgram p = some xs → ∀ e ∈ expectations 0 p, ∀ k t,
    Host.Core.run core k { s with inputs := xs } = .next t → t.inputs.length + e.after = xs.length → t.meets e

/-- A state in which the engine moves next and has a unit of its command to do (R66). -/
def State.AtUnit (s : State) : Prop := s.busy = true ∧ s.remain ≠ 0#27

/-- A state in which a host write to CMD is accepted (R26). -/
def State.Accepting (s : State) : Prop := s.busy = false ∧ s.err = false ∧ s.inReset = false

/-- The host addresses of the engine-owned registers and windows, by the Owned column of R23's table (R62). -/
def EngineOwned (a : Addr) : Prop :=
  (0x0024 ≤ a.toNat ∧ a.toNat < 0x003C) ∨ (0x1000 ≤ a.toNat ∧ a.toNat < 0x5800) ∨ 0x8000 ≤ a.toNat

/-- An input that resets the HBPU: the reset input asserted, or a write of CTRL with SRST = 1 (R190, R191). -/
def Input.resets : Input → Prop
  | .resetAssert => True
  | .write a d => target a = .ctrl ∧ d.getLsbD 1 = true
  | .read _ | .wait | .resetRelease => False

/-- How many of the next `k` turns are the engine's while a command runs: the engine's turns among the first `k` of
`turns`, and every turn after they are used up (assumption 5). -/
def State.engineTurns (s : State) (k : Nat) : Nat := (s.turns.take k).count .engine + (k - s.turns.length)

/-- The output stream from byte `o` on: the bytes `OUT[o .. OUT_PTR−1]`, most significant bit first, then the pending
bits of ACC (R120). -/
def State.outStream (s : State) (o : Nat) : Bits :=
  (s.bytes .outBuf o (s.outPtr.toNat - o)).flatMap (fun b => bitsOf 8 b.toNat) ++ s.pendingBits

/-- The complete bytes that `k` more bits make of the pending bits (R65). -/
def State.bytesDue (s : State) (k : Nat) : Nat := (s.accN.toNat + k) / 8

/-- OUT has room for the bytes that `k` more bits complete; with no complete byte there is no check (R65). -/
def State.Room (s : State) (k : Nat) : Prop :=
  s.bytesDue k = 0 ∨ s.outPtr.toNat + s.bytesDue k ≤ Config.outSize

/-- What an Emit of the bit string `w` leaves of the output stream (R65): `w` is appended, OUT_PTR, ACC and BITCOUNT
count it, and no byte of OUT changes but the ones completed. -/
structure Appended (s t : State) (w : Bits) : Prop where
  stream : ∀ o, o ≤ s.outPtr.toNat → t.outStream o = s.outStream o ++ w
  outPtr : t.outPtr = s.outPtr + BitVec.ofNat 16 (s.bytesDue w.length)
  accN : t.accN.toNat = (s.accN.toNat + w.length) % 8
  accLow : t.accBits &&& accMask t.accN = t.accBits
  bitCount : t.bitCount = s.bitCount + BitVec.ofNat 32 w.length
  bytes : ∀ a, a < s.outPtr.toNat ∨ s.outPtr.toNat + s.bytesDue w.length ≤ a →
    t.byte .outBuf a = s.byte .outBuf a

/-- Everything is unchanged but the flags BUSY, DONE, ERR, ERRCODE, the registers ERRINFO, REMAIN and SYMCOUNT, the
stream registers, and the memories CT and OUT: what every step of a running command leaves alone (R66). -/
structure KeepsOutside (s t : State) : Prop where
  hasTree : t.hasTree = s.hasTree
  irqEn : t.irqEn = s.irqEn
  drop : t.drop = s.drop
  lastCmd : t.lastCmd = s.lastCmd
  inLimit : t.inLimit = s.inLimit
  root : t.root = s.root
  rootSnap : t.rootSnap = s.rootSnap
  arena : t.arena = s.arena
  inBuf : t.inBuf = s.inBuf
  inReset : t.inReset = s.inReset
  epoch : t.epoch = s.epoch
  inputs : t.inputs = s.inputs
  turns : t.turns = s.turns
  replies : t.replies = s.replies
  idleSeen : t.idleSeen = s.idleSeen

/-- The code table is unchanged, entry by entry. -/
def KeepsTable (s t : State) : Prop := t.ctLen = s.ctLen ∧ t.ctCode = s.ctCode

/-- The output side is unchanged: OUT, OUT_PTR, ACC and BITCOUNT. -/
def KeepsOutput (s t : State) : Prop :=
  t.outBuf = s.outBuf ∧ t.outPtr = s.outPtr ∧ t.accN = s.accN ∧ t.accBits = s.accBits ∧ t.bitCount = s.bitCount

/-- The flags and counters after a unit that commits: SYMCOUNT and REMAIN move by one and no flag changes (R66). -/
structure Committed (s t : State) : Prop where
  symCount : t.symCount = s.symCount + 1#27
  remain : t.remain = s.remain - 1#27
  busy : t.busy = s.busy
  done : t.done = s.done
  err : t.err = s.err
  errCode : t.errCode = s.errCode
  errInfo : t.errInfo = s.errInfo

/-- The input bits from bit index `p` on are the string `w`, each of them below the limit (R63, R64). -/
def State.InputIs (s : State) (p : Nat) (w : Bits) : Prop :=
  ∀ j, (h : j < w.length) → p + j < 8 * s.effLimit ∧ s.inBit (p + j) = w[j]

/-- The table is prefix-free: no code is a prefix of another symbol's code (R19, R104). -/
def State.PrefixFree (s : State) : Prop :=
  ∀ a b, a < Config.nSym → b < Config.nSym → a ≠ b → s.len a ≠ 0#8 → s.len b ≠ 0#8 →
    ¬(s.codeBits a <+: s.codeBits b)

/-- A binary tree over symbols; the left child is reached by bit 0 and the right by bit 1 (R43). -/
inductive CodeTree where
  | leaf (sym : Byte)
  | node (left right : CodeTree)
  deriving DecidableEq, Repr

/-- The symbols of the leaves, left to right. -/
def CodeTree.symbols : CodeTree → List Byte
  | .leaf sym => [sym]
  | .node l r => l.symbols ++ r.symbols

/-- The depth of the deepest leaf. -/
def CodeTree.depth : CodeTree → Nat
  | .leaf _ => 0
  | .node l r => max l.depth r.depth + 1

/-- Each leaf's symbol with the path to it. -/
def CodeTree.paths : CodeTree → List (Byte × Bits)
  | .leaf sym => [(sym, [])]
  | .node l r =>
    l.paths.map (fun x => (x.1, false :: x.2)) ++ r.paths.map (fun x => (x.1, true :: x.2))

/-- Each leaf's symbol with its code: the path, or "0" for a tree that is one leaf (R102). -/
def CodeTree.codes : CodeTree → List (Byte × Bits)
  | .leaf sym => [(sym, [false])]
  | .node l r => (CodeTree.node l r).paths

/-- The arena holds the tree at node index `i`, every node valid (R43, R103). -/
def State.HoldsTree (s : State) : Nat → CodeTree → Prop
  | i, .leaf sym =>
    i < Config.arenaNodes ∧ nodeIsLeaf (s.node i) = true ∧ leafClear (s.node i) = true ∧ nodeSym (s.node i) = sym.toNat
  | i, .node l r =>
    i < Config.arenaNodes ∧ nodeIsLeaf (s.node i) = false ∧ internalClear (s.node i) = true ∧
      s.HoldsTree (nodeLeft (s.node i)) l ∧ s.HoldsTree (nodeRight (s.node i)) r

/-- The walk from node `i` by the bits `w` passes valid internal nodes and ends at node `j` (R142). -/
inductive State.Path (s : State) : Nat → Bits → Nat → Prop where
  | here (i : Nat) : State.Path s i [] i
  | down (i : Nat) (b : Bool) (w : Bits) (j : Nat) : i < Config.arenaNodes → nodeIsLeaf (s.node i) = false →
      internalClear (s.node i) = true →
      State.Path s (if b then nodeRight (s.node i) else nodeLeft (s.node i)) w j → State.Path s i (b :: w) j

/-- `Visit` from node `i` at depth `d`, with the symbols of `seen` already reached, fails first, left before right, at
node `j` for the reason `subcode` of BAD_TREE: 1 an index outside the arena, 2 an internal node at depth 255, 3 a symbol
reached twice, 4 a reserved bit (R102, R103). -/
inductive State.FirstBad (s : State) : Nat → Nat → List Byte → Nat → Nat → Prop
  | outside {i d : Nat} {seen : List Byte} : Config.arenaNodes ≤ i → State.FirstBad s i d seen 1 i
  | reservedLeaf {i d : Nat} {seen : List Byte} : i < Config.arenaNodes → nodeIsLeaf (s.node i) = true →
      leafClear (s.node i) = false → State.FirstBad s i d seen 4 i
  | twice {i d : Nat} {seen : List Byte} : i < Config.arenaNodes → nodeIsLeaf (s.node i) = true →
      leafClear (s.node i) = true → BitVec.ofNat 8 (nodeSym (s.node i)) ∈ seen → State.FirstBad s i d seen 3 i
  | reservedInternal {i d : Nat} {seen : List Byte} : i < Config.arenaNodes → nodeIsLeaf (s.node i) = false →
      internalClear (s.node i) = false → State.FirstBad s i d seen 4 i
  | tooDeep {i : Nat} {seen : List Byte} : i < Config.arenaNodes → nodeIsLeaf (s.node i) = false →
      internalClear (s.node i) = true → State.FirstBad s i 255 seen 2 i
  | left {i d : Nat} {seen : List Byte} {subcode j : Nat} : d < 255 → i < Config.arenaNodes →
      nodeIsLeaf (s.node i) = false → internalClear (s.node i) = true →
      State.FirstBad s (nodeLeft (s.node i)) (d + 1) seen subcode j → State.FirstBad s i d seen subcode j
  | right {i d : Nat} {seen : List Byte} {L : CodeTree} {subcode j : Nat} : d < 255 → i < Config.arenaNodes →
      nodeIsLeaf (s.node i) = false → internalClear (s.node i) = true → s.HoldsTree (nodeLeft (s.node i)) L →
      d + 1 + L.depth ≤ 255 → (seen ++ L.symbols).Nodup →
      State.FirstBad s (nodeRight (s.node i)) (d + 1) (seen ++ L.symbols) subcode j → State.FirstBad s i d seen subcode j

/-- Every register, every LEN and ROOT_SNAP hold their reset value (R192). -/
structure State.RegistersReset (s : State) : Prop where
  ctrl : s.irqEn = false
  status : s.busy = false ∧ s.done = false ∧ s.err = false ∧ s.drop = false ∧ s.errCode = 0#4
  command : s.lastCmd = 0#32 ∧ s.remain = 0#27 ∧ s.symCount = 0#27 ∧ s.errInfo = 0#32
  stream : s.inPtr = 0#18 ∧ s.inLimit = 0#16 ∧ s.outPtr = 0#16 ∧ s.accBits = 0#8 ∧ s.accN = 0#3 ∧ s.bitCount = 0#32
  root : s.root = 0#9 ∧ s.rootSnap = 0#9
  lens : ∀ sym, s.len sym = 0#8

/-- The state after an error is taken in `s`: ERR, ERRCODE and ERRINFO are set, BUSY is cleared, and everything else
is what it was (R66, R160, R170). -/
def State.AfterError (s : State) (code : BitVec 4) (info : Word) : State :=
  { s with busy := false, err := true, errCode := code, errInfo := info }

/-- What a decoder needs to see alike in two states: the table, the arena, the draws and the walk's root. -/
def SameCodes (s t : State) : Prop :=
  t.ctLen = s.ctLen ∧ t.ctCode = s.ctCode ∧ t.arena = s.arena ∧ t.epoch = s.epoch ∧ t.rootSnap = s.rootSnap

/-- The literal bits a PUTBITS appends (R121). -/
def literalBits : Instr → Bits
  | .putbits n value => bitsOf n.toNat value.toNat
  | .nop | .putsym _ | .packbuf _ | .flush | .unpack _ | .alignin | .clrct | .assign | .unpackt _ => []

/-- The input byte at IN_PTR, the symbol a PACKBUF unit packs (R123). -/
def State.nextSymbol (s : State) : Nat := val ((List.range 8).map fun j => s.inBit (s.inPtr.toNat + j))

/-- How many bytes of OUT, from OUT_PTR up, one unit of the command writes if it commits (R65, R121 to R124, R141,
R143). -/
def State.storedBytes (s : State) : Instr → Nat
  | .putbits n _ => s.bytesDue n.toNat
  | .putsym sym => s.bytesDue (s.len sym.toNat).toNat
  | .packbuf _ => s.bytesDue (s.len s.nextSymbol).toNat
  | .flush => if s.accN = 0#3 then 0 else 1
  | .unpack _ | .unpackt _ => s.bytesDue 8
  | .nop | .alignin | .clrct | .assign => 0

/-- The codes of a list of symbols, one after another (R125, R145). -/
def State.codesOf (s : State) (xs : List Byte) : Bits := xs.flatMap fun x => s.codeBits x.toNat

/-- Symbols as the decoded bytes they are emitted as (R141). -/
def symbolBits (xs : List Byte) : Bits := xs.flatMap fun x => bitsOf 8 x.toNat

end Sys2Proof.Machine
end

