-- ==== Sys2Proof/Certificates/Slice0/Obligations.lean ====
section
/-!
DEFINITION. The statements for the provers, in the order of OBLIGATIONS.json. Each docstring names the rules of spec/
it formalises.
-/

open Sys2Proof
open Sys2Proof.Machine

/-! ### Reset -/

/-- R190, R192: asserting and releasing the hardware reset input in any state with `HAS_TREE = 1` gives State.reset,
but for the model's own fields (epoch 0, empty `inputs`, `turns` and `replies`, `idleSeen` false: assumptions 2, 5 and
18). -/
def Obligations.ResetStateIsTheHardwareResetState : Prop :=
  ∀ s : State, s.hasTree = true →
    { (s.perform .resetAssert).perform .resetRelease with
      epoch := 0
      inputs := []
      turns := []
      replies := []
      idleSeen := false } = State.reset

/-- R190: asserting the hardware reset input resets every register, LEN and ROOT_SNAP at once, abandons a running
command with no DONE and no ERR, and makes CODE, ARENA, IN and OUT unspecified (the next epoch's draws: the model's
choice, assumption 2; drawn again at a second assertion with no release before it: its choice, assumption 10); while it
is asserted host writes have no effect and reads return 0 (those of CMD, STATUS, CTRL, ID and CAPS too: the model's
reading, assumption 17); after it is released the HBPU is idle. -/
def Obligations.HardwareResetActsAtOnce : Prop :=
  ∀ s : State,
    (s.perform .resetAssert).RegistersReset ∧
    (∀ sp a, sp ≠ .ctLen → (s.perform .resetAssert).byte sp a = sp.fresh (s.epoch + 1) a) ∧
    (∀ a, (s.perform .resetAssert).hostRead a = 0#32) ∧
    (∀ a d, (s.perform .resetAssert).hostWrite a d = s.perform .resetAssert) ∧
    ((s.perform .resetAssert).perform .resetRelease).RegistersReset ∧
    ((s.perform .resetAssert).perform .resetRelease).inReset = false

/-- R191: a write of CTRL with SRST = 1, at any time, resets every register, LEN and ROOT_SNAP, keeps CODE, ARENA, IN
and OUT, and the next host access sees it. -/
def Obligations.SoftResetKeepsTheMemories : Prop :=
  ∀ (s : State) (a : Addr) (d : Word), s.inReset = false → target a = .ctrl → d.getLsbD 1 = true →
    (s.hostWrite a d).RegistersReset ∧
    (∀ sp b, sp ≠ .ctLen → (s.hostWrite a d).byte sp b = s.byte sp b) ∧
    (∀ b, target b = .ctrl ∨ target b = .status → (s.hostWrite a d).hostRead b = 0#32)

/-! ### Registers and the host port -/

/-- R23, R41, R44, R45, R46, R60: the address map, with address bits [1:0] ignored. -/
def Obligations.AddressMapIsTheTable : Prop :=
  (∀ a : Addr, target (a &&& 0xFFFC#16) = target a) ∧
  [0x0000#16, 0x0004#16, 0x0008#16, 0x000C#16, 0x0010#16, 0x0014#16, 0x0018#16, 0x001C#16, 0x0020#16, 0x0024#16,
    0x0028#16, 0x002C#16, 0x0030#16, 0x0034#16, 0x0038#16].map target =
    [.id, .caps, .ctrl, .status, .cmd, .lastCmd, .remain, .symCount, .errInfo, .inPtr, .inLimit, .outPtr, .acc,
      .bitCount, .root] ∧
  (∀ a : Addr, 0x003C ≤ a.toNat → a.toNat < 0x1000 → target a = .reserved) ∧
  (∀ sym, sym < 256 → target (BitVec.ofNat 16 (0x1000 + 64 * sym)) = .ctLen sym) ∧
  (∀ sym j, sym < 256 → j < 8 → target (BitVec.ofNat 16 (0x1004 + 64 * sym + 4 * j)) = .ctCode sym j) ∧
  (∀ sym q, sym < 256 → 0x24 ≤ q → q < 0x40 → target (BitVec.ofNat 16 (0x1000 + 64 * sym + q)) = .ctPad) ∧
  (∀ i, i < 511 → target (BitVec.ofNat 16 (0x5000 + 4 * i)) = .arena i) ∧
  target 0x57FC#16 = .arenaPad ∧
  (∀ a : Addr, 0x5800 ≤ a.toNat → a.toNat < 0x8000 → target a = .reserved) ∧
  (∀ m, m < 4096 → target (BitVec.ofNat 16 (0x8000 + 4 * m)) = .inWord m) ∧
  (∀ m, m < 4096 → target (BitVec.ofNat 16 (0xC000 + 4 * m)) = .outWord m)

/-- R24: ID and CAPS are constants; writes to them are ignored and no reset changes them. -/
def Obligations.IdAndCapsAreConstants : Prop :=
  ∀ s : State, s.inReset = false →
    (∀ a, target a = .id → s.hostRead a = 0x48425055#32 ∧ ∀ d, s.hostWrite a d = s) ∧
    (∀ a, target a = .caps →
      s.hostRead a = (if s.hasTree then 0x1010FF01#32 else 0x1010FF00#32) ∧ ∀ d, s.hostWrite a d = s) ∧
    (∀ a, target a = .id ∨ target a = .caps →
      s.softReset.hostRead a = s.hostRead a ∧ s.assertReset.releaseReset.hostRead a = s.hostRead a)

/-- R25: CTRL can be written at any time; SRST = 1 is the soft reset and CTRL then reads 0; SRST = 0 sets IRQ_EN to
bit 0; CTRL reads IRQ_EN in bit 0 and 0 elsewhere. -/
def Obligations.ControlRegisterWrites : Prop :=
  ∀ (s : State) (a : Addr) (d : Word), s.inReset = false → target a = .ctrl →
    (d.getLsbD 1 = true → s.hostWrite a d = s.softReset ∧ (s.hostWrite a d).hostRead a = 0#32) ∧
    (d.getLsbD 1 = false → s.hostWrite a d = { s with irqEn := d.getLsbD 0 }) ∧
    s.hostRead a = (if s.irqEn then 1#32 else 0#32)

/-- R28: a write of STATUS clears DONE, ERR with ERRCODE, and DROP, each by its own bit, at any time, and changes
nothing else. -/
def Obligations.StatusWritesClearTheirBits : Prop :=
  ∀ (s : State) (a : Addr) (d : Word), s.inReset = false → target a = .status →
    s.hostWrite a d =
      { s with
        done := if d.getLsbD 1 then false else s.done
        err := if d.getLsbD 2 then false else s.err
        errCode := if d.getLsbD 2 then 0#4 else s.errCode
        drop := if d.getLsbD 3 then false else s.drop }

/-- R27: the fields of the word a read of STATUS returns; bits [31:8] read 0. -/
def Obligations.StatusReadsItsFields : Prop :=
  ∀ (s : State) (a : Addr), s.inReset = false → target a = .status →
    (s.hostRead a).getLsbD 0 = s.busy ∧ (s.hostRead a).getLsbD 1 = s.done ∧ (s.hostRead a).getLsbD 2 = s.err ∧
    (s.hostRead a).getLsbD 3 = s.drop ∧ (s.hostRead a).extractLsb' 4 4 = s.errCode ∧
    (s.hostRead a).extractLsb' 8 24 = 0#24

/-- R26: a write of a word to CMD is dropped while BUSY = 1 or ERR = 1; else it is accepted, and an illegal word takes
ILLEGAL_CMD while a legal one starts the engine; CMD reads as 0. -/
def Obligations.CommandWriteIsTheAcceptRule : Prop :=
  ∀ (s : State) (a : Addr) (w : Word), s.inReset = false → target a = .cmd →
    s.hostRead a = 0#32 ∧
    (s.busy = true ∨ s.err = true → s.hostWrite a w = { s with drop := true }) ∧
    (s.busy = false → s.err = false → legal s.hasTree w = false →
      s.hostWrite a w =
        { s with
          lastCmd := w
          symCount := 0#27
          done := false
          err := true
          errCode := 1#4
          errInfo := 0#32
          remain := 0#27 }) ∧
    (s.busy = false → s.err = false → legal s.hasTree w = true →
      s.hostWrite a w =
        { s with
          lastCmd := w
          symCount := 0#27
          done := false
          remain := units w
          rootSnap := if s.hasTree then s.root else 0#9
          busy := true })

/-- R36: a write of ACC stores ACC_N and the bits of ACC_BITS that are pending, so no bit below them is ever set;
ACC reads ACC_N in [10:8] and ACC_BITS in [7:0]. -/
def Obligations.AccumulatorWritesMaskTheirBits : Prop :=
  ∀ (s : State) (a : Addr) (d : Word), s.inReset = false → s.busy = false → target a = .acc →
    (s.hostWrite a d).accN = d.extractLsb' 8 3 ∧
    (∀ j, (s.hostWrite a d).accBits.getLsbD j =
      (d.getLsbD j && decide (j < 8) && decide (8 - (d.extractLsb' 8 3).toNat ≤ j))) ∧
    (s.hostWrite a d).hostRead a =
      BitVec.ofNat 32 ((s.hostWrite a d).accN.toNat * 256 + (s.hostWrite a d).accBits.toNat) ∧
    s.hostWrite a d = { s with accN := (s.hostWrite a d).accN, accBits := (s.hostWrite a d).accBits }

/-- R33, R34, R35, R37, R38: the stream registers store the bits they have, read them back with reserved bits 0, and a
write of one changes nothing else; ROOT is RAZ/WI if `HAS_TREE = 0`. -/
def Obligations.StreamRegistersReadBack : Prop :=
  ∀ (s : State) (a : Addr) (d : Word), s.inReset = false → s.busy = false →
    (target a = .inPtr → s.hostWrite a d = { s with inPtr := d.setWidth 18 } ∧
      (s.hostWrite a d).hostRead a = d &&& 0x0003FFFF#32) ∧
    (target a = .inLimit → s.hostWrite a d = { s with inLimit := d.setWidth 16 } ∧
      (s.hostWrite a d).hostRead a = d &&& 0x0000FFFF#32) ∧
    (target a = .outPtr → s.hostWrite a d = { s with outPtr := d.setWidth 16 } ∧
      (s.hostWrite a d).hostRead a = d &&& 0x0000FFFF#32) ∧
    (target a = .bitCount → s.hostWrite a d = { s with bitCount := d } ∧ (s.hostWrite a d).hostRead a = d) ∧
    (target a = .root → s.hasTree = true → s.hostWrite a d = { s with root := d.setWidth 9 } ∧
      (s.hostWrite a d).hostRead a = d &&& 0x000001FF#32) ∧
    (target a = .root → s.hasTree = false → s.hostWrite a d = s ∧ s.hostRead a = 0#32)

/-- R23, R29 to R32, R61: a write to a read-only register or to a reserved address is ignored, at any time, and does not
set DROP; reserved addresses read 0; whether a command runs or not LASTCMD and ERRINFO read their 32 bits, and REMAIN and
SYMCOUNT their 27 bits below five bits that read 0. -/
def Obligations.ReadOnlyAndReservedIgnoreWrites : Prop :=
  ∀ (s : State) (a : Addr) (d : Word),
    (target a = .id ∨ target a = .caps ∨ target a = .lastCmd ∨ target a = .remain ∨ target a = .symCount ∨
      target a = .errInfo ∨ target a = .reserved → s.hostWrite a d = s) ∧
    (target a = .reserved → s.hostRead a = 0#32) ∧
    (s.inReset = false →
      (target a = .lastCmd → s.hostRead a = s.lastCmd) ∧
      (target a = .remain → s.hostRead a = BitVec.ofNat 32 s.remain.toNat) ∧
      (target a = .symCount → s.hostRead a = BitVec.ofNat 32 s.symCount.toNat) ∧
      (target a = .errInfo → s.hostRead a = s.errInfo))

/-- R62, with the owned addresses of R23's table: while BUSY = 1 a write to an engine-owned resource only sets DROP, a
read of a window returns 0, and a read of every register returns its current value, here given for the engine-owned ones
(ROOT reads 0 if `HAS_TREE = 0`); while BUSY = 0 every resource is accessible, including while ERR = 1. (With
`HAS_TREE = 0` DROP is set too: the model's reading, assumption 9.) -/
def Obligations.EngineOwnedResourcesWhileBusy : Prop :=
  ∀ (s : State) (a : Addr) (d : Word), s.inReset = false →
    (s.busy = true →
      (EngineOwned a → s.hostWrite a d = { s with drop := true }) ∧
      (0x1000 ≤ a.toNat ∧ a.toNat < 0x5800 ∨ 0x8000 ≤ a.toNat → s.hostRead a = 0#32) ∧
      (a.toNat < 0x1000 ∨ 0x5800 ≤ a.toNat ∧ a.toNat < 0x8000 → s.hostRead a = s.readTarget (target a)) ∧
      (target a = .inPtr → s.hostRead a = BitVec.ofNat 32 s.inPtr.toNat) ∧
      (target a = .inLimit → s.hostRead a = BitVec.ofNat 32 s.inLimit.toNat) ∧
      (target a = .outPtr → s.hostRead a = BitVec.ofNat 32 s.outPtr.toNat) ∧
      (target a = .acc → s.hostRead a = BitVec.ofNat 32 (s.accN.toNat * 256 + s.accBits.toNat)) ∧
      (target a = .bitCount → s.hostRead a = s.bitCount) ∧
      (target a = .root → s.hostRead a = if s.hasTree then BitVec.ofNat 32 s.root.toNat else 0#32)) ∧
    (s.busy = false → s.hostWrite a d = s.writeTarget (target a) d ∧ s.hostRead a = s.readTarget (target a))

/-- R41, R44, R45, R46, R61, R67: while idle, a window word reads back what was written to it, within the bits that
exist, and it is the element the engine uses: byte `4m + j` of IN and of OUT is bits [8j+7:8j] of window word `m`,
CODE word `j` is bits [32j+31:32j] of CODE (31 bits at `j = 7`), and ARENA word `i` is node word `i`; the padding words,
and the ARENA window if `HAS_TREE = 0`, are RAZ/WI. -/
def Obligations.WindowWordsReadBack : Prop :=
  ∀ (s : State) (a : Addr) (d : Word), s.inReset = false → s.busy = false →
    (∀ m, target a = .inWord m ∨ target a = .outWord m → (s.hostWrite a d).hostRead a = d) ∧
    (∀ m j, target a = .inWord m → j < 4 → (s.hostWrite a d).byte .inBuf (4 * m + j) = d.extractLsb' (8 * j) 8) ∧
    (∀ m j, target a = .outWord m → j < 4 → (s.hostWrite a d).byte .outBuf (4 * m + j) = d.extractLsb' (8 * j) 8) ∧
    (∀ i, target a = .arena i → s.hasTree = true →
      (s.hostWrite a d).hostRead a = d ∧ (s.hostWrite a d).node i = d) ∧
    (∀ i, target a = .arena i → s.hasTree = false → s.hostWrite a d = s ∧ s.hostRead a = 0#32) ∧
    (∀ sym, target a = .ctLen sym → (s.hostWrite a d).hostRead a = d &&& 0x000000FF#32 ∧
      (s.hostWrite a d).len sym = d.setWidth 8) ∧
    (∀ sym j, target a = .ctCode sym j → j < 7 → (s.hostWrite a d).hostRead a = d ∧
      ((s.hostWrite a d).code sym).extractLsb' (32 * j) 32 = d) ∧
    (∀ sym, target a = .ctCode sym 7 → (s.hostWrite a d).hostRead a = d &&& 0x7FFFFFFF#32 ∧
      ((s.hostWrite a d).code sym).extractLsb' 224 31 = d.extractLsb' 0 31) ∧
    (target a = .ctPad ∨ target a = .arenaPad → s.hostWrite a d = s ∧ s.hostRead a = 0#32)

/-- R41, R61, R73: a write to a window word changes no register and no other word. -/
def Obligations.WindowWritesAreLocal : Prop :=
  ∀ (s : State) (a b : Addr) (d : Word), s.inReset = false → s.busy = false → (target a).isWindow = true →
    target b ≠ target a → (s.hostWrite a d).hostRead b = s.hostRead b

/-- R50: IRQ is a level, a function of IRQ_EN, DONE and ERR alone, with no latch. -/
def Obligations.InterruptIsALevel : Prop :=
  (∀ s : State, s.irq = true ↔ s.irqEn = true ∧ (s.done = true ∨ s.err = true)) ∧
  (∀ s t : State, t.irqEn = s.irqEn → t.done = s.done → t.err = s.err → t.irq = s.irq)

/-- R47, R62, R76: no host access but a soft reset can change what a running command uses or has done. -/
def Obligations.HostCannotDisturbARunningCommand : Prop :=
  ∀ (s : State) (x : Input), s.busy = true → s.inReset = false →
    (x = .wait ∨ (∃ a, x = .read a) ∨ ∃ a d, x = .write a d ∧ ¬(target a = .ctrl ∧ d.getLsbD 1 = true)) →
    (∀ sp, (s.perform x).space sp = s.space sp) ∧ (s.perform x).busy = true ∧
    (s.perform x).lastCmd = s.lastCmd ∧ (s.perform x).remain = s.remain ∧ (s.perform x).symCount = s.symCount ∧
    (s.perform x).errInfo = s.errInfo ∧ (s.perform x).inPtr = s.inPtr ∧ (s.perform x).inLimit = s.inLimit ∧
    (s.perform x).outPtr = s.outPtr ∧ (s.perform x).accN = s.accN ∧ (s.perform x).accBits = s.accBits ∧
    (s.perform x).bitCount = s.bitCount ∧ (s.perform x).root = s.root ∧ (s.perform x).rootSnap = s.rootSnap ∧
    (s.perform x).epoch = s.epoch ∧ (s.perform x).hasTree = s.hasTree

/-! ### Encoding -/

/-- R81 to R86, R90: decoding the encoding of any instruction gives it back, every operand at every value. -/
def Obligations.DecodeOfEncodeIsTheInstruction : Prop := ∀ i : Instr, decode (encode i) = .ok i

/-- R82 to R86, R89: a word that decodes is the encoding of what it decodes to, so no bit of it is ignored. -/
def Obligations.EncodeOfDecodeIsTheWord : Prop := ∀ (w : Word) (i : Instr), decode w = .ok i → encode i = w

/-- R87, over the word as a number: which words are legal, and that an illegal one raises ILLEGAL_CMD at accept. -/
def Obligations.LegalWordsAreTheseWords : Prop :=
  (∀ (b : Bool) (w : Word),
    legal b w = true ↔
      (w.toNat / 2 ^ 27 ∈ [0x00, 0x04, 0x06, 0x07] ∧ w.toNat % 2 ^ 27 = 0) ∨
      (w.toNat / 2 ^ 27 = 0x01 ∧ w.toNat / 2 ^ 21 % 2 ^ 6 = 0 ∧ 1 ≤ w.toNat / 2 ^ 16 % 2 ^ 5 ∧
        w.toNat / 2 ^ 16 % 2 ^ 5 ≤ 16 ∧ w.toNat % 2 ^ 16 < 2 ^ (w.toNat / 2 ^ 16 % 2 ^ 5)) ∨
      (w.toNat / 2 ^ 27 = 0x02 ∧ w.toNat / 2 ^ 8 % 2 ^ 19 = 0) ∨
      w.toNat / 2 ^ 27 = 0x03 ∨ w.toNat / 2 ^ 27 = 0x05 ∨
      (w.toNat / 2 ^ 27 = 0x08 ∧ b = true ∧ w.toNat % 2 ^ 27 = 0) ∨
      (w.toNat / 2 ^ 27 = 0x09 ∧ b = true)) ∧
  (∀ (s : State) (w : Word), s.Accepting → legal s.hasTree w = false →
    (s.hostWrite cmdAddr w).err = true ∧ (s.hostWrite cmdAddr w).errCode = 1#4)

/-- R87, R90: the two stages of decoding agree with `legal(w)`. -/
def Obligations.LegalMeansDecodedAndLegal : Prop :=
  ∀ (b : Bool) (w : Word), legal b w = true ↔ ∃ i, decode w = .ok i ∧ i.isLegal b = true

/-- R91: words written out from the formats decode to the instructions they stand for, and reserved ones to none. -/
def Obligations.SampleWordsDecode : Prop :=
  decode 0x00000000#32 = .ok .nop ∧ decode 0x08030005#32 = .ok (.putbits 3#5 5#16) ∧
  decode 0x10000062#32 = .ok (.putsym 0x62#8) ∧ decode 0x18000006#32 = .ok (.packbuf 6#27) ∧
  decode 0x20000000#32 = .ok .flush ∧ decode 0x28000007#32 = .ok (.unpack 7#27) ∧
  decode 0x30000000#32 = .ok .alignin ∧ decode 0x38000000#32 = .ok .clrct ∧ decode 0x40000000#32 = .ok .assign ∧
  decode 0x48000006#32 = .ok (.unpackt 6#27) ∧ decode 0x50000000#32 = .error (.reservedOpcode 0x0A#5) ∧
  decode 0x10000100#32 = .error (.reservedBits 0x02#5)

/-- R91: the word of each command as the assembler writes it. -/
def Obligations.EncodingsAreTheAssemblersWords : Prop :=
  encode .nop = 0x00000000#32 ∧
  (∀ (n : BitVec 5) (v : BitVec 16),
    encode (.putbits n v) = 0x08000000#32 ||| (n.setWidth 32 <<< 16) ||| v.setWidth 32) ∧
  (∀ sym : BitVec 8, encode (.putsym sym) = 0x10000000#32 ||| sym.setWidth 32) ∧
  (∀ c : BitVec 27, encode (.packbuf c) = 0x18000000#32 ||| c.setWidth 32) ∧
  encode .flush = 0x20000000#32 ∧
  (∀ c : BitVec 27, encode (.unpack c) = 0x28000000#32 ||| c.setWidth 32) ∧
  encode .alignin = 0x30000000#32 ∧ encode .clrct = 0x38000000#32 ∧ encode .assign = 0x40000000#32 ∧
  (∀ c : BitVec 27, encode (.unpackt c) = 0x48000000#32 ||| c.setWidth 32)

/-- R92: for every `n ≥ 1` and `v < 2^n` PUTCODE expands to legal PUTBITS whose bits, in order, are `bitsOf(n, v)` (n
from 1 to 16 being one PUTBITS is the model's choice: assumption 12). -/
def Obligations.PutcodeAppendsItsBits : Prop :=
  ∀ n v : Nat, 1 ≤ n → v < 2 ^ n →
    ∃ is, asmPutcode n v = some is ∧ (∀ i ∈ is, ∃ k x, i = .putbits k x ∧ i.wellFormed = true) ∧
      is.flatMap literalBits = bitsOf n v

/-! ### Steps -/

/-- R18, R29, R66: when it is the engine's turn and LASTCMD holds the word of a legal instruction, one step is `exec`
of that instruction, past the turn taken from `turns`. (That the engine moves when no turn is laid down, `turns = []`, is
the model's choice, assumption 5; R18 leaves the order open.) -/
def Obligations.StepRunsTheDecodedInstruction : Prop :=
  ∀ (s : State) (i : Instr), s.busy = true → decode s.lastCmd = .ok i → i.isLegal s.hasTree = true →
    (s.turns = [] → step s = exec i s) ∧
    (∀ ts, s.turns = .engine :: ts → step s = exec i { s with turns := ts })

/-- R18, R26: when it is the outside's turn, BUSY = 0 and its next input is the write of an instruction's word to CMD,
one step is `exec` of that instruction, past the input and the turn taken. (That the host moves when no turn is laid
down and BUSY = 0 is the model's choice, assumption 5; that `exec` at BUSY = 0 is the CMD write is its choice, assumption
6; `idleSeen` is the model's own, assumption 18.) -/
def Obligations.StepIssuesTheWrittenInstruction : Prop :=
  ∀ (s : State) (i : Instr) (rest : List Input), s.busy = false → s.inputs = .write cmdAddr (encode i) :: rest →
    (s.turns = [] → step s = exec i { s with inputs := rest, idleSeen := false }) ∧
    (∀ ts, s.turns = .host :: ts → step s = exec i { s with inputs := rest, turns := ts, idleSeen := false })

/-- R60, R69, R93, R190: a host read hands back the word and has no other effect; a write has the effect of its rule; a
`wait` is over when the STATUS it reads has BUSY = 0, and stays otherwise; asserting the reset input performs the hardware
reset, and releasing it does nothing else; with no input left the outside does nothing. (That the outside moves where no
turn is laid down and BUSY = 0 is the model's choice, assumption 5. One poll of a `wait` per host step is the model's
reading, assumption 11, and so is it that a poll while the reset input is asserted reads 0, assumption 17. The words read
are kept in `replies`, the model's own, assumption 5; `idleSeen` records what a read of STATUS and a write of CMD tell the
host, the model's own, assumption 18. The draws of the next epoch, and that a second assertion draws again, are the
model's choice, assumptions 2 and 10.) -/
def Obligations.StepPerformsTheHostAccess : Prop :=
  ∀ (s : State) (rest : List Input) (ts : List Agent),
    s.turns = .host :: ts ∨ (s.turns = [] ∧ ts = [] ∧ s.busy = false) →
    (s.inputs = [] → step s = .next { s with turns := ts }) ∧
    (∀ a, s.inputs = .read a :: rest →
      step s =
        .next { s with
          inputs := rest
          turns := ts
          replies := s.hostRead a :: s.replies
          idleSeen := if target a = .status then !(s.hostRead a).getLsbD 0 else s.idleSeen }) ∧
    (∀ a d, s.inputs = .write a d :: rest →
      step s =
        .next (State.hostWrite
          { s with inputs := rest, turns := ts, idleSeen := if target a = .cmd then false else s.idleSeen } a d)) ∧
    (s.inputs = .wait :: rest → s.inReset = false →
      step s =
        .next { s with
          inputs := if s.busy then .wait :: rest else rest
          turns := ts
          replies := s.statusWord :: s.replies
          idleSeen := !s.busy }) ∧
    (s.inputs = .wait :: rest → s.inReset = true →
      step s = .next { s with inputs := rest, turns := ts, replies := 0#32 :: s.replies, idleSeen := true }) ∧
    (s.inputs = .resetAssert :: rest →
      ∃ t, step s = .next t ∧ t = State.perform { s with inputs := rest, turns := ts } .resetAssert ∧
        t.RegistersReset ∧ (∀ sp b, sp ≠ .ctLen → t.byte sp b = sp.fresh (s.epoch + 1) b) ∧ t.inReset = true ∧
        t.epoch = s.epoch + 1 ∧ t.hasTree = s.hasTree ∧ t.inputs = rest ∧ t.turns = ts ∧ t.replies = s.replies ∧
        t.idleSeen = s.idleSeen) ∧
    (s.inputs = .resetRelease :: rest → step s = .next { s with inputs := rest, turns := ts, inReset := false })

/-- R26, R81, R162: with BUSY = 0, ERR = 0 and the reset input released, every legal instruction is accepted and starts
the engine; an illegal one takes ILLEGAL_CMD and never sets BUSY. -/
def Obligations.AcceptStartsEveryLegalInstruction : Prop :=
  ∀ (i : Instr) (s : State), s.Accepting →
    (i.isLegal s.hasTree = true →
      exec i s =
        .next { s with
          lastCmd := encode i
          symCount := 0#27
          done := false
          remain := units (encode i)
          rootSnap := if s.hasTree then s.root else 0#9
          busy := true }) ∧
    (i.isLegal s.hasTree = false →
      exec i s =
        .next { s with
          lastCmd := encode i
          symCount := 0#27
          done := false
          remain := 0#27
          err := true
          errCode := 1#4
          errInfo := 0#32 })

/-- R88: COUNT is the units of PACKBUF, UNPACK and UNPACKT, and every other command has one; a command with COUNT = 0 is
accepted, takes only the completion step, and ends with DONE = 1 and no other change. -/
def Obligations.UnitsAreCountOrOne : Prop :=
  (∀ c, units (encode (.packbuf c)) = c ∧ units (encode (.unpack c)) = c ∧ units (encode (.unpackt c)) = c) ∧
  (∀ n v, units (encode (.putbits n v)) = 1#27) ∧ (∀ a, units (encode (.putsym a)) = 1#27) ∧
  (∀ i ∈ [Instr.nop, .flush, .alignin, .clrct, .assign], units (encode i) = 1#27) ∧
  (∀ (i : Instr) (s : State), i = .packbuf 0#27 ∨ i = .unpack 0#27 ∨ i = .unpackt 0#27 → s.Accepting →
    i.isLegal s.hasTree = true → ∃ t, exec i s = .next t ∧ t.busy = true ∧
      exec i t =
        .next { s with
          lastCmd := encode i
          symCount := 0#27
          done := true
          remain := 0#27
          rootSnap := if s.hasTree then s.root else 0#9 })

/-- R66: with no unit left, the step of any command is the completion step: BUSY is cleared, DONE is set, and nothing
else changes. -/
def Obligations.CompletionStepSetsDone : Prop :=
  ∀ (i : Instr) (s : State), s.busy = true → s.remain = 0#27 →
    exec i s = .next { s with busy := false, done := true }

/-- R66, R160, R161, R169, R170: a unit either commits, moving SYMCOUNT and REMAIN by one, or fails with one of the
errors its command can raise, and then nothing but BUSY, ERR, ERRCODE and ERRINFO changes. -/
def Obligations.UnitsCommitOrFailWhole : Prop :=
  ∀ (i : Instr) (s : State), s.AtUnit →
    (∃ t, exec i s = .next t ∧ Committed s t) ∨
    (∃ code info, exec i s = .next (s.AfterError code info) ∧
      code ∈ (match i with
        | .nop | .clrct | .alignin => []
        | .putbits _ _ | .flush => [3#4]
        | .putsym _ => [2#4, 3#4]
        | .packbuf _ => [2#4, 3#4, 4#4]
        | .unpack _ => [3#4, 4#4, 5#4]
        | .assign => [6#4]
        | .unpackt _ => [3#4, 4#4, 5#4, 6#4] : List (BitVec 4)))

/-- The frame of every command while BUSY = 1, in whichever way its step ends (R100 to R102, R121 to R124, R141, R143,
R144): registers and memories its rule does not name are unchanged, and of OUT no byte changes but the ones its unit completes,
from OUT_PTR up. -/
def Obligations.CommandsChangeOnlyWhatTheirRulesName : Prop :=
  ∀ (i : Instr) (s t : State), s.busy = true → exec i s = .next t →
    KeepsOutside s t ∧
    (∀ a, a < s.outPtr.toNat ∨ s.outPtr.toNat + s.storedBytes i ≤ a → t.byte .outBuf a = s.byte .outBuf a) ∧
    (match i with
      | .nop => KeepsTable s t ∧ KeepsOutput s t ∧ t.inPtr = s.inPtr
      | .putbits _ _ | .putsym _ | .flush => KeepsTable s t ∧ t.inPtr = s.inPtr
      | .packbuf _ | .unpack _ | .unpackt _ => KeepsTable s t
      | .alignin => KeepsTable s t ∧ KeepsOutput s t
      | .clrct => t.ctCode = s.ctCode ∧ KeepsOutput s t ∧ t.inPtr = s.inPtr
      | .assign => KeepsOutput s t ∧ t.inPtr = s.inPtr)

/-! ### The units -/

/-- R100: the NOP unit commits and changes nothing else; from idle, NOP's three steps leave DONE = 1, SYMCOUNT = 1,
REMAIN = 0 and LASTCMD = 0. -/
def Obligations.NopDoesNothing : Prop :=
  (∀ s : State, s.AtUnit →
    exec .nop s = .next { s with symCount := s.symCount + 1#27, remain := s.remain - 1#27 }) ∧
  (∀ s : State, s.Accepting → ∃ t u, exec .nop s = .next t ∧ exec .nop t = .next u ∧
    exec .nop u =
      .next { s with
        lastCmd := 0#32
        symCount := 1#27
        remain := 0#27
        done := true
        rootSnap := if s.hasTree then s.root else 0#9 })

/-- R101: the CLRCT unit makes every LEN 0, keeps every CODE, and changes nothing else; PUTSYM of any symbol then
raises UNKNOWN_SYMBOL and UNPACK of any bit MALFORMED at k = 1 if the bit exists. -/
def Obligations.ClrctMarksEverySymbolAbsent : Prop :=
  ∀ s : State, s.AtUnit → ∃ t, exec .clrct s = .next t ∧ Committed s t ∧ KeepsOutside s t ∧ KeepsOutput s t ∧
    t.inPtr = s.inPtr ∧ (∀ sym, t.len sym = 0#8) ∧ (∀ sym, t.code sym = s.code sym) ∧
    (∀ u : State, u.ctLen = t.ctLen → u.AtUnit →
      (∀ sym, exec (.putsym sym) u = .next (u.AfterError 2#4 (sym.setWidth 32))) ∧
      (∀ c, u.inPtr.toNat < 8 * u.effLimit → exec (.unpack c) u = .next (u.AfterError 5#4 1#32)))

/-- R144: the ALIGNIN unit rounds IN_PTR up to a multiple of 8 modulo 2^18 and changes nothing else; an aligned IN_PTR
is unchanged and the last seven values wrap to 0. -/
def Obligations.AligninRoundsInPtrUp : Prop :=
  (∀ s : State, s.AtUnit →
    exec .alignin s =
      .next { s with
        inPtr := BitVec.ofNat 18 (8 * ((s.inPtr.toNat + 7) / 8) % 2 ^ 18)
        symCount := s.symCount + 1#27
        remain := s.remain - 1#27 }) ∧
  (∀ s t : State, s.AtUnit → exec .alignin s = .next t →
    t.inPtr.toNat % 8 = 0 ∧
    (s.inPtr.toNat % 8 = 0 → t.inPtr = s.inPtr) ∧
    (s.inPtr.toNat ≤ 262136 → s.inPtr.toNat ≤ t.inPtr.toNat ∧ t.inPtr.toNat < s.inPtr.toNat + 8) ∧
    (262137 ≤ s.inPtr.toNat → t.inPtr = 0#18))

/-- R63, R64: Fetch gives the `k` bits from bit index `p` on, each the bit `7 − (q mod 8)` of byte `IN[q div 8]`, or
IN_EXHAUSTED with `k` if one of them is at or past `8·min(IN_LIMIT, IN_SIZE)`. -/
def Obligations.FetchReadsTheInputBits : Prop :=
  ∀ (s : State) (p k : Nat), 1 ≤ k →
    (8 * min s.inLimit.toNat 16384 < p + k → s.fetch p k = .error ⟨.inExhausted, BitVec.ofNat 32 k⟩) ∧
    (p + k ≤ 8 * min s.inLimit.toNat 16384 → ∃ w, s.fetch p k = .ok w ∧ w.length = k ∧
      ∀ j, (h : j < w.length) → w[j] = (s.byte .inBuf ((p + j) / 8)).getLsbD (7 - (p + j) % 8))

/-- R65: Emit appends its bits to the output stream and counts them, or raises OUT_OVERFLOW with the bytes due; with
`k = 0` it changes nothing, wherever ACC's invariant (R36) holds. -/
def Obligations.EmitAppendsToTheOutputStream : Prop :=
  ∀ (s : State) (k v : Nat),
    (s.Room k → ∃ t, s.emit k v = .ok t ∧ Appended s t (bitsOf k v) ∧ KeepsOutside s t ∧ KeepsTable s t ∧
      t.inPtr = s.inPtr) ∧
    (¬s.Room k → s.emit k v = .error ⟨.outOverflow, BitVec.ofNat 32 (s.bytesDue k)⟩) ∧
    (k = 0 → s.accBits &&& accMask s.accN = s.accBits → s.emit k v = .ok s)

/-- R121: the PUTBITS unit appends `bitsOf(N, VALUE)`, or raises OUT_OVERFLOW with the bytes due. -/
def Obligations.PutbitsAppendsItsBits : Prop :=
  ∀ (n : BitVec 5) (v : BitVec 16) (s : State), (Instr.putbits n v).wellFormed = true → s.AtUnit →
    (s.Room n.toNat → ∃ t, exec (.putbits n v) s = .next t ∧ Appended s t (bitsOf n.toNat v.toNat) ∧ Committed s t ∧
      KeepsOutside s t ∧ KeepsTable s t ∧ t.inPtr = s.inPtr) ∧
    (¬s.Room n.toNat → exec (.putbits n v) s = .next (s.AfterError 3#4 (BitVec.ofNat 32 (s.bytesDue n.toNat))))

/-- R122: the PUTSYM unit appends the symbol's code, or raises UNKNOWN_SYMBOL if it has none, or else OUT_OVERFLOW. -/
def Obligations.PutsymAppendsTheCode : Prop :=
  ∀ (sym : BitVec 8) (s : State), s.AtUnit →
    (s.len sym.toNat ≠ 0#8 → s.Room (s.len sym.toNat).toNat →
      ∃ t, exec (.putsym sym) s = .next t ∧ Appended s t (s.codeBits sym.toNat) ∧ Committed s t ∧ KeepsOutside s t ∧
        KeepsTable s t ∧ t.inPtr = s.inPtr) ∧
    (s.len sym.toNat = 0#8 → exec (.putsym sym) s = .next (s.AfterError 2#4 (sym.setWidth 32))) ∧
    (s.len sym.toNat ≠ 0#8 → ¬s.Room (s.len sym.toNat).toNat →
      exec (.putsym sym) s = .next (s.AfterError 3#4 (BitVec.ofNat 32 (s.bytesDue (s.len sym.toNat).toNat))))

/-- R123: the PACKBUF unit appends the code of the byte at IN_PTR and moves IN_PTR past it, or raises IN_EXHAUSTED(8),
then UNKNOWN_SYMBOL, then OUT_OVERFLOW. -/
def Obligations.PackbufPacksTheNextByte : Prop :=
  ∀ (c : BitVec 27) (s : State), s.AtUnit →
    (8 * s.effLimit < s.inPtr.toNat + 8 → exec (.packbuf c) s = .next (s.AfterError 4#4 8#32)) ∧
    (∀ b : Byte, s.InputIs s.inPtr.toNat (bitsOf 8 b.toNat) →
      (s.len b.toNat ≠ 0#8 → s.Room (s.len b.toNat).toNat →
        ∃ t, exec (.packbuf c) s = .next t ∧ Appended s t (s.codeBits b.toNat) ∧ Committed s t ∧ KeepsOutside s t ∧
          KeepsTable s t ∧ t.inPtr.toNat = s.inPtr.toNat + 8) ∧
      (s.len b.toNat = 0#8 → exec (.packbuf c) s = .next (s.AfterError 2#4 (b.setWidth 32))) ∧
      (s.len b.toNat ≠ 0#8 → ¬s.Room (s.len b.toNat).toNat →
        exec (.packbuf c) s = .next (s.AfterError 3#4 (BitVec.ofNat 32 (s.bytesDue (s.len b.toNat).toNat)))))

/-- R124: with no pending bit the FLUSH unit writes nothing and checks nothing; else it writes ACC_BITS at OUT_PTR,
empties ACC and keeps BITCOUNT, or raises OUT_OVERFLOW(1). -/
def Obligations.FlushWritesThePendingByte : Prop :=
  ∀ s : State, s.AtUnit →
    (s.accN = 0#3 → exec .flush s = .next { s with symCount := s.symCount + 1#27, remain := s.remain - 1#27 }) ∧
    (s.accN ≠ 0#3 → s.outPtr.toNat < 16384 →
      ∃ t, exec .flush s = .next t ∧ t.byte .outBuf s.outPtr.toNat = s.accBits ∧
        (∀ a, a ≠ s.outPtr.toNat → t.byte .outBuf a = s.byte .outBuf a) ∧
        t.outPtr.toNat = s.outPtr.toNat + 1 ∧ t.accBits = 0#8 ∧ t.accN = 0#3 ∧ t.bitCount = s.bitCount ∧
        Committed s t ∧ KeepsOutside s t ∧ KeepsTable s t ∧ t.inPtr = s.inPtr) ∧
    (s.accN ≠ 0#3 → 16384 ≤ s.outPtr.toNat → exec .flush s = .next (s.AfterError 3#4 1#32))

/-- R36, R124: FLUSH pads the output stream with zero bits to a byte boundary, and with none if it is at one. -/
def Obligations.FlushPadsTheStreamWithZeros : Prop :=
  ∀ (s : State) (o : Nat), s.AtUnit → s.accBits &&& accMask s.accN = s.accBits → s.outPtr.toNat < 16384 →
    o ≤ s.outPtr.toNat →
    ∃ t, exec .flush s = .next t ∧ t.accN = 0#3 ∧
      t.outStream o = s.outStream o ++ List.replicate ((8 - s.accN.toNat) % 8) false

/-- R140, R141: the UNPACK unit decodes the symbol whose code is the shortest one the input bits begin with, the lowest
symbol among equal codes, emits it as 8 bits and moves IN_PTR past its code, or raises OUT_OVERFLOW. -/
def Obligations.UnpackTakesTheShortestMatch : Prop :=
  ∀ (c : BitVec 27) (s : State) (sym : Nat), s.AtUnit → sym < 256 → s.len sym ≠ 0#8 →
    s.InputIs s.inPtr.toNat (s.codeBits sym) →
    (∀ a, a < 256 → s.len a ≠ 0#8 → (s.len a).toNat < (s.len sym).toNat → ¬(s.codeBits a <+: s.codeBits sym)) →
    (∀ a, a < sym → s.codeBits a ≠ s.codeBits sym) →
    (s.Room 8 →
      ∃ t, exec (.unpack c) s = .next t ∧ Appended s t (bitsOf 8 sym) ∧
        t.inPtr.toNat = s.inPtr.toNat + (s.len sym).toNat ∧ Committed s t ∧ KeepsOutside s t ∧ KeepsTable s t) ∧
    (¬s.Room 8 → exec (.unpack c) s = .next (s.AfterError 3#4 (BitVec.ofNat 32 (s.bytesDue 8))))

/-- R140: UNPACK raises MALFORMED(k) at the first scan length `k` where the scanned bits are no code and a proper
prefix of none. -/
def Obligations.UnpackReportsMalformedBits : Prop :=
  ∀ (c : BitVec 27) (s : State) (w : Bits) (b : Bool), s.AtUnit → s.InputIs s.inPtr.toNat (w ++ [b]) →
    (∀ a, a < 256 → s.len a ≠ 0#8 → ¬(s.codeBits a <+: w ++ [b])) →
    (w ≠ [] → ∃ a, a < 256 ∧ w <+: s.codeBits a) →
    (∀ a, a < 256 → ¬(w ++ [b] <+: s.codeBits a)) →
    exec (.unpack c) s = .next (s.AfterError 5#4 (BitVec.ofNat 32 (w.length + 1)))

/-- R140, R165: UNPACK raises IN_EXHAUSTED(k) when bit `k − 1` is past the limit while the bits before it are a proper
prefix of some code and no code. -/
def Obligations.UnpackReportsExhaustedInput : Prop :=
  ∀ (c : BitVec 27) (s : State) (w : Bits), s.AtUnit → s.InputIs s.inPtr.toNat w →
    8 * s.effLimit < s.inPtr.toNat + w.length + 1 →
    (∀ a, a < 256 → s.len a ≠ 0#8 → ¬(s.codeBits a <+: w)) →
    (w ≠ [] → ∃ a, a < 256 ∧ w <+: s.codeBits a) →
    exec (.unpack c) s = .next (s.AfterError 4#4 (BitVec.ofNat 32 (w.length + 1)))

/-- R142, R143: the UNPACKT unit follows the input bits from ROOT_SNAP to a leaf below the root, emits its symbol as 8
bits and moves IN_PTR past the path, or raises OUT_OVERFLOW. -/
def Obligations.UnpacktFollowsThePath : Prop :=
  ∀ (c : BitVec 27) (s : State) (w : Bits) (j : Nat), s.AtUnit → w ≠ [] → w.length ≤ 255 →
    s.Path s.rootSnap.toNat w j → j < 511 → nodeIsLeaf (s.node j) = true → leafClear (s.node j) = true →
    s.InputIs s.inPtr.toNat w →
    (s.Room 8 →
      ∃ t, exec (.unpackt c) s = .next t ∧ Appended s t (bitsOf 8 (nodeSym (s.node j))) ∧
        t.inPtr.toNat = s.inPtr.toNat + w.length ∧ Committed s t ∧ KeepsOutside s t ∧ KeepsTable s t) ∧
    (¬s.Room 8 → exec (.unpackt c) s = .next (s.AfterError 3#4 (BitVec.ofNat 32 (s.bytesDue 8))))

/-- R142, R143: where the root is a leaf its only code is "0": a 0 bit decodes to its symbol, or raises OUT_OVERFLOW with
the bytes due if OUT has no room for it; a 1 bit is MALFORMED(1), and no bit is IN_EXHAUSTED(1). -/
def Obligations.UnpacktOnASingleLeaf : Prop :=
  ∀ (c : BitVec 27) (s : State), s.AtUnit → s.rootSnap.toNat < 511 → nodeIsLeaf (s.node s.rootSnap.toNat) = true →
    leafClear (s.node s.rootSnap.toNat) = true →
    (s.InputIs s.inPtr.toNat [false] → s.Room 8 →
      ∃ t, exec (.unpackt c) s = .next t ∧ Appended s t (bitsOf 8 (nodeSym (s.node s.rootSnap.toNat))) ∧
        t.inPtr.toNat = s.inPtr.toNat + 1 ∧ Committed s t ∧ KeepsOutside s t ∧ KeepsTable s t) ∧
    (s.InputIs s.inPtr.toNat [false] → ¬s.Room 8 →
      exec (.unpackt c) s = .next (s.AfterError 3#4 (BitVec.ofNat 32 (s.bytesDue 8)))) ∧
    (s.InputIs s.inPtr.toNat [true] → exec (.unpackt c) s = .next (s.AfterError 5#4 1#32)) ∧
    (8 * s.effLimit ≤ s.inPtr.toNat → exec (.unpackt c) s = .next (s.AfterError 4#4 1#32))

/-- R103, R142, R169: what UNPACKT raises at the node `j` its input bits lead to: BAD_TREE 1, then BAD_TREE 4, then (at
an internal node) BAD_TREE 2 at depth 255, then IN_EXHAUSTED. -/
def Obligations.UnpacktRejectsInvalidNodes : Prop :=
  ∀ (c : BitVec 27) (s : State) (w : Bits) (j : Nat), s.AtUnit → w.length ≤ 255 → s.Path s.rootSnap.toNat w j →
    s.InputIs s.inPtr.toNat w →
    (511 ≤ j → exec (.unpackt c) s = .next (s.AfterError 6#4 (BitVec.ofNat 32 (1 * 2 ^ 16 + j)))) ∧
    (j < 511 → nodeIsLeaf (s.node j) = true → leafClear (s.node j) = false →
      exec (.unpackt c) s = .next (s.AfterError 6#4 (BitVec.ofNat 32 (4 * 2 ^ 16 + j)))) ∧
    (j < 511 → nodeIsLeaf (s.node j) = false → internalClear (s.node j) = false →
      exec (.unpackt c) s = .next (s.AfterError 6#4 (BitVec.ofNat 32 (4 * 2 ^ 16 + j)))) ∧
    (j < 511 → nodeIsLeaf (s.node j) = false → internalClear (s.node j) = true → w.length = 255 →
      exec (.unpackt c) s = .next (s.AfterError 6#4 (BitVec.ofNat 32 (2 * 2 ^ 16 + j)))) ∧
    (j < 511 → nodeIsLeaf (s.node j) = false → internalClear (s.node j) = true → w.length < 255 →
      8 * s.effLimit ≤ s.inPtr.toNat + w.length →
      exec (.unpackt c) s = .next (s.AfterError 4#4 (BitVec.ofNat 32 (w.length + 1))))

/-- R102: on an arena that holds a tree of depth at most 255 with no symbol twice, ASSIGN completes: each leaf's symbol
has the path to it as its code ("0" for a single leaf), every other LEN is 0 and every other CODE is kept. -/
def Obligations.AssignGivesEachLeafItsPath : Prop :=
  ∀ (s : State) (T : CodeTree), s.AtUnit → s.HoldsTree s.rootSnap.toNat T → T.depth ≤ 255 → T.symbols.Nodup →
    ∃ t, exec .assign s = .next t ∧
      (∀ x ∈ T.codes, (t.len x.1.toNat).toNat = x.2.length ∧ t.codeBits x.1.toNat = x.2 ∧
        (t.code x.1.toNat).toNat = val x.2) ∧
      (∀ a : Byte, a ∉ T.symbols → t.len a.toNat = 0#8 ∧ t.code a.toNat = s.code a.toNat) ∧
      Committed s t ∧ KeepsOutside s t ∧ KeepsOutput s t ∧ t.inPtr = s.inPtr

/-- R102, R103, R169: where the walk, left before right, first meets a node with a reason to fail, ASSIGN raises BAD_TREE
with that reason's subcode and that node's index, and CT is as it was; on every arena that holds no tree of depth at most
255 with no symbol twice there is such a node. -/
def Obligations.AssignRejectsEverythingElse : Prop :=
  ∀ s : State, s.AtUnit →
    (∀ subcode index, s.FirstBad s.rootSnap.toNat 0 [] subcode index →
      exec .assign s = .next (s.AfterError 6#4 (BitVec.ofNat 32 (subcode * 2 ^ 16 + index)))) ∧
    ((¬∃ T : CodeTree, s.HoldsTree s.rootSnap.toNat T ∧ T.depth ≤ 255 ∧ T.symbols.Nodup) →
      ∃ subcode index, s.FirstBad s.rootSnap.toNat 0 [] subcode index ∧ subcode ∈ [1, 2, 3, 4] ∧ index < 512 ∧
        exec .assign s = .next (s.AfterError 6#4 (BitVec.ofNat 32 (subcode * 2 ^ 16 + index))))

/-- R104: after an ASSIGN that commits, every LEN written is from 1 to 255, exactly the symbols of the leaves reached
have a code, one entry per leaf, and the codes are prefix-free. -/
def Obligations.AssignMakesAPrefixFreeTable : Prop :=
  ∀ s t : State, s.AtUnit → exec .assign s = .next t → t.busy = true →
    t.PrefixFree ∧
    ∃ T : CodeTree, s.HoldsTree s.rootSnap.toNat T ∧ T.symbols.Nodup ∧
      (∀ a ∈ T.symbols, 1 ≤ (t.len a.toNat).toNat ∧ (t.len a.toNat).toNat ≤ 255) ∧
      ∀ a : Byte, t.len a.toNat ≠ 0#8 ↔ a ∈ T.symbols

/-! ### Commands of many units -/

/-- R123, R125: `n` steps of a PACKBUF append the codes of the next `n` input bytes, in input order. (With `turns` empty
the engine moves while it runs: the model's choice, assumption 5.) -/
def Obligations.PackbufAppendsTheCodesInOrder : Prop :=
  ∀ (c : BitVec 27) (s : State) (xs : List Byte), s.busy = true → s.turns = [] → s.lastCmd = encode (.packbuf c) →
    xs.length ≤ s.remain.toNat → s.InputIs s.inPtr.toNat (symbolBits xs) → (∀ x ∈ xs, s.len x.toNat ≠ 0#8) →
    s.Room (s.codesOf xs).length →
    ∃ t : State, Host.Core.run core xs.length s = .next t ∧ t.busy = true ∧
      (∀ o, o ≤ s.outPtr.toNat → t.outStream o = s.outStream o ++ s.codesOf xs) ∧
      t.inPtr.toNat = s.inPtr.toNat + 8 * xs.length ∧
      t.bitCount = s.bitCount + BitVec.ofNat 32 (s.codesOf xs).length ∧
      t.symCount = s.symCount + BitVec.ofNat 27 xs.length ∧ t.remain.toNat = s.remain.toNat - xs.length

/-- R141, R145: with a prefix-free table, `n` steps of an UNPACK on input that begins with the codes of `n` symbols emit
exactly those symbols and leave IN_PTR right after their codes, whatever bits follow. (With `turns` empty the engine moves
while it runs: the model's choice, assumption 5.) -/
def Obligations.UnpackInvertsPackingAndIsPaddingSafe : Prop :=
  ∀ (c : BitVec 27) (s : State) (xs : List Byte), s.busy = true → s.turns = [] → s.lastCmd = encode (.unpack c) →
    xs.length ≤ s.remain.toNat → s.PrefixFree → (∀ x ∈ xs, s.len x.toNat ≠ 0#8) →
    s.InputIs s.inPtr.toNat (s.codesOf xs) → s.Room (8 * xs.length) →
    ∃ t : State, Host.Core.run core xs.length s = .next t ∧ t.busy = true ∧
      (∀ o, o ≤ s.outPtr.toNat → t.outStream o = s.outStream o ++ symbolBits xs) ∧
      t.inPtr.toNat = s.inPtr.toNat + (s.codesOf xs).length ∧
      t.symCount = s.symCount + BitVec.ofNat 27 xs.length ∧ t.remain.toNat = s.remain.toNat - xs.length

/-- R146: after an ASSIGN that commits, as long as the table, the arena and the root stay, UNPACK and UNPACKT step
alike from every state: the same final state, the same error code and the same ERRINFO. -/
def Obligations.TreeAndTableDecodersAgree : Prop :=
  ∀ s t : State, s.AtUnit → exec .assign s = .next t → t.busy = true →
    ∀ (u : State) (c : BitVec 27), SameCodes t u → u.busy = true → exec (.unpack c) u = exec (.unpackt c) u

/-- R66, R199: under every schedule a running command ends with DONE or ERR, after at most REMAIN + 1 engine steps, when
no reset comes between: the steps of the host among the engine's may be any reads, waits, reset releases and writes but
those of CTRL with SRST = 1. (Where `turns` is used up the engine moves: the model's choice, assumption 5. Nothing is
asked of the inputs where `turns` is empty, because the outside then has no step before the command ends.) -/
def Obligations.EveryCommandEnds : Prop :=
  ∀ s : State, s.Inv → s.busy = true → s.turns = [] ∨ (∀ x ∈ s.inputs, ¬x.resets) →
    ∃ k, s.engineTurns k ≤ s.remain.toNat + 1 ∧ ∃ t : State, Host.Core.run core k s = .next t ∧ t.busy = false ∧
      (t.done = true ∨ t.err = true)

/-! ### The whole machine -/

/-- R26, R27, R30, R31, R36, R38, R161: the machine's invariant holds in State.reset, for both values of `HAS_TREE` (its
clause on `idleSeen` is about a field of the model's own, assumption 18). -/
def Obligations.InvariantHoldsAtReset : Prop := State.reset.Inv ∧ ({ State.reset with hasTree := false } : State).Inv

/-- R26, R27, R30, R31, R36, R38, R66, R161: from every state that meets the invariant, the next step (of the host, of
the engine or of the reset input) is a next state, never a fault or a refusal, and it meets the invariant (its clause on
`idleSeen` is about a field of the model's own, assumption 18). -/
def Obligations.EveryStepKeepsTheInvariant : Prop := ∀ s : State, s.Inv → ∃ t, step s = .next t ∧ t.Inv

/-- R27, R49: DONE is set only by a completion step; ERR only by a failing unit or by the accept of an illegal word;
BUSY only by the accept of a legal word; DROP only by a write of CMD while BUSY = 1 or ERR = 1, or by a write to an
engine-owned resource while BUSY = 1. -/
def Obligations.FlagsAreSetOnlyByTheirRules : Prop :=
  ∀ s t : State, step s = .next t →
    (s.done = false → t.done = true → s.mover = .engine ∧ s.busy = true ∧ s.remain = 0#27 ∧ t.busy = false) ∧
    (s.err = false → t.err = true →
      (s.mover = .engine ∧ s.AtUnit ∧ t.busy = false) ∨
      (s.mover = .host ∧ t.errCode = 1#4 ∧ ∃ a w rest, s.inputs = .write a w :: rest ∧ target a = .cmd ∧
        legal s.hasTree w = false ∧ t.lastCmd = w)) ∧
    (s.busy = false → t.busy = true →
      s.mover = .host ∧ s.err = false ∧ ∃ a w rest, s.inputs = .write a w :: rest ∧ target a = .cmd ∧
        legal s.hasTree w = true ∧ t.lastCmd = w) ∧
    (s.drop = false → t.drop = true →
      s.mover = .host ∧ ∃ a d rest, s.inputs = .write a d :: rest ∧
        ((target a = .cmd ∧ (s.busy = true ∨ s.err = true)) ∨ (EngineOwned a ∧ s.busy = true)))

/-- R171: while ERR = 1 a command is only dropped; a write of STATUS bit 2 clears ERR and ERRCODE and keeps ERRINFO,
and the next legal command is then accepted. -/
def Obligations.ErrorsAreRecoveredByTheHost : Prop :=
  ∀ (s : State) (i : Instr) (d : Word), s.inReset = false → s.busy = false → s.err = true →
    exec i s = .next { s with drop := true } ∧
    (d.getLsbD 2 = true →
      (s.hostWrite statusAddr d).err = false ∧ (s.hostWrite statusAddr d).errCode = 0#4 ∧
      (s.hostWrite statusAddr d).errInfo = s.errInfo ∧
      (i.isLegal s.hasTree = true → ∃ t, exec i (s.hostWrite statusAddr d) = .next t ∧ t.busy = true ∧
        t.lastCmd = encode i))

/-- R12, R72, R190: no step changes `HAS_TREE`, and the unspecified contents change only by a hardware reset. (HAS_TREE as
a field of State is the model's choice, assumption 1; so is the epoch that indexes the unspecified contents and its step
to the next number at a hardware reset, assumption 2.) -/
def Obligations.ConfigurationAndDrawsAreFixed : Prop :=
  ∀ s t : State, step s = .next t →
    t.hasTree = s.hasTree ∧ (t.epoch ≠ s.epoch → s.inputs.head? = some .resetAssert ∧ t.epoch = s.epoch + 1)
end

