-- ==== Sys2Proof/Laws/Bits.lean ====
section
/-!
SUPPORT. The laws of bit strings (spec 00_scope.md R15): length, value, and that eight-bit groups and their bytes
are two views of one string.
-/

namespace Sys2Proof.Machine

@[simp] theorem length_bitsOf (k v : Nat) : (bitsOf k v).length = k := by simp [bitsOf]

theorem getElem_bitsOf (k v j : Nat) (h : j < (bitsOf k v).length) : (bitsOf k v)[j] = v.testBit (k - 1 - j) := by
  simp [bitsOf]

@[simp] theorem bitsOf_zero (v : Nat) : bitsOf 0 v = [] := rfl

theorem val_append_singleton (w : Bits) (b : Bool) : val (w ++ [b]) = 2 * val w + b.toNat := by
  simp [val, List.foldl_append]

@[simp] theorem val_nil : val [] = 0 := rfl

/-- A bit string of one more bit is the string of the halved number, then the low bit. -/
theorem bitsOf_succ (k v : Nat) : bitsOf (k + 1) v = bitsOf k (v / 2) ++ [v.testBit 0] := by
  apply List.ext_getElem
  · simp
  · intro j h1 h2
    simp only [length_bitsOf] at h1
    by_cases hj : j < k
    · rw [List.getElem_append_left (by simpa using hj), getElem_bitsOf, getElem_bitsOf, ← Nat.testBit_succ]
      congr 1; omega
    · have : j = k := by omega
      subst this
      rw [List.getElem_append_right (by simp), getElem_bitsOf]
      simp

/-- `val(bitsOf(k, v)) = v mod 2^k`, which is `v` when `v < 2^k` (R15). -/
theorem val_bitsOf (k v : Nat) : val (bitsOf k v) = v % 2 ^ k := by
  induction k generalizing v with
  | zero => simp [Nat.mod_one]
  | succ k ih =>
    rw [bitsOf_succ, val_append_singleton, ih, Nat.pow_succ', Nat.mod_mul]
    simp only [Nat.testBit_zero]
    rcases Nat.mod_two_eq_zero_or_one v with h | h
    · simp [h]
    · simp [h]; omega

theorem val_lt (w : Bits) : val w < 2 ^ w.length := by
  induction w using List.reverseRecOn with
  | nil => simp
  | append_singleton w b ih =>
    rw [val_append_singleton, List.length_append, List.length_singleton, Nat.pow_succ]
    cases b <;> (simp; omega)

/-- A bit string is the bits of its value. -/
theorem bitsOf_val (w : Bits) : bitsOf w.length (val w) = w := by
  induction w using List.reverseRecOn with
  | nil => rfl
  | append_singleton w b ih =>
    rw [List.length_append, List.length_singleton, bitsOf_succ, val_append_singleton]
    have h1 : (2 * val w + b.toNat) / 2 = val w := by
      cases b
      · simp
      · simp; omega
    have h2 : (2 * val w + b.toNat).testBit 0 = b := by cases b <;> simp
    rw [h1, h2, ih]

theorem val_inj {u w : Bits} (hl : u.length = w.length) (h : val u = val w) : u = w := by
  rw [← bitsOf_val u, ← bitsOf_val w, hl, h]

theorem bitsOf_mod (k v : Nat) : bitsOf k (v % 2 ^ k) = bitsOf k v :=
  val_inj (by simp) (by simp [val_bitsOf])

theorem bitsOf_val_of_length {w : Bits} {k : Nat} (h : w.length = k) : bitsOf k (val w) = w := by
  subst h; exact bitsOf_val w

/-- A bit in front adds its weight. -/
theorem val_cons (b : Bool) (w : Bits) : val (b :: w) = b.toNat * 2 ^ w.length + val w := by
  induction w using List.reverseRecOn with
  | nil => simp [val]
  | append_singleton w c ih =>
    rw [← List.cons_append, val_append_singleton, ih, val_append_singleton]
    simp only [List.length_append, List.length_singleton, Nat.pow_succ]
    ring

theorem val_append (u w : Bits) : val (u ++ w) = val u * 2 ^ w.length + val w := by
  induction u with
  | nil => simp
  | cons b u ih =>
    rw [List.cons_append, val_cons, ih, val_cons, List.length_append, Nat.pow_add]
    ring

theorem val_replicate_false (n : Nat) : val (List.replicate n false) = 0 := by
  induction n with
  | zero => rfl
  | succ n ih => rw [List.replicate_succ, val_cons, ih]; simp

@[simp] theorem length_packBytes (nb : Nat) (w : Bits) : (packBytes nb w).length = nb := by
  induction nb generalizing w with
  | zero => rfl
  | succ nb ih => simp [packBytes, ih]

theorem bitsOf_byte_val {w : Bits} (h : w.length = 8) : bitsOf 8 (BitVec.ofNat 8 (val w)).toNat = w := by
  rw [BitVec.toNat_ofNat, show (2 : Nat) ^ 8 = 2 ^ 8 from rfl, bitsOf_mod, bitsOf_val_of_length h]

/-- The bits of the packed bytes are the string they were packed from. -/
theorem flatMap_packBytes (nb : Nat) (w : Bits) (h : 8 * nb ≤ w.length) :
    (packBytes nb w).flatMap (fun b => bitsOf 8 b.toNat) = w.take (8 * nb) := by
  induction nb generalizing w with
  | zero => simp [packBytes]
  | succ nb ih =>
    have h8 : (w.take 8).length = 8 := by simp; omega
    rw [packBytes, List.flatMap_cons, bitsOf_byte_val h8, ih _ (by simp; omega)]
    rw [show 8 * (nb + 1) = 8 + 8 * nb by ring, List.take_add]

@[simp] theorem length_leBytes (n v : Nat) : (leBytes n v).length = n := by
  induction n generalizing v with
  | zero => rfl
  | succ n ih => simp [leBytes, ih]

/-- The bytes of a number give the number back, modulo what they can hold. -/
theorem leNat_leBytes (n v : Nat) : leNat (leBytes n v) = v % 256 ^ n := by
  induction n generalizing v with
  | zero => simp [leBytes, leNat, Nat.mod_one]
  | succ n ih =>
    simp only [leBytes, leNat, ih, BitVec.toNat_ofNat]
    rw [show 256 ^ (n + 1) = 256 * 256 ^ n from Nat.pow_succ', Nat.mod_mul]

theorem leNat_lt (bs : List Byte) : leNat bs < 256 ^ bs.length := by
  induction bs with
  | nil => simp [leNat]
  | cons b bs ih =>
    have := b.isLt
    simp only [leNat, List.length_cons, Nat.pow_succ]
    omega

/-- A bit of a number given by its bytes is a bit of one of them. -/
theorem testBit_leNat (bs : List Byte) (i : Nat) : (leNat bs).testBit i = (bs.getD (i / 8) 0#8).getLsbD (i % 8) := by
  induction bs generalizing i with
  | nil => simp [leNat]
  | cons b bs ih =>
    rw [leNat, show b.toNat + 256 * leNat bs = 2 ^ 8 * leNat bs + b.toNat by omega, Nat.testBit_two_pow_mul_add _ b.isLt]
    split
    · rename_i h
      rw [Nat.div_eq_of_lt h, Nat.mod_eq_of_lt h]
      rfl
    · rename_i h
      rw [ih, show i / 8 = (i - 8) / 8 + 1 by omega, show i % 8 = (i - 8) % 8 by omega]
      rfl

end Sys2Proof.Machine
end

