-- ==== Sys2Proof/Laws/Memory.lean ====
section
/-!
SUPPORT. The laws of one byte memory: what a read gives after a write, and that every operation keeps the canonical
form, in which equal contents are equal lists.
-/

namespace Sys2Proof.Machine

@[simp] theorem Memory.get?_nil (a : Nat) : Memory.get? [] a = none := rfl

theorem Memory.get?_insert (m : Memory) (a b : Nat) (v : Byte) :
    (m.insert a v).get? b = if a = b then some v else m.get? b := by
  induction m with
  | nil => simp [Memory.insert, Memory.get?]
  | cons c m ih =>
    obtain ⟨k, w⟩ := c
    simp only [Memory.insert]
    split
    · simp [Memory.get?]
    · split
      · subst a; by_cases h : k = b <;> simp [Memory.get?, h]
      · simp only [Memory.get?, ih]
        by_cases h : k = b
        · subst b; simp_all
        · simp [h]

theorem Memory.get?_erase (m : Memory) (a b : Nat) :
    (m.erase a).get? b = if a = b then none else m.get? b := by
  induction m with
  | nil => simp [Memory.erase]
  | cons c m ih =>
    obtain ⟨k, w⟩ := c
    by_cases hk : k = a
    · subst k
      have he : Memory.erase ((a, w) :: m) a = Memory.erase m a := by simp [Memory.erase]
      rw [he, ih]
      by_cases h : a = b <;> simp [Memory.get?, h]
    · have he : Memory.erase ((k, w) :: m) a = (k, w) :: Memory.erase m a := by simp [Memory.erase, hk]
      rw [he]
      simp only [Memory.get?, ih]
      by_cases h : k = b
      · subst b; simp [Ne.symm hk]
      · simp [h]

/-- What an address reads as after a write, `d` being what an unlisted address holds. -/
theorem Memory.get?_write (d : Option Byte) (m : Memory) (a b : Nat) (v : Byte) :
    (m.write d a v).get? b =
      if a = b then (if d = some v then none else some v) else m.get? b := by
  unfold Memory.write
  split <;> simp [Memory.get?_insert, Memory.get?_erase, *]

theorem Memory.mem_of_get? {m : Memory} {a : Nat} {v : Byte} (h : m.get? a = some v) : (a, v) ∈ m := by
  induction m with
  | nil => simp at h
  | cons c m ih =>
    obtain ⟨k, w⟩ := c
    simp only [Memory.get?] at h
    split at h
    · simp_all
    · exact List.mem_cons_of_mem _ (ih h)

theorem Memory.mem_insert {m : Memory} {a : Nat} {v : Byte} {c : Host.Cell} (h : c ∈ m.insert a v) :
    c = (a, v) ∨ c ∈ m := by
  induction m with
  | nil => simpa [Memory.insert] using h
  | cons e m ih =>
    obtain ⟨k, w⟩ := e
    simp only [Memory.insert] at h
    split at h
    · simpa using h
    · split at h
      · rcases List.mem_cons.1 h with h | h
        · exact .inl h
        · exact .inr (List.mem_cons_of_mem _ h)
      · rcases List.mem_cons.1 h with h | h
        · exact .inr (by simp [h])
        · rcases ih h with h | h
          · exact .inl h
          · exact .inr (List.mem_cons_of_mem _ h)

theorem Memory.pairwise_insert {m : Memory} (h : m.Pairwise (fun c d => c.1 < d.1)) (a : Nat) (v : Byte) :
    (m.insert a v).Pairwise (fun c d => c.1 < d.1) := by
  induction m with
  | nil => simp [Memory.insert]
  | cons e m ih =>
    obtain ⟨k, w⟩ := e
    obtain ⟨hk, hm⟩ := List.pairwise_cons.1 h
    simp only [Memory.insert]
    split
    · rename_i hlt
      refine List.pairwise_cons.2 ⟨fun c hc => ?_, h⟩
      rcases List.mem_cons.1 hc with rfl | hc
      · exact hlt
      · exact lt_trans hlt (hk c hc)
    · split
      · subst a; exact List.pairwise_cons.2 ⟨hk, hm⟩
      · refine List.pairwise_cons.2 ⟨fun c hc => ?_, ih hm⟩
        rcases Memory.mem_insert hc with rfl | hc
        · dsimp only; omega
        · exact hk c hc

/-- The empty memory is in canonical form. -/
theorem Memory.wf_nil (d : Option Byte) (n : Nat) (mask : Nat → Byte) : Memory.wf d n mask [] := by
  simp [Memory.wf]

/-- A write keeps the canonical form, if the address exists and the byte is within the bits that exist there. -/
theorem Memory.wf_write {d : Option Byte} {n : Nat} {mask : Nat → Byte} {m : Memory} (h : m.wf d n mask) {a : Nat}
    {v : Byte} (ha : a < n) (hv : v &&& mask a = v) : (m.write d a v).wf d n mask := by
  obtain ⟨hp, hc⟩ := h
  unfold Memory.write
  split
  · exact ⟨hp.filter _, fun c hm => hc c (List.mem_filter.1 hm).1⟩
  · rename_i hd
    refine ⟨Memory.pairwise_insert hp a v, fun c hm => ?_⟩
    rcases Memory.mem_insert hm with rfl | hm
    · exact ⟨ha, hv, hd⟩
    · exact hc c hm

theorem Memory.get?_of_mem {m : Memory} (h : m.Pairwise (fun c d => c.1 < d.1)) {c : Host.Cell} (hc : c ∈ m) :
    m.get? c.1 = some c.2 := by
  induction m with
  | nil => simp at hc
  | cons e m ih =>
    obtain ⟨hk, hm⟩ := List.pairwise_cons.1 h
    rcases List.mem_cons.1 hc with rfl | hc
    · simp [Memory.get?]
    · have := hk c hc
      simp only [Memory.get?, ih hm hc]
      rw [if_neg (by omega)]

/-- Two memories in canonical form that read alike are the same list. -/
theorem Memory.ext_of_wf {d : Option Byte} {n : Nat} {mask : Nat → Byte} {m m' : Memory} (h : m.wf d n mask)
    (h' : m'.wf d n mask) (he : ∀ a, m.get? a = m'.get? a) : m = m' := by
  have hsub : ∀ {u w : Memory}, u.Pairwise (fun c d => c.1 < d.1) → (∀ a, u.get? a = w.get? a) → u ⊆ w :=
    fun hu he c hc => Memory.mem_of_get? ((he c.1).symm.trans (Memory.get?_of_mem hu hc))
  have hnd : ∀ {u : Memory}, u.Pairwise (fun c d => c.1 < d.1) → u.Nodup :=
    fun hu => hu.imp fun hlt heq => by subst heq; exact lt_irrefl _ hlt
  have hperm : m.Perm m' :=
    (List.perm_ext_iff_of_nodup (hnd h.1) (hnd h'.1)).2
      fun c => ⟨fun hc => hsub h.1 he hc, fun hc => hsub h'.1 (fun a => (he a).symm) hc⟩
  exact hperm.eq_of_pairwise (fun a b _ _ hab hba => absurd (lt_trans hab hba) (lt_irrefl _)) h.1 h'.1

end Sys2Proof.Machine
end

