-- ==== Sys2Proof/Laws/State.lean ====
section
/-!
SUPPORT. One lemma per field per named update of State, so that no later proof unfolds a record update.
-/

namespace Sys2Proof.Machine

/-! ### withSpace -/

@[simp] theorem State.withSpace_hasTree (s : State) (sp : Space) (m : Memory) : (s.withSpace sp m).hasTree = s.hasTree := by cases sp <;> rfl

@[simp] theorem State.withSpace_irqEn (s : State) (sp : Space) (m : Memory) : (s.withSpace sp m).irqEn = s.irqEn := by cases sp <;> rfl

@[simp] theorem State.withSpace_busy (s : State) (sp : Space) (m : Memory) : (s.withSpace sp m).busy = s.busy := by cases sp <;> rfl

@[simp] theorem State.withSpace_done (s : State) (sp : Space) (m : Memory) : (s.withSpace sp m).done = s.done := by cases sp <;> rfl

@[simp] theorem State.withSpace_err (s : State) (sp : Space) (m : Memory) : (s.withSpace sp m).err = s.err := by cases sp <;> rfl

@[simp] theorem State.withSpace_drop (s : State) (sp : Space) (m : Memory) : (s.withSpace sp m).drop = s.drop := by cases sp <;> rfl

@[simp] theorem State.withSpace_errCode (s : State) (sp : Space) (m : Memory) : (s.withSpace sp m).errCode = s.errCode := by cases sp <;> rfl

@[simp] theorem State.withSpace_lastCmd (s : State) (sp : Space) (m : Memory) : (s.withSpace sp m).lastCmd = s.lastCmd := by cases sp <;> rfl

@[simp] theorem State.withSpace_remain (s : State) (sp : Space) (m : Memory) : (s.withSpace sp m).remain = s.remain := by cases sp <;> rfl

@[simp] theorem State.withSpace_symCount (s : State) (sp : Space) (m : Memory) : (s.withSpace sp m).symCount = s.symCount := by cases sp <;> rfl

@[simp] theorem State.withSpace_errInfo (s : State) (sp : Space) (m : Memory) : (s.withSpace sp m).errInfo = s.errInfo := by cases sp <;> rfl

@[simp] theorem State.withSpace_inPtr (s : State) (sp : Space) (m : Memory) : (s.withSpace sp m).inPtr = s.inPtr := by cases sp <;> rfl

@[simp] theorem State.withSpace_inLimit (s : State) (sp : Space) (m : Memory) : (s.withSpace sp m).inLimit = s.inLimit := by cases sp <;> rfl

@[simp] theorem State.withSpace_outPtr (s : State) (sp : Space) (m : Memory) : (s.withSpace sp m).outPtr = s.outPtr := by cases sp <;> rfl

@[simp] theorem State.withSpace_accBits (s : State) (sp : Space) (m : Memory) : (s.withSpace sp m).accBits = s.accBits := by cases sp <;> rfl

@[simp] theorem State.withSpace_accN (s : State) (sp : Space) (m : Memory) : (s.withSpace sp m).accN = s.accN := by cases sp <;> rfl

@[simp] theorem State.withSpace_bitCount (s : State) (sp : Space) (m : Memory) : (s.withSpace sp m).bitCount = s.bitCount := by cases sp <;> rfl

@[simp] theorem State.withSpace_root (s : State) (sp : Space) (m : Memory) : (s.withSpace sp m).root = s.root := by cases sp <;> rfl

@[simp] theorem State.withSpace_rootSnap (s : State) (sp : Space) (m : Memory) : (s.withSpace sp m).rootSnap = s.rootSnap := by cases sp <;> rfl

@[simp] theorem State.withSpace_inReset (s : State) (sp : Space) (m : Memory) : (s.withSpace sp m).inReset = s.inReset := by cases sp <;> rfl

@[simp] theorem State.withSpace_epoch (s : State) (sp : Space) (m : Memory) : (s.withSpace sp m).epoch = s.epoch := by cases sp <;> rfl

@[simp] theorem State.withSpace_inputs (s : State) (sp : Space) (m : Memory) : (s.withSpace sp m).inputs = s.inputs := by cases sp <;> rfl

@[simp] theorem State.withSpace_turns (s : State) (sp : Space) (m : Memory) : (s.withSpace sp m).turns = s.turns := by cases sp <;> rfl

@[simp] theorem State.withSpace_replies (s : State) (sp : Space) (m : Memory) : (s.withSpace sp m).replies = s.replies := by cases sp <;> rfl
@[simp] theorem State.withSpace_idleSeen (s : State) (sp : Space) (m : Memory) : (s.withSpace sp m).idleSeen = s.idleSeen := by cases sp <;> rfl

/-! ### setByte -/

@[simp] theorem State.setByte_hasTree (s : State) (sp : Space) (a : Nat) (v : Byte) : (s.setByte sp a v).hasTree = s.hasTree := by cases sp <;> rfl

@[simp] theorem State.setByte_irqEn (s : State) (sp : Space) (a : Nat) (v : Byte) : (s.setByte sp a v).irqEn = s.irqEn := by cases sp <;> rfl

@[simp] theorem State.setByte_busy (s : State) (sp : Space) (a : Nat) (v : Byte) : (s.setByte sp a v).busy = s.busy := by cases sp <;> rfl

@[simp] theorem State.setByte_done (s : State) (sp : Space) (a : Nat) (v : Byte) : (s.setByte sp a v).done = s.done := by cases sp <;> rfl

@[simp] theorem State.setByte_err (s : State) (sp : Space) (a : Nat) (v : Byte) : (s.setByte sp a v).err = s.err := by cases sp <;> rfl

@[simp] theorem State.setByte_drop (s : State) (sp : Space) (a : Nat) (v : Byte) : (s.setByte sp a v).drop = s.drop := by cases sp <;> rfl

@[simp] theorem State.setByte_errCode (s : State) (sp : Space) (a : Nat) (v : Byte) : (s.setByte sp a v).errCode = s.errCode := by cases sp <;> rfl

@[simp] theorem State.setByte_lastCmd (s : State) (sp : Space) (a : Nat) (v : Byte) : (s.setByte sp a v).lastCmd = s.lastCmd := by cases sp <;> rfl

@[simp] theorem State.setByte_remain (s : State) (sp : Space) (a : Nat) (v : Byte) : (s.setByte sp a v).remain = s.remain := by cases sp <;> rfl

@[simp] theorem State.setByte_symCount (s : State) (sp : Space) (a : Nat) (v : Byte) : (s.setByte sp a v).symCount = s.symCount := by cases sp <;> rfl

@[simp] theorem State.setByte_errInfo (s : State) (sp : Space) (a : Nat) (v : Byte) : (s.setByte sp a v).errInfo = s.errInfo := by cases sp <;> rfl

@[simp] theorem State.setByte_inPtr (s : State) (sp : Space) (a : Nat) (v : Byte) : (s.setByte sp a v).inPtr = s.inPtr := by cases sp <;> rfl

@[simp] theorem State.setByte_inLimit (s : State) (sp : Space) (a : Nat) (v : Byte) : (s.setByte sp a v).inLimit = s.inLimit := by cases sp <;> rfl

@[simp] theorem State.setByte_outPtr (s : State) (sp : Space) (a : Nat) (v : Byte) : (s.setByte sp a v).outPtr = s.outPtr := by cases sp <;> rfl

@[simp] theorem State.setByte_accBits (s : State) (sp : Space) (a : Nat) (v : Byte) : (s.setByte sp a v).accBits = s.accBits := by cases sp <;> rfl

@[simp] theorem State.setByte_accN (s : State) (sp : Space) (a : Nat) (v : Byte) : (s.setByte sp a v).accN = s.accN := by cases sp <;> rfl

@[simp] theorem State.setByte_bitCount (s : State) (sp : Space) (a : Nat) (v : Byte) : (s.setByte sp a v).bitCount = s.bitCount := by cases sp <;> rfl

@[simp] theorem State.setByte_root (s : State) (sp : Space) (a : Nat) (v : Byte) : (s.setByte sp a v).root = s.root := by cases sp <;> rfl

@[simp] theorem State.setByte_rootSnap (s : State) (sp : Space) (a : Nat) (v : Byte) : (s.setByte sp a v).rootSnap = s.rootSnap := by cases sp <;> rfl

@[simp] theorem State.setByte_inReset (s : State) (sp : Space) (a : Nat) (v : Byte) : (s.setByte sp a v).inReset = s.inReset := by cases sp <;> rfl

@[simp] theorem State.setByte_epoch (s : State) (sp : Space) (a : Nat) (v : Byte) : (s.setByte sp a v).epoch = s.epoch := by cases sp <;> rfl

@[simp] theorem State.setByte_inputs (s : State) (sp : Space) (a : Nat) (v : Byte) : (s.setByte sp a v).inputs = s.inputs := by cases sp <;> rfl

@[simp] theorem State.setByte_turns (s : State) (sp : Space) (a : Nat) (v : Byte) : (s.setByte sp a v).turns = s.turns := by cases sp <;> rfl

@[simp] theorem State.setByte_replies (s : State) (sp : Space) (a : Nat) (v : Byte) : (s.setByte sp a v).replies = s.replies := by cases sp <;> rfl
@[simp] theorem State.setByte_idleSeen (s : State) (sp : Space) (a : Nat) (v : Byte) : (s.setByte sp a v).idleSeen = s.idleSeen := by cases sp <;> rfl

/-! ### setBytes -/

@[simp] theorem State.setBytes_hasTree (s : State) (sp : Space) (a : Nat) (vs : List Byte) :
    (s.setBytes sp a vs).hasTree = s.hasTree := by
  induction vs generalizing s a with
  | nil => rfl
  | cons v vs ih => rw [State.setBytes, ih, State.setByte_hasTree]

@[simp] theorem State.setBytes_irqEn (s : State) (sp : Space) (a : Nat) (vs : List Byte) :
    (s.setBytes sp a vs).irqEn = s.irqEn := by
  induction vs generalizing s a with
  | nil => rfl
  | cons v vs ih => rw [State.setBytes, ih, State.setByte_irqEn]

@[simp] theorem State.setBytes_busy (s : State) (sp : Space) (a : Nat) (vs : List Byte) :
    (s.setBytes sp a vs).busy = s.busy := by
  induction vs generalizing s a with
  | nil => rfl
  | cons v vs ih => rw [State.setBytes, ih, State.setByte_busy]

@[simp] theorem State.setBytes_done (s : State) (sp : Space) (a : Nat) (vs : List Byte) :
    (s.setBytes sp a vs).done = s.done := by
  induction vs generalizing s a with
  | nil => rfl
  | cons v vs ih => rw [State.setBytes, ih, State.setByte_done]

@[simp] theorem State.setBytes_err (s : State) (sp : Space) (a : Nat) (vs : List Byte) :
    (s.setBytes sp a vs).err = s.err := by
  induction vs generalizing s a with
  | nil => rfl
  | cons v vs ih => rw [State.setBytes, ih, State.setByte_err]

@[simp] theorem State.setBytes_drop (s : State) (sp : Space) (a : Nat) (vs : List Byte) :
    (s.setBytes sp a vs).drop = s.drop := by
  induction vs generalizing s a with
  | nil => rfl
  | cons v vs ih => rw [State.setBytes, ih, State.setByte_drop]

@[simp] theorem State.setBytes_errCode (s : State) (sp : Space) (a : Nat) (vs : List Byte) :
    (s.setBytes sp a vs).errCode = s.errCode := by
  induction vs generalizing s a with
  | nil => rfl
  | cons v vs ih => rw [State.setBytes, ih, State.setByte_errCode]

@[simp] theorem State.setBytes_lastCmd (s : State) (sp : Space) (a : Nat) (vs : List Byte) :
    (s.setBytes sp a vs).lastCmd = s.lastCmd := by
  induction vs generalizing s a with
  | nil => rfl
  | cons v vs ih => rw [State.setBytes, ih, State.setByte_lastCmd]

@[simp] theorem State.setBytes_remain (s : State) (sp : Space) (a : Nat) (vs : List Byte) :
    (s.setBytes sp a vs).remain = s.remain := by
  induction vs generalizing s a with
  | nil => rfl
  | cons v vs ih => rw [State.setBytes, ih, State.setByte_remain]

@[simp] theorem State.setBytes_symCount (s : State) (sp : Space) (a : Nat) (vs : List Byte) :
    (s.setBytes sp a vs).symCount = s.symCount := by
  induction vs generalizing s a with
  | nil => rfl
  | cons v vs ih => rw [State.setBytes, ih, State.setByte_symCount]

@[simp] theorem State.setBytes_errInfo (s : State) (sp : Space) (a : Nat) (vs : List Byte) :
    (s.setBytes sp a vs).errInfo = s.errInfo := by
  induction vs generalizing s a with
  | nil => rfl
  | cons v vs ih => rw [State.setBytes, ih, State.setByte_errInfo]

@[simp] theorem State.setBytes_inPtr (s : State) (sp : Space) (a : Nat) (vs : List Byte) :
    (s.setBytes sp a vs).inPtr = s.inPtr := by
  induction vs generalizing s a with
  | nil => rfl
  | cons v vs ih => rw [State.setBytes, ih, State.setByte_inPtr]

@[simp] theorem State.setBytes_inLimit (s : State) (sp : Space) (a : Nat) (vs : List Byte) :
    (s.setBytes sp a vs).inLimit = s.inLimit := by
  induction vs generalizing s a with
  | nil => rfl
  | cons v vs ih => rw [State.setBytes, ih, State.setByte_inLimit]

@[simp] theorem State.setBytes_outPtr (s : State) (sp : Space) (a : Nat) (vs : List Byte) :
    (s.setBytes sp a vs).outPtr = s.outPtr := by
  induction vs generalizing s a with
  | nil => rfl
  | cons v vs ih => rw [State.setBytes, ih, State.setByte_outPtr]

@[simp] theorem State.setBytes_accBits (s : State) (sp : Space) (a : Nat) (vs : List Byte) :
    (s.setBytes sp a vs).accBits = s.accBits := by
  induction vs generalizing s a with
  | nil => rfl
  | cons v vs ih => rw [State.setBytes, ih, State.setByte_accBits]

@[simp] theorem State.setBytes_accN (s : State) (sp : Space) (a : Nat) (vs : List Byte) :
    (s.setBytes sp a vs).accN = s.accN := by
  induction vs generalizing s a with
  | nil => rfl
  | cons v vs ih => rw [State.setBytes, ih, State.setByte_accN]

@[simp] theorem State.setBytes_bitCount (s : State) (sp : Space) (a : Nat) (vs : List Byte) :
    (s.setBytes sp a vs).bitCount = s.bitCount := by
  induction vs generalizing s a with
  | nil => rfl
  | cons v vs ih => rw [State.setBytes, ih, State.setByte_bitCount]

@[simp] theorem State.setBytes_root (s : State) (sp : Space) (a : Nat) (vs : List Byte) :
    (s.setBytes sp a vs).root = s.root := by
  induction vs generalizing s a with
  | nil => rfl
  | cons v vs ih => rw [State.setBytes, ih, State.setByte_root]

@[simp] theorem State.setBytes_rootSnap (s : State) (sp : Space) (a : Nat) (vs : List Byte) :
    (s.setBytes sp a vs).rootSnap = s.rootSnap := by
  induction vs generalizing s a with
  | nil => rfl
  | cons v vs ih => rw [State.setBytes, ih, State.setByte_rootSnap]

@[simp] theorem State.setBytes_inReset (s : State) (sp : Space) (a : Nat) (vs : List Byte) :
    (s.setBytes sp a vs).inReset = s.inReset := by
  induction vs generalizing s a with
  | nil => rfl
  | cons v vs ih => rw [State.setBytes, ih, State.setByte_inReset]

@[simp] theorem State.setBytes_epoch (s : State) (sp : Space) (a : Nat) (vs : List Byte) :
    (s.setBytes sp a vs).epoch = s.epoch := by
  induction vs generalizing s a with
  | nil => rfl
  | cons v vs ih => rw [State.setBytes, ih, State.setByte_epoch]

@[simp] theorem State.setBytes_inputs (s : State) (sp : Space) (a : Nat) (vs : List Byte) :
    (s.setBytes sp a vs).inputs = s.inputs := by
  induction vs generalizing s a with
  | nil => rfl
  | cons v vs ih => rw [State.setBytes, ih, State.setByte_inputs]

@[simp] theorem State.setBytes_turns (s : State) (sp : Space) (a : Nat) (vs : List Byte) :
    (s.setBytes sp a vs).turns = s.turns := by
  induction vs generalizing s a with
  | nil => rfl
  | cons v vs ih => rw [State.setBytes, ih, State.setByte_turns]

@[simp] theorem State.setBytes_replies (s : State) (sp : Space) (a : Nat) (vs : List Byte) :
    (s.setBytes sp a vs).replies = s.replies := by
  induction vs generalizing s a with
  | nil => rfl
  | cons v vs ih => rw [State.setBytes, ih, State.setByte_replies]
@[simp] theorem State.setBytes_idleSeen (s : State) (sp : Space) (a : Nat) (vs : List Byte) :
    (s.setBytes sp a vs).idleSeen = s.idleSeen := by
  induction vs generalizing s a with
  | nil => rfl
  | cons v vs ih => rw [State.setBytes, ih, State.setByte_idleSeen]

/-! ### setWord -/

@[simp] theorem State.setWord_hasTree (s : State) (sp : Space) (a : Nat) (d : Word) :
    (s.setWord sp a d).hasTree = s.hasTree := State.setBytes_hasTree _ _ _ _

@[simp] theorem State.setWord_irqEn (s : State) (sp : Space) (a : Nat) (d : Word) :
    (s.setWord sp a d).irqEn = s.irqEn := State.setBytes_irqEn _ _ _ _

@[simp] theorem State.setWord_busy (s : State) (sp : Space) (a : Nat) (d : Word) :
    (s.setWord sp a d).busy = s.busy := State.setBytes_busy _ _ _ _

@[simp] theorem State.setWord_done (s : State) (sp : Space) (a : Nat) (d : Word) :
    (s.setWord sp a d).done = s.done := State.setBytes_done _ _ _ _

@[simp] theorem State.setWord_err (s : State) (sp : Space) (a : Nat) (d : Word) :
    (s.setWord sp a d).err = s.err := State.setBytes_err _ _ _ _

@[simp] theorem State.setWord_drop (s : State) (sp : Space) (a : Nat) (d : Word) :
    (s.setWord sp a d).drop = s.drop := State.setBytes_drop _ _ _ _

@[simp] theorem State.setWord_errCode (s : State) (sp : Space) (a : Nat) (d : Word) :
    (s.setWord sp a d).errCode = s.errCode := State.setBytes_errCode _ _ _ _

@[simp] theorem State.setWord_lastCmd (s : State) (sp : Space) (a : Nat) (d : Word) :
    (s.setWord sp a d).lastCmd = s.lastCmd := State.setBytes_lastCmd _ _ _ _

@[simp] theorem State.setWord_remain (s : State) (sp : Space) (a : Nat) (d : Word) :
    (s.setWord sp a d).remain = s.remain := State.setBytes_remain _ _ _ _

@[simp] theorem State.setWord_symCount (s : State) (sp : Space) (a : Nat) (d : Word) :
    (s.setWord sp a d).symCount = s.symCount := State.setBytes_symCount _ _ _ _

@[simp] theorem State.setWord_errInfo (s : State) (sp : Space) (a : Nat) (d : Word) :
    (s.setWord sp a d).errInfo = s.errInfo := State.setBytes_errInfo _ _ _ _

@[simp] theorem State.setWord_inPtr (s : State) (sp : Space) (a : Nat) (d : Word) :
    (s.setWord sp a d).inPtr = s.inPtr := State.setBytes_inPtr _ _ _ _

@[simp] theorem State.setWord_inLimit (s : State) (sp : Space) (a : Nat) (d : Word) :
    (s.setWord sp a d).inLimit = s.inLimit := State.setBytes_inLimit _ _ _ _

@[simp] theorem State.setWord_outPtr (s : State) (sp : Space) (a : Nat) (d : Word) :
    (s.setWord sp a d).outPtr = s.outPtr := State.setBytes_outPtr _ _ _ _

@[simp] theorem State.setWord_accBits (s : State) (sp : Space) (a : Nat) (d : Word) :
    (s.setWord sp a d).accBits = s.accBits := State.setBytes_accBits _ _ _ _

@[simp] theorem State.setWord_accN (s : State) (sp : Space) (a : Nat) (d : Word) :
    (s.setWord sp a d).accN = s.accN := State.setBytes_accN _ _ _ _

@[simp] theorem State.setWord_bitCount (s : State) (sp : Space) (a : Nat) (d : Word) :
    (s.setWord sp a d).bitCount = s.bitCount := State.setBytes_bitCount _ _ _ _

@[simp] theorem State.setWord_root (s : State) (sp : Space) (a : Nat) (d : Word) :
    (s.setWord sp a d).root = s.root := State.setBytes_root _ _ _ _

@[simp] theorem State.setWord_rootSnap (s : State) (sp : Space) (a : Nat) (d : Word) :
    (s.setWord sp a d).rootSnap = s.rootSnap := State.setBytes_rootSnap _ _ _ _

@[simp] theorem State.setWord_inReset (s : State) (sp : Space) (a : Nat) (d : Word) :
    (s.setWord sp a d).inReset = s.inReset := State.setBytes_inReset _ _ _ _

@[simp] theorem State.setWord_epoch (s : State) (sp : Space) (a : Nat) (d : Word) :
    (s.setWord sp a d).epoch = s.epoch := State.setBytes_epoch _ _ _ _

@[simp] theorem State.setWord_inputs (s : State) (sp : Space) (a : Nat) (d : Word) :
    (s.setWord sp a d).inputs = s.inputs := State.setBytes_inputs _ _ _ _

@[simp] theorem State.setWord_turns (s : State) (sp : Space) (a : Nat) (d : Word) :
    (s.setWord sp a d).turns = s.turns := State.setBytes_turns _ _ _ _

@[simp] theorem State.setWord_replies (s : State) (sp : Space) (a : Nat) (d : Word) :
    (s.setWord sp a d).replies = s.replies := State.setBytes_replies _ _ _ _
@[simp] theorem State.setWord_idleSeen (s : State) (sp : Space) (a : Nat) (d : Word) :
    (s.setWord sp a d).idleSeen = s.idleSeen := State.setBytes_idleSeen _ _ _ _

/-! ### setLen and setCode -/

@[simp] theorem State.setLen_hasTree (s : State) (sym : Nat) (n : Byte) :
    (s.setLen sym n).hasTree = s.hasTree := State.setByte_hasTree _ _ _ _

@[simp] theorem State.setLen_irqEn (s : State) (sym : Nat) (n : Byte) :
    (s.setLen sym n).irqEn = s.irqEn := State.setByte_irqEn _ _ _ _

@[simp] theorem State.setLen_busy (s : State) (sym : Nat) (n : Byte) :
    (s.setLen sym n).busy = s.busy := State.setByte_busy _ _ _ _

@[simp] theorem State.setLen_done (s : State) (sym : Nat) (n : Byte) :
    (s.setLen sym n).done = s.done := State.setByte_done _ _ _ _

@[simp] theorem State.setLen_err (s : State) (sym : Nat) (n : Byte) :
    (s.setLen sym n).err = s.err := State.setByte_err _ _ _ _

@[simp] theorem State.setLen_drop (s : State) (sym : Nat) (n : Byte) :
    (s.setLen sym n).drop = s.drop := State.setByte_drop _ _ _ _

@[simp] theorem State.setLen_errCode (s : State) (sym : Nat) (n : Byte) :
    (s.setLen sym n).errCode = s.errCode := State.setByte_errCode _ _ _ _

@[simp] theorem State.setLen_lastCmd (s : State) (sym : Nat) (n : Byte) :
    (s.setLen sym n).lastCmd = s.lastCmd := State.setByte_lastCmd _ _ _ _

@[simp] theorem State.setLen_remain (s : State) (sym : Nat) (n : Byte) :
    (s.setLen sym n).remain = s.remain := State.setByte_remain _ _ _ _

@[simp] theorem State.setLen_symCount (s : State) (sym : Nat) (n : Byte) :
    (s.setLen sym n).symCount = s.symCount := State.setByte_symCount _ _ _ _

@[simp] theorem State.setLen_errInfo (s : State) (sym : Nat) (n : Byte) :
    (s.setLen sym n).errInfo = s.errInfo := State.setByte_errInfo _ _ _ _

@[simp] theorem State.setLen_inPtr (s : State) (sym : Nat) (n : Byte) :
    (s.setLen sym n).inPtr = s.inPtr := State.setByte_inPtr _ _ _ _

@[simp] theorem State.setLen_inLimit (s : State) (sym : Nat) (n : Byte) :
    (s.setLen sym n).inLimit = s.inLimit := State.setByte_inLimit _ _ _ _

@[simp] theorem State.setLen_outPtr (s : State) (sym : Nat) (n : Byte) :
    (s.setLen sym n).outPtr = s.outPtr := State.setByte_outPtr _ _ _ _

@[simp] theorem State.setLen_accBits (s : State) (sym : Nat) (n : Byte) :
    (s.setLen sym n).accBits = s.accBits := State.setByte_accBits _ _ _ _

@[simp] theorem State.setLen_accN (s : State) (sym : Nat) (n : Byte) :
    (s.setLen sym n).accN = s.accN := State.setByte_accN _ _ _ _

@[simp] theorem State.setLen_bitCount (s : State) (sym : Nat) (n : Byte) :
    (s.setLen sym n).bitCount = s.bitCount := State.setByte_bitCount _ _ _ _

@[simp] theorem State.setLen_root (s : State) (sym : Nat) (n : Byte) :
    (s.setLen sym n).root = s.root := State.setByte_root _ _ _ _

@[simp] theorem State.setLen_rootSnap (s : State) (sym : Nat) (n : Byte) :
    (s.setLen sym n).rootSnap = s.rootSnap := State.setByte_rootSnap _ _ _ _

@[simp] theorem State.setLen_inReset (s : State) (sym : Nat) (n : Byte) :
    (s.setLen sym n).inReset = s.inReset := State.setByte_inReset _ _ _ _

@[simp] theorem State.setLen_epoch (s : State) (sym : Nat) (n : Byte) :
    (s.setLen sym n).epoch = s.epoch := State.setByte_epoch _ _ _ _

@[simp] theorem State.setLen_inputs (s : State) (sym : Nat) (n : Byte) :
    (s.setLen sym n).inputs = s.inputs := State.setByte_inputs _ _ _ _

@[simp] theorem State.setLen_turns (s : State) (sym : Nat) (n : Byte) :
    (s.setLen sym n).turns = s.turns := State.setByte_turns _ _ _ _

@[simp] theorem State.setLen_replies (s : State) (sym : Nat) (n : Byte) :
    (s.setLen sym n).replies = s.replies := State.setByte_replies _ _ _ _
@[simp] theorem State.setLen_idleSeen (s : State) (sym : Nat) (n : Byte) :
    (s.setLen sym n).idleSeen = s.idleSeen := State.setByte_idleSeen _ _ _ _

@[simp] theorem State.setLen_ctCode (s : State) (sym : Nat) (n : Byte) :
    (s.setLen sym n).ctCode = s.ctCode := rfl

@[simp] theorem State.setLen_arena (s : State) (sym : Nat) (n : Byte) :
    (s.setLen sym n).arena = s.arena := rfl

@[simp] theorem State.setLen_inBuf (s : State) (sym : Nat) (n : Byte) :
    (s.setLen sym n).inBuf = s.inBuf := rfl

@[simp] theorem State.setLen_outBuf (s : State) (sym : Nat) (n : Byte) :
    (s.setLen sym n).outBuf = s.outBuf := rfl

@[simp] theorem State.setCode_hasTree (s : State) (sym : Nat) (c : BitVec 255) :
    (s.setCode sym c).hasTree = s.hasTree := State.setBytes_hasTree _ _ _ _

@[simp] theorem State.setCode_irqEn (s : State) (sym : Nat) (c : BitVec 255) :
    (s.setCode sym c).irqEn = s.irqEn := State.setBytes_irqEn _ _ _ _

@[simp] theorem State.setCode_busy (s : State) (sym : Nat) (c : BitVec 255) :
    (s.setCode sym c).busy = s.busy := State.setBytes_busy _ _ _ _

@[simp] theorem State.setCode_done (s : State) (sym : Nat) (c : BitVec 255) :
    (s.setCode sym c).done = s.done := State.setBytes_done _ _ _ _

@[simp] theorem State.setCode_err (s : State) (sym : Nat) (c : BitVec 255) :
    (s.setCode sym c).err = s.err := State.setBytes_err _ _ _ _

@[simp] theorem State.setCode_drop (s : State) (sym : Nat) (c : BitVec 255) :
    (s.setCode sym c).drop = s.drop := State.setBytes_drop _ _ _ _

@[simp] theorem State.setCode_errCode (s : State) (sym : Nat) (c : BitVec 255) :
    (s.setCode sym c).errCode = s.errCode := State.setBytes_errCode _ _ _ _

@[simp] theorem State.setCode_lastCmd (s : State) (sym : Nat) (c : BitVec 255) :
    (s.setCode sym c).lastCmd = s.lastCmd := State.setBytes_lastCmd _ _ _ _

@[simp] theorem State.setCode_remain (s : State) (sym : Nat) (c : BitVec 255) :
    (s.setCode sym c).remain = s.remain := State.setBytes_remain _ _ _ _

@[simp] theorem State.setCode_symCount (s : State) (sym : Nat) (c : BitVec 255) :
    (s.setCode sym c).symCount = s.symCount := State.setBytes_symCount _ _ _ _

@[simp] theorem State.setCode_errInfo (s : State) (sym : Nat) (c : BitVec 255) :
    (s.setCode sym c).errInfo = s.errInfo := State.setBytes_errInfo _ _ _ _

@[simp] theorem State.setCode_inPtr (s : State) (sym : Nat) (c : BitVec 255) :
    (s.setCode sym c).inPtr = s.inPtr := State.setBytes_inPtr _ _ _ _

@[simp] theorem State.setCode_inLimit (s : State) (sym : Nat) (c : BitVec 255) :
    (s.setCode sym c).inLimit = s.inLimit := State.setBytes_inLimit _ _ _ _

@[simp] theorem State.setCode_outPtr (s : State) (sym : Nat) (c : BitVec 255) :
    (s.setCode sym c).outPtr = s.outPtr := State.setBytes_outPtr _ _ _ _

@[simp] theorem State.setCode_accBits (s : State) (sym : Nat) (c : BitVec 255) :
    (s.setCode sym c).accBits = s.accBits := State.setBytes_accBits _ _ _ _

@[simp] theorem State.setCode_accN (s : State) (sym : Nat) (c : BitVec 255) :
    (s.setCode sym c).accN = s.accN := State.setBytes_accN _ _ _ _

@[simp] theorem State.setCode_bitCount (s : State) (sym : Nat) (c : BitVec 255) :
    (s.setCode sym c).bitCount = s.bitCount := State.setBytes_bitCount _ _ _ _

@[simp] theorem State.setCode_root (s : State) (sym : Nat) (c : BitVec 255) :
    (s.setCode sym c).root = s.root := State.setBytes_root _ _ _ _

@[simp] theorem State.setCode_rootSnap (s : State) (sym : Nat) (c : BitVec 255) :
    (s.setCode sym c).rootSnap = s.rootSnap := State.setBytes_rootSnap _ _ _ _

@[simp] theorem State.setCode_inReset (s : State) (sym : Nat) (c : BitVec 255) :
    (s.setCode sym c).inReset = s.inReset := State.setBytes_inReset _ _ _ _

@[simp] theorem State.setCode_epoch (s : State) (sym : Nat) (c : BitVec 255) :
    (s.setCode sym c).epoch = s.epoch := State.setBytes_epoch _ _ _ _

@[simp] theorem State.setCode_inputs (s : State) (sym : Nat) (c : BitVec 255) :
    (s.setCode sym c).inputs = s.inputs := State.setBytes_inputs _ _ _ _

@[simp] theorem State.setCode_turns (s : State) (sym : Nat) (c : BitVec 255) :
    (s.setCode sym c).turns = s.turns := State.setBytes_turns _ _ _ _

@[simp] theorem State.setCode_replies (s : State) (sym : Nat) (c : BitVec 255) :
    (s.setCode sym c).replies = s.replies := State.setBytes_replies _ _ _ _
@[simp] theorem State.setCode_idleSeen (s : State) (sym : Nat) (c : BitVec 255) :
    (s.setCode sym c).idleSeen = s.idleSeen := State.setBytes_idleSeen _ _ _ _

/-! ### clearLens -/

@[simp] theorem State.clearLens_hasTree (s : State) : (s.clearLens).hasTree = s.hasTree := rfl

@[simp] theorem State.clearLens_irqEn (s : State) : (s.clearLens).irqEn = s.irqEn := rfl

@[simp] theorem State.clearLens_busy (s : State) : (s.clearLens).busy = s.busy := rfl

@[simp] theorem State.clearLens_done (s : State) : (s.clearLens).done = s.done := rfl

@[simp] theorem State.clearLens_err (s : State) : (s.clearLens).err = s.err := rfl

@[simp] theorem State.clearLens_drop (s : State) : (s.clearLens).drop = s.drop := rfl

@[simp] theorem State.clearLens_errCode (s : State) : (s.clearLens).errCode = s.errCode := rfl

@[simp] theorem State.clearLens_lastCmd (s : State) : (s.clearLens).lastCmd = s.lastCmd := rfl

@[simp] theorem State.clearLens_remain (s : State) : (s.clearLens).remain = s.remain := rfl

@[simp] theorem State.clearLens_symCount (s : State) : (s.clearLens).symCount = s.symCount := rfl

@[simp] theorem State.clearLens_errInfo (s : State) : (s.clearLens).errInfo = s.errInfo := rfl

@[simp] theorem State.clearLens_inPtr (s : State) : (s.clearLens).inPtr = s.inPtr := rfl

@[simp] theorem State.clearLens_inLimit (s : State) : (s.clearLens).inLimit = s.inLimit := rfl

@[simp] theorem State.clearLens_outPtr (s : State) : (s.clearLens).outPtr = s.outPtr := rfl

@[simp] theorem State.clearLens_accBits (s : State) : (s.clearLens).accBits = s.accBits := rfl

@[simp] theorem State.clearLens_accN (s : State) : (s.clearLens).accN = s.accN := rfl

@[simp] theorem State.clearLens_bitCount (s : State) : (s.clearLens).bitCount = s.bitCount := rfl

@[simp] theorem State.clearLens_root (s : State) : (s.clearLens).root = s.root := rfl

@[simp] theorem State.clearLens_rootSnap (s : State) : (s.clearLens).rootSnap = s.rootSnap := rfl

@[simp] theorem State.clearLens_inReset (s : State) : (s.clearLens).inReset = s.inReset := rfl

@[simp] theorem State.clearLens_epoch (s : State) : (s.clearLens).epoch = s.epoch := rfl

@[simp] theorem State.clearLens_inputs (s : State) : (s.clearLens).inputs = s.inputs := rfl

@[simp] theorem State.clearLens_turns (s : State) : (s.clearLens).turns = s.turns := rfl

@[simp] theorem State.clearLens_replies (s : State) : (s.clearLens).replies = s.replies := rfl
@[simp] theorem State.clearLens_idleSeen (s : State) : (s.clearLens).idleSeen = s.idleSeen := rfl

@[simp] theorem State.clearLens_ctLen (s : State) : (s.clearLens).ctLen = [] := rfl

@[simp] theorem State.clearLens_ctCode (s : State) : (s.clearLens).ctCode = s.ctCode := rfl

@[simp] theorem State.clearLens_arena (s : State) : (s.clearLens).arena = s.arena := rfl

@[simp] theorem State.clearLens_inBuf (s : State) : (s.clearLens).inBuf = s.inBuf := rfl

@[simp] theorem State.clearLens_outBuf (s : State) : (s.clearLens).outBuf = s.outBuf := rfl

/-! ### setOutput -/

@[simp] theorem State.setOutput_hasTree (s : State) (p : BitVec 16) (n : BitVec 3) (b : BitVec 8) (c : BitVec 32) : (s.setOutput p n b c).hasTree = s.hasTree := rfl

@[simp] theorem State.setOutput_irqEn (s : State) (p : BitVec 16) (n : BitVec 3) (b : BitVec 8) (c : BitVec 32) : (s.setOutput p n b c).irqEn = s.irqEn := rfl

@[simp] theorem State.setOutput_busy (s : State) (p : BitVec 16) (n : BitVec 3) (b : BitVec 8) (c : BitVec 32) : (s.setOutput p n b c).busy = s.busy := rfl

@[simp] theorem State.setOutput_done (s : State) (p : BitVec 16) (n : BitVec 3) (b : BitVec 8) (c : BitVec 32) : (s.setOutput p n b c).done = s.done := rfl

@[simp] theorem State.setOutput_err (s : State) (p : BitVec 16) (n : BitVec 3) (b : BitVec 8) (c : BitVec 32) : (s.setOutput p n b c).err = s.err := rfl

@[simp] theorem State.setOutput_drop (s : State) (p : BitVec 16) (n : BitVec 3) (b : BitVec 8) (c : BitVec 32) : (s.setOutput p n b c).drop = s.drop := rfl

@[simp] theorem State.setOutput_errCode (s : State) (p : BitVec 16) (n : BitVec 3) (b : BitVec 8) (c : BitVec 32) : (s.setOutput p n b c).errCode = s.errCode := rfl

@[simp] theorem State.setOutput_lastCmd (s : State) (p : BitVec 16) (n : BitVec 3) (b : BitVec 8) (c : BitVec 32) : (s.setOutput p n b c).lastCmd = s.lastCmd := rfl

@[simp] theorem State.setOutput_remain (s : State) (p : BitVec 16) (n : BitVec 3) (b : BitVec 8) (c : BitVec 32) : (s.setOutput p n b c).remain = s.remain := rfl

@[simp] theorem State.setOutput_symCount (s : State) (p : BitVec 16) (n : BitVec 3) (b : BitVec 8) (c : BitVec 32) : (s.setOutput p n b c).symCount = s.symCount := rfl

@[simp] theorem State.setOutput_errInfo (s : State) (p : BitVec 16) (n : BitVec 3) (b : BitVec 8) (c : BitVec 32) : (s.setOutput p n b c).errInfo = s.errInfo := rfl

@[simp] theorem State.setOutput_inPtr (s : State) (p : BitVec 16) (n : BitVec 3) (b : BitVec 8) (c : BitVec 32) : (s.setOutput p n b c).inPtr = s.inPtr := rfl

@[simp] theorem State.setOutput_inLimit (s : State) (p : BitVec 16) (n : BitVec 3) (b : BitVec 8) (c : BitVec 32) : (s.setOutput p n b c).inLimit = s.inLimit := rfl

@[simp] theorem State.setOutput_outPtr (s : State) (p : BitVec 16) (n : BitVec 3) (b : BitVec 8) (c : BitVec 32) : (s.setOutput p n b c).outPtr = p := rfl

@[simp] theorem State.setOutput_accBits (s : State) (p : BitVec 16) (n : BitVec 3) (b : BitVec 8) (c : BitVec 32) : (s.setOutput p n b c).accBits = b := rfl

@[simp] theorem State.setOutput_accN (s : State) (p : BitVec 16) (n : BitVec 3) (b : BitVec 8) (c : BitVec 32) : (s.setOutput p n b c).accN = n := rfl

@[simp] theorem State.setOutput_bitCount (s : State) (p : BitVec 16) (n : BitVec 3) (b : BitVec 8) (c : BitVec 32) : (s.setOutput p n b c).bitCount = c := rfl

@[simp] theorem State.setOutput_root (s : State) (p : BitVec 16) (n : BitVec 3) (b : BitVec 8) (c : BitVec 32) : (s.setOutput p n b c).root = s.root := rfl

@[simp] theorem State.setOutput_rootSnap (s : State) (p : BitVec 16) (n : BitVec 3) (b : BitVec 8) (c : BitVec 32) : (s.setOutput p n b c).rootSnap = s.rootSnap := rfl

@[simp] theorem State.setOutput_inReset (s : State) (p : BitVec 16) (n : BitVec 3) (b : BitVec 8) (c : BitVec 32) : (s.setOutput p n b c).inReset = s.inReset := rfl

@[simp] theorem State.setOutput_epoch (s : State) (p : BitVec 16) (n : BitVec 3) (b : BitVec 8) (c : BitVec 32) : (s.setOutput p n b c).epoch = s.epoch := rfl

@[simp] theorem State.setOutput_inputs (s : State) (p : BitVec 16) (n : BitVec 3) (b : BitVec 8) (c : BitVec 32) : (s.setOutput p n b c).inputs = s.inputs := rfl

@[simp] theorem State.setOutput_turns (s : State) (p : BitVec 16) (n : BitVec 3) (b : BitVec 8) (c : BitVec 32) : (s.setOutput p n b c).turns = s.turns := rfl

@[simp] theorem State.setOutput_replies (s : State) (p : BitVec 16) (n : BitVec 3) (b : BitVec 8) (c : BitVec 32) : (s.setOutput p n b c).replies = s.replies := rfl
@[simp] theorem State.setOutput_idleSeen (s : State) (p : BitVec 16) (n : BitVec 3) (b : BitVec 8) (c : BitVec 32) : (s.setOutput p n b c).idleSeen = s.idleSeen := rfl

@[simp] theorem State.setOutput_ctLen (s : State) (p : BitVec 16) (n : BitVec 3) (b : BitVec 8) (c : BitVec 32) : (s.setOutput p n b c).ctLen = s.ctLen := rfl

@[simp] theorem State.setOutput_ctCode (s : State) (p : BitVec 16) (n : BitVec 3) (b : BitVec 8) (c : BitVec 32) : (s.setOutput p n b c).ctCode = s.ctCode := rfl

@[simp] theorem State.setOutput_arena (s : State) (p : BitVec 16) (n : BitVec 3) (b : BitVec 8) (c : BitVec 32) : (s.setOutput p n b c).arena = s.arena := rfl

@[simp] theorem State.setOutput_inBuf (s : State) (p : BitVec 16) (n : BitVec 3) (b : BitVec 8) (c : BitVec 32) : (s.setOutput p n b c).inBuf = s.inBuf := rfl

@[simp] theorem State.setOutput_outBuf (s : State) (p : BitVec 16) (n : BitVec 3) (b : BitVec 8) (c : BitVec 32) : (s.setOutput p n b c).outBuf = s.outBuf := rfl

/-! ### setInPtr -/

@[simp] theorem State.setInPtr_hasTree (s : State) (p : BitVec 18) : (s.setInPtr p).hasTree = s.hasTree := rfl

@[simp] theorem State.setInPtr_irqEn (s : State) (p : BitVec 18) : (s.setInPtr p).irqEn = s.irqEn := rfl

@[simp] theorem State.setInPtr_busy (s : State) (p : BitVec 18) : (s.setInPtr p).busy = s.busy := rfl

@[simp] theorem State.setInPtr_done (s : State) (p : BitVec 18) : (s.setInPtr p).done = s.done := rfl

@[simp] theorem State.setInPtr_err (s : State) (p : BitVec 18) : (s.setInPtr p).err = s.err := rfl

@[simp] theorem State.setInPtr_drop (s : State) (p : BitVec 18) : (s.setInPtr p).drop = s.drop := rfl

@[simp] theorem State.setInPtr_errCode (s : State) (p : BitVec 18) : (s.setInPtr p).errCode = s.errCode := rfl

@[simp] theorem State.setInPtr_lastCmd (s : State) (p : BitVec 18) : (s.setInPtr p).lastCmd = s.lastCmd := rfl

@[simp] theorem State.setInPtr_remain (s : State) (p : BitVec 18) : (s.setInPtr p).remain = s.remain := rfl

@[simp] theorem State.setInPtr_symCount (s : State) (p : BitVec 18) : (s.setInPtr p).symCount = s.symCount := rfl

@[simp] theorem State.setInPtr_errInfo (s : State) (p : BitVec 18) : (s.setInPtr p).errInfo = s.errInfo := rfl

@[simp] theorem State.setInPtr_inPtr (s : State) (p : BitVec 18) : (s.setInPtr p).inPtr = p := rfl

@[simp] theorem State.setInPtr_inLimit (s : State) (p : BitVec 18) : (s.setInPtr p).inLimit = s.inLimit := rfl

@[simp] theorem State.setInPtr_outPtr (s : State) (p : BitVec 18) : (s.setInPtr p).outPtr = s.outPtr := rfl

@[simp] theorem State.setInPtr_accBits (s : State) (p : BitVec 18) : (s.setInPtr p).accBits = s.accBits := rfl

@[simp] theorem State.setInPtr_accN (s : State) (p : BitVec 18) : (s.setInPtr p).accN = s.accN := rfl

@[simp] theorem State.setInPtr_bitCount (s : State) (p : BitVec 18) : (s.setInPtr p).bitCount = s.bitCount := rfl

@[simp] theorem State.setInPtr_root (s : State) (p : BitVec 18) : (s.setInPtr p).root = s.root := rfl

@[simp] theorem State.setInPtr_rootSnap (s : State) (p : BitVec 18) : (s.setInPtr p).rootSnap = s.rootSnap := rfl

@[simp] theorem State.setInPtr_inReset (s : State) (p : BitVec 18) : (s.setInPtr p).inReset = s.inReset := rfl

@[simp] theorem State.setInPtr_epoch (s : State) (p : BitVec 18) : (s.setInPtr p).epoch = s.epoch := rfl

@[simp] theorem State.setInPtr_inputs (s : State) (p : BitVec 18) : (s.setInPtr p).inputs = s.inputs := rfl

@[simp] theorem State.setInPtr_turns (s : State) (p : BitVec 18) : (s.setInPtr p).turns = s.turns := rfl

@[simp] theorem State.setInPtr_replies (s : State) (p : BitVec 18) : (s.setInPtr p).replies = s.replies := rfl
@[simp] theorem State.setInPtr_idleSeen (s : State) (p : BitVec 18) : (s.setInPtr p).idleSeen = s.idleSeen := rfl

@[simp] theorem State.setInPtr_ctLen (s : State) (p : BitVec 18) : (s.setInPtr p).ctLen = s.ctLen := rfl

@[simp] theorem State.setInPtr_ctCode (s : State) (p : BitVec 18) : (s.setInPtr p).ctCode = s.ctCode := rfl

@[simp] theorem State.setInPtr_arena (s : State) (p : BitVec 18) : (s.setInPtr p).arena = s.arena := rfl

@[simp] theorem State.setInPtr_inBuf (s : State) (p : BitVec 18) : (s.setInPtr p).inBuf = s.inBuf := rfl

@[simp] theorem State.setInPtr_outBuf (s : State) (p : BitVec 18) : (s.setInPtr p).outBuf = s.outBuf := rfl

/-! ### takeError -/

@[simp] theorem State.takeError_hasTree (s : State) (e : UnitErr) : (s.takeError e).hasTree = s.hasTree := rfl

@[simp] theorem State.takeError_irqEn (s : State) (e : UnitErr) : (s.takeError e).irqEn = s.irqEn := rfl

@[simp] theorem State.takeError_busy (s : State) (e : UnitErr) : (s.takeError e).busy = false := rfl

@[simp] theorem State.takeError_done (s : State) (e : UnitErr) : (s.takeError e).done = s.done := rfl

@[simp] theorem State.takeError_err (s : State) (e : UnitErr) : (s.takeError e).err = true := rfl

@[simp] theorem State.takeError_drop (s : State) (e : UnitErr) : (s.takeError e).drop = s.drop := rfl

@[simp] theorem State.takeError_errCode (s : State) (e : UnitErr) : (s.takeError e).errCode = e.code.toBits := rfl

@[simp] theorem State.takeError_lastCmd (s : State) (e : UnitErr) : (s.takeError e).lastCmd = s.lastCmd := rfl

@[simp] theorem State.takeError_remain (s : State) (e : UnitErr) : (s.takeError e).remain = s.remain := rfl

@[simp] theorem State.takeError_symCount (s : State) (e : UnitErr) : (s.takeError e).symCount = s.symCount := rfl

@[simp] theorem State.takeError_errInfo (s : State) (e : UnitErr) : (s.takeError e).errInfo = e.info := rfl

@[simp] theorem State.takeError_inPtr (s : State) (e : UnitErr) : (s.takeError e).inPtr = s.inPtr := rfl

@[simp] theorem State.takeError_inLimit (s : State) (e : UnitErr) : (s.takeError e).inLimit = s.inLimit := rfl

@[simp] theorem State.takeError_outPtr (s : State) (e : UnitErr) : (s.takeError e).outPtr = s.outPtr := rfl

@[simp] theorem State.takeError_accBits (s : State) (e : UnitErr) : (s.takeError e).accBits = s.accBits := rfl

@[simp] theorem State.takeError_accN (s : State) (e : UnitErr) : (s.takeError e).accN = s.accN := rfl

@[simp] theorem State.takeError_bitCount (s : State) (e : UnitErr) : (s.takeError e).bitCount = s.bitCount := rfl

@[simp] theorem State.takeError_root (s : State) (e : UnitErr) : (s.takeError e).root = s.root := rfl

@[simp] theorem State.takeError_rootSnap (s : State) (e : UnitErr) : (s.takeError e).rootSnap = s.rootSnap := rfl

@[simp] theorem State.takeError_inReset (s : State) (e : UnitErr) : (s.takeError e).inReset = s.inReset := rfl

@[simp] theorem State.takeError_epoch (s : State) (e : UnitErr) : (s.takeError e).epoch = s.epoch := rfl

@[simp] theorem State.takeError_inputs (s : State) (e : UnitErr) : (s.takeError e).inputs = s.inputs := rfl

@[simp] theorem State.takeError_turns (s : State) (e : UnitErr) : (s.takeError e).turns = s.turns := rfl

@[simp] theorem State.takeError_replies (s : State) (e : UnitErr) : (s.takeError e).replies = s.replies := rfl
@[simp] theorem State.takeError_idleSeen (s : State) (e : UnitErr) : (s.takeError e).idleSeen = s.idleSeen := rfl

@[simp] theorem State.takeError_ctLen (s : State) (e : UnitErr) : (s.takeError e).ctLen = s.ctLen := rfl

@[simp] theorem State.takeError_ctCode (s : State) (e : UnitErr) : (s.takeError e).ctCode = s.ctCode := rfl

@[simp] theorem State.takeError_arena (s : State) (e : UnitErr) : (s.takeError e).arena = s.arena := rfl

@[simp] theorem State.takeError_inBuf (s : State) (e : UnitErr) : (s.takeError e).inBuf = s.inBuf := rfl

@[simp] theorem State.takeError_outBuf (s : State) (e : UnitErr) : (s.takeError e).outBuf = s.outBuf := rfl

/-! ### clearError -/

@[simp] theorem State.clearError_hasTree (s : State) : (s.clearError).hasTree = s.hasTree := rfl

@[simp] theorem State.clearError_irqEn (s : State) : (s.clearError).irqEn = s.irqEn := rfl

@[simp] theorem State.clearError_busy (s : State) : (s.clearError).busy = s.busy := rfl

@[simp] theorem State.clearError_done (s : State) : (s.clearError).done = s.done := rfl

@[simp] theorem State.clearError_err (s : State) : (s.clearError).err = false := rfl

@[simp] theorem State.clearError_drop (s : State) : (s.clearError).drop = s.drop := rfl

@[simp] theorem State.clearError_errCode (s : State) : (s.clearError).errCode = 0#4 := rfl

@[simp] theorem State.clearError_lastCmd (s : State) : (s.clearError).lastCmd = s.lastCmd := rfl

@[simp] theorem State.clearError_remain (s : State) : (s.clearError).remain = s.remain := rfl

@[simp] theorem State.clearError_symCount (s : State) : (s.clearError).symCount = s.symCount := rfl

@[simp] theorem State.clearError_errInfo (s : State) : (s.clearError).errInfo = s.errInfo := rfl

@[simp] theorem State.clearError_inPtr (s : State) : (s.clearError).inPtr = s.inPtr := rfl

@[simp] theorem State.clearError_inLimit (s : State) : (s.clearError).inLimit = s.inLimit := rfl

@[simp] theorem State.clearError_outPtr (s : State) : (s.clearError).outPtr = s.outPtr := rfl

@[simp] theorem State.clearError_accBits (s : State) : (s.clearError).accBits = s.accBits := rfl

@[simp] theorem State.clearError_accN (s : State) : (s.clearError).accN = s.accN := rfl

@[simp] theorem State.clearError_bitCount (s : State) : (s.clearError).bitCount = s.bitCount := rfl

@[simp] theorem State.clearError_root (s : State) : (s.clearError).root = s.root := rfl

@[simp] theorem State.clearError_rootSnap (s : State) : (s.clearError).rootSnap = s.rootSnap := rfl

@[simp] theorem State.clearError_inReset (s : State) : (s.clearError).inReset = s.inReset := rfl

@[simp] theorem State.clearError_epoch (s : State) : (s.clearError).epoch = s.epoch := rfl

@[simp] theorem State.clearError_inputs (s : State) : (s.clearError).inputs = s.inputs := rfl

@[simp] theorem State.clearError_turns (s : State) : (s.clearError).turns = s.turns := rfl

@[simp] theorem State.clearError_replies (s : State) : (s.clearError).replies = s.replies := rfl
@[simp] theorem State.clearError_idleSeen (s : State) : (s.clearError).idleSeen = s.idleSeen := rfl

@[simp] theorem State.clearError_ctLen (s : State) : (s.clearError).ctLen = s.ctLen := rfl

@[simp] theorem State.clearError_ctCode (s : State) : (s.clearError).ctCode = s.ctCode := rfl

@[simp] theorem State.clearError_arena (s : State) : (s.clearError).arena = s.arena := rfl

@[simp] theorem State.clearError_inBuf (s : State) : (s.clearError).inBuf = s.inBuf := rfl

@[simp] theorem State.clearError_outBuf (s : State) : (s.clearError).outBuf = s.outBuf := rfl

/-! ### complete -/

@[simp] theorem State.complete_hasTree (s : State) : (s.complete).hasTree = s.hasTree := rfl

@[simp] theorem State.complete_irqEn (s : State) : (s.complete).irqEn = s.irqEn := rfl

@[simp] theorem State.complete_busy (s : State) : (s.complete).busy = false := rfl

@[simp] theorem State.complete_done (s : State) : (s.complete).done = true := rfl

@[simp] theorem State.complete_err (s : State) : (s.complete).err = s.err := rfl

@[simp] theorem State.complete_drop (s : State) : (s.complete).drop = s.drop := rfl

@[simp] theorem State.complete_errCode (s : State) : (s.complete).errCode = s.errCode := rfl

@[simp] theorem State.complete_lastCmd (s : State) : (s.complete).lastCmd = s.lastCmd := rfl

@[simp] theorem State.complete_remain (s : State) : (s.complete).remain = s.remain := rfl

@[simp] theorem State.complete_symCount (s : State) : (s.complete).symCount = s.symCount := rfl

@[simp] theorem State.complete_errInfo (s : State) : (s.complete).errInfo = s.errInfo := rfl

@[simp] theorem State.complete_inPtr (s : State) : (s.complete).inPtr = s.inPtr := rfl

@[simp] theorem State.complete_inLimit (s : State) : (s.complete).inLimit = s.inLimit := rfl

@[simp] theorem State.complete_outPtr (s : State) : (s.complete).outPtr = s.outPtr := rfl

@[simp] theorem State.complete_accBits (s : State) : (s.complete).accBits = s.accBits := rfl

@[simp] theorem State.complete_accN (s : State) : (s.complete).accN = s.accN := rfl

@[simp] theorem State.complete_bitCount (s : State) : (s.complete).bitCount = s.bitCount := rfl

@[simp] theorem State.complete_root (s : State) : (s.complete).root = s.root := rfl

@[simp] theorem State.complete_rootSnap (s : State) : (s.complete).rootSnap = s.rootSnap := rfl

@[simp] theorem State.complete_inReset (s : State) : (s.complete).inReset = s.inReset := rfl

@[simp] theorem State.complete_epoch (s : State) : (s.complete).epoch = s.epoch := rfl

@[simp] theorem State.complete_inputs (s : State) : (s.complete).inputs = s.inputs := rfl

@[simp] theorem State.complete_turns (s : State) : (s.complete).turns = s.turns := rfl

@[simp] theorem State.complete_replies (s : State) : (s.complete).replies = s.replies := rfl
@[simp] theorem State.complete_idleSeen (s : State) : (s.complete).idleSeen = s.idleSeen := rfl

@[simp] theorem State.complete_ctLen (s : State) : (s.complete).ctLen = s.ctLen := rfl

@[simp] theorem State.complete_ctCode (s : State) : (s.complete).ctCode = s.ctCode := rfl

@[simp] theorem State.complete_arena (s : State) : (s.complete).arena = s.arena := rfl

@[simp] theorem State.complete_inBuf (s : State) : (s.complete).inBuf = s.inBuf := rfl

@[simp] theorem State.complete_outBuf (s : State) : (s.complete).outBuf = s.outBuf := rfl

/-! ### commit -/

@[simp] theorem State.commit_hasTree (s : State) : (s.commit).hasTree = s.hasTree := rfl

@[simp] theorem State.commit_irqEn (s : State) : (s.commit).irqEn = s.irqEn := rfl

@[simp] theorem State.commit_busy (s : State) : (s.commit).busy = s.busy := rfl

@[simp] theorem State.commit_done (s : State) : (s.commit).done = s.done := rfl

@[simp] theorem State.commit_err (s : State) : (s.commit).err = s.err := rfl

@[simp] theorem State.commit_drop (s : State) : (s.commit).drop = s.drop := rfl

@[simp] theorem State.commit_errCode (s : State) : (s.commit).errCode = s.errCode := rfl

@[simp] theorem State.commit_lastCmd (s : State) : (s.commit).lastCmd = s.lastCmd := rfl

@[simp] theorem State.commit_remain (s : State) : (s.commit).remain = s.remain - 1#27 := rfl

@[simp] theorem State.commit_symCount (s : State) : (s.commit).symCount = s.symCount + 1#27 := rfl

@[simp] theorem State.commit_errInfo (s : State) : (s.commit).errInfo = s.errInfo := rfl

@[simp] theorem State.commit_inPtr (s : State) : (s.commit).inPtr = s.inPtr := rfl

@[simp] theorem State.commit_inLimit (s : State) : (s.commit).inLimit = s.inLimit := rfl

@[simp] theorem State.commit_outPtr (s : State) : (s.commit).outPtr = s.outPtr := rfl

@[simp] theorem State.commit_accBits (s : State) : (s.commit).accBits = s.accBits := rfl

@[simp] theorem State.commit_accN (s : State) : (s.commit).accN = s.accN := rfl

@[simp] theorem State.commit_bitCount (s : State) : (s.commit).bitCount = s.bitCount := rfl

@[simp] theorem State.commit_root (s : State) : (s.commit).root = s.root := rfl

@[simp] theorem State.commit_rootSnap (s : State) : (s.commit).rootSnap = s.rootSnap := rfl

@[simp] theorem State.commit_inReset (s : State) : (s.commit).inReset = s.inReset := rfl

@[simp] theorem State.commit_epoch (s : State) : (s.commit).epoch = s.epoch := rfl

@[simp] theorem State.commit_inputs (s : State) : (s.commit).inputs = s.inputs := rfl

@[simp] theorem State.commit_turns (s : State) : (s.commit).turns = s.turns := rfl

@[simp] theorem State.commit_replies (s : State) : (s.commit).replies = s.replies := rfl
@[simp] theorem State.commit_idleSeen (s : State) : (s.commit).idleSeen = s.idleSeen := rfl

@[simp] theorem State.commit_ctLen (s : State) : (s.commit).ctLen = s.ctLen := rfl

@[simp] theorem State.commit_ctCode (s : State) : (s.commit).ctCode = s.ctCode := rfl

@[simp] theorem State.commit_arena (s : State) : (s.commit).arena = s.arena := rfl

@[simp] theorem State.commit_inBuf (s : State) : (s.commit).inBuf = s.inBuf := rfl

@[simp] theorem State.commit_outBuf (s : State) : (s.commit).outBuf = s.outBuf := rfl

@[simp] theorem State.setOutput_space (s : State) (p : BitVec 16) (n : BitVec 3) (b : BitVec 8) (c : BitVec 32) (sp : Space) : (s.setOutput p n b c).space sp = s.space sp := by
  cases sp <;> rfl

@[simp] theorem State.setOutput_byte (s : State) (p : BitVec 16) (n : BitVec 3) (b : BitVec 8) (c : BitVec 32) (sp : Space) (x : Nat) :
    (s.setOutput p n b c).byte sp x = s.byte sp x := by cases sp <;> rfl

@[simp] theorem State.setInPtr_space (s : State) (p : BitVec 18) (sp : Space) : (s.setInPtr p).space sp = s.space sp := by
  cases sp <;> rfl

@[simp] theorem State.setInPtr_byte (s : State) (p : BitVec 18) (sp : Space) (x : Nat) :
    (s.setInPtr p).byte sp x = s.byte sp x := by cases sp <;> rfl

@[simp] theorem State.takeError_space (s : State) (e : UnitErr) (sp : Space) : (s.takeError e).space sp = s.space sp := by
  cases sp <;> rfl

@[simp] theorem State.takeError_byte (s : State) (e : UnitErr) (sp : Space) (x : Nat) :
    (s.takeError e).byte sp x = s.byte sp x := by cases sp <;> rfl

@[simp] theorem State.complete_space (s : State) (sp : Space) : (s.complete).space sp = s.space sp := by
  cases sp <;> rfl

@[simp] theorem State.complete_byte (s : State) (sp : Space) (x : Nat) :
    (s.complete).byte sp x = s.byte sp x := by cases sp <;> rfl

@[simp] theorem State.commit_space (s : State) (sp : Space) : (s.commit).space sp = s.space sp := by
  cases sp <;> rfl

@[simp] theorem State.commit_byte (s : State) (sp : Space) (x : Nat) :
    (s.commit).byte sp x = s.byte sp x := by cases sp <;> rfl

/-! ### `noteWrite` and `performRead` -/

@[simp] theorem State.noteWrite_hasTree (s : State) (a : Addr) : (s.noteWrite a).hasTree = s.hasTree := rfl

@[simp] theorem State.noteWrite_irqEn (s : State) (a : Addr) : (s.noteWrite a).irqEn = s.irqEn := rfl

@[simp] theorem State.noteWrite_busy (s : State) (a : Addr) : (s.noteWrite a).busy = s.busy := rfl

@[simp] theorem State.noteWrite_done (s : State) (a : Addr) : (s.noteWrite a).done = s.done := rfl

@[simp] theorem State.noteWrite_err (s : State) (a : Addr) : (s.noteWrite a).err = s.err := rfl

@[simp] theorem State.noteWrite_drop (s : State) (a : Addr) : (s.noteWrite a).drop = s.drop := rfl

@[simp] theorem State.noteWrite_errCode (s : State) (a : Addr) : (s.noteWrite a).errCode = s.errCode := rfl

@[simp] theorem State.noteWrite_lastCmd (s : State) (a : Addr) : (s.noteWrite a).lastCmd = s.lastCmd := rfl

@[simp] theorem State.noteWrite_remain (s : State) (a : Addr) : (s.noteWrite a).remain = s.remain := rfl

@[simp] theorem State.noteWrite_symCount (s : State) (a : Addr) : (s.noteWrite a).symCount = s.symCount := rfl

@[simp] theorem State.noteWrite_errInfo (s : State) (a : Addr) : (s.noteWrite a).errInfo = s.errInfo := rfl

@[simp] theorem State.noteWrite_inPtr (s : State) (a : Addr) : (s.noteWrite a).inPtr = s.inPtr := rfl

@[simp] theorem State.noteWrite_inLimit (s : State) (a : Addr) : (s.noteWrite a).inLimit = s.inLimit := rfl

@[simp] theorem State.noteWrite_outPtr (s : State) (a : Addr) : (s.noteWrite a).outPtr = s.outPtr := rfl

@[simp] theorem State.noteWrite_accBits (s : State) (a : Addr) : (s.noteWrite a).accBits = s.accBits := rfl

@[simp] theorem State.noteWrite_accN (s : State) (a : Addr) : (s.noteWrite a).accN = s.accN := rfl

@[simp] theorem State.noteWrite_bitCount (s : State) (a : Addr) : (s.noteWrite a).bitCount = s.bitCount := rfl

@[simp] theorem State.noteWrite_root (s : State) (a : Addr) : (s.noteWrite a).root = s.root := rfl

@[simp] theorem State.noteWrite_rootSnap (s : State) (a : Addr) : (s.noteWrite a).rootSnap = s.rootSnap := rfl

@[simp] theorem State.noteWrite_ctLen (s : State) (a : Addr) : (s.noteWrite a).ctLen = s.ctLen := rfl

@[simp] theorem State.noteWrite_ctCode (s : State) (a : Addr) : (s.noteWrite a).ctCode = s.ctCode := rfl

@[simp] theorem State.noteWrite_arena (s : State) (a : Addr) : (s.noteWrite a).arena = s.arena := rfl

@[simp] theorem State.noteWrite_inBuf (s : State) (a : Addr) : (s.noteWrite a).inBuf = s.inBuf := rfl

@[simp] theorem State.noteWrite_outBuf (s : State) (a : Addr) : (s.noteWrite a).outBuf = s.outBuf := rfl

@[simp] theorem State.noteWrite_inReset (s : State) (a : Addr) : (s.noteWrite a).inReset = s.inReset := rfl

@[simp] theorem State.noteWrite_epoch (s : State) (a : Addr) : (s.noteWrite a).epoch = s.epoch := rfl

@[simp] theorem State.noteWrite_inputs (s : State) (a : Addr) : (s.noteWrite a).inputs = s.inputs := rfl

@[simp] theorem State.noteWrite_turns (s : State) (a : Addr) : (s.noteWrite a).turns = s.turns := rfl

@[simp] theorem State.noteWrite_replies (s : State) (a : Addr) : (s.noteWrite a).replies = s.replies := rfl

@[simp] theorem State.performRead_hasTree (s : State) (a : Addr) : (s.performRead a).hasTree = s.hasTree := rfl

@[simp] theorem State.performRead_irqEn (s : State) (a : Addr) : (s.performRead a).irqEn = s.irqEn := rfl

@[simp] theorem State.performRead_busy (s : State) (a : Addr) : (s.performRead a).busy = s.busy := rfl

@[simp] theorem State.performRead_done (s : State) (a : Addr) : (s.performRead a).done = s.done := rfl

@[simp] theorem State.performRead_err (s : State) (a : Addr) : (s.performRead a).err = s.err := rfl

@[simp] theorem State.performRead_drop (s : State) (a : Addr) : (s.performRead a).drop = s.drop := rfl

@[simp] theorem State.performRead_errCode (s : State) (a : Addr) : (s.performRead a).errCode = s.errCode := rfl

@[simp] theorem State.performRead_lastCmd (s : State) (a : Addr) : (s.performRead a).lastCmd = s.lastCmd := rfl

@[simp] theorem State.performRead_remain (s : State) (a : Addr) : (s.performRead a).remain = s.remain := rfl

@[simp] theorem State.performRead_symCount (s : State) (a : Addr) : (s.performRead a).symCount = s.symCount := rfl

@[simp] theorem State.performRead_errInfo (s : State) (a : Addr) : (s.performRead a).errInfo = s.errInfo := rfl

@[simp] theorem State.performRead_inPtr (s : State) (a : Addr) : (s.performRead a).inPtr = s.inPtr := rfl

@[simp] theorem State.performRead_inLimit (s : State) (a : Addr) : (s.performRead a).inLimit = s.inLimit := rfl

@[simp] theorem State.performRead_outPtr (s : State) (a : Addr) : (s.performRead a).outPtr = s.outPtr := rfl

@[simp] theorem State.performRead_accBits (s : State) (a : Addr) : (s.performRead a).accBits = s.accBits := rfl

@[simp] theorem State.performRead_accN (s : State) (a : Addr) : (s.performRead a).accN = s.accN := rfl

@[simp] theorem State.performRead_bitCount (s : State) (a : Addr) : (s.performRead a).bitCount = s.bitCount := rfl

@[simp] theorem State.performRead_root (s : State) (a : Addr) : (s.performRead a).root = s.root := rfl

@[simp] theorem State.performRead_rootSnap (s : State) (a : Addr) : (s.performRead a).rootSnap = s.rootSnap := rfl

@[simp] theorem State.performRead_ctLen (s : State) (a : Addr) : (s.performRead a).ctLen = s.ctLen := rfl

@[simp] theorem State.performRead_ctCode (s : State) (a : Addr) : (s.performRead a).ctCode = s.ctCode := rfl

@[simp] theorem State.performRead_arena (s : State) (a : Addr) : (s.performRead a).arena = s.arena := rfl

@[simp] theorem State.performRead_inBuf (s : State) (a : Addr) : (s.performRead a).inBuf = s.inBuf := rfl

@[simp] theorem State.performRead_outBuf (s : State) (a : Addr) : (s.performRead a).outBuf = s.outBuf := rfl

@[simp] theorem State.performRead_inReset (s : State) (a : Addr) : (s.performRead a).inReset = s.inReset := rfl

@[simp] theorem State.performRead_epoch (s : State) (a : Addr) : (s.performRead a).epoch = s.epoch := rfl

@[simp] theorem State.performRead_inputs (s : State) (a : Addr) : (s.performRead a).inputs = s.inputs := rfl

@[simp] theorem State.performRead_turns (s : State) (a : Addr) : (s.performRead a).turns = s.turns := rfl

end Sys2Proof.Machine
end

