-- ==== Sys2Proof/Laws/Ops.lean ====
section
/-!
SUPPORT. For each shared operation of Machine/Ops.lean, what it can do: reads after writes, the two bit-stream
primitives, and the engine step.
-/

namespace Sys2Proof.Machine

/-! ### Bytes -/

theorem State.space_withSpace (s : State) (sp q : Space) (m : Memory) :
    (s.withSpace sp m).space q = if q = sp then m else s.space q := by
  cases sp <;> cases q <;> rfl

theorem State.space_setByte (s : State) (sp q : Space) (a : Nat) (v : Byte) :
    (s.setByte sp a v).space q =
      if q = sp then (s.space sp).write sp.unlisted a (v &&& sp.mask a) else s.space q :=
  State.space_withSpace _ _ _ _

theorem State.space_setBytes_ne (s : State) (sp q : Space) (a : Nat) (vs : List Byte) (h : q ≠ sp) :
    (s.setBytes sp a vs).space q = s.space q := by
  induction vs generalizing s a with
  | nil => rfl
  | cons v vs ih => rw [State.setBytes, ih, State.space_setByte, if_neg h]

/-- A byte read depends on its space and the epoch only. -/
theorem State.byte_congr {s t : State} {sp : Space} (h : t.space sp = s.space sp) (he : t.epoch = s.epoch) (a : Nat) :
    t.byte sp a = s.byte sp a := by
  simp only [State.byte, h, he]

/-- A read after a write of one byte: the bits written that exist there, and every other byte is unchanged. -/
theorem State.byte_setByte (s : State) (sp q : Space) (a b : Nat) (v : Byte) :
    (s.setByte sp a v).byte q b = if q = sp ∧ a = b then v &&& sp.mask a else s.byte q b := by
  by_cases hq : q = sp
  · subst q
    simp only [State.byte, State.space_setByte, if_true, true_and, State.setByte_epoch, Memory.get?_write]
    by_cases hb : a = b
    · subst b
      simp only [if_true]
      by_cases hd : sp.unlisted = some (v &&& sp.mask a)
      · rw [if_pos hd]
        have := hd
        simp only [Space.fresh, hd]
      · rw [if_neg hd]
    · simp [hb]
  · rw [if_neg (by simp [hq])]
    exact State.byte_congr (by rw [State.space_setByte, if_neg hq]) (State.setByte_epoch _ _ _ _) b

theorem State.byte_setBytes_ne (s : State) (sp q : Space) (a b : Nat) (vs : List Byte)
    (h : q ≠ sp ∨ b < a ∨ a + vs.length ≤ b) : (s.setBytes sp a vs).byte q b = s.byte q b := by
  induction vs generalizing s a with
  | nil => rfl
  | cons v vs ih =>
    rw [List.length_cons] at h
    rw [State.setBytes, ih _ _ (h.imp_right fun h => by omega), State.byte_setByte, if_neg]
    rintro ⟨rfl, rfl⟩
    rcases h with h | h | h
    · exact h rfl
    · omega
    · omega

theorem State.byte_setBytes (s : State) (sp : Space) (a j : Nat) (vs : List Byte) (h : j < vs.length) :
    (s.setBytes sp a vs).byte sp (a + j) = vs[j] &&& sp.mask (a + j) := by
  induction vs generalizing s a j with
  | nil => simp at h
  | cons v vs ih =>
    rw [State.setBytes]
    cases j with
    | zero =>
      rw [State.byte_setBytes_ne _ _ _ _ _ _ (by simp), State.byte_setByte]
      simp
    | succ j =>
      have := ih (s.setByte sp a v) (a + 1) j (by simpa using h)
      rw [show a + (j + 1) = a + 1 + j by omega]
      simpa using this

@[simp] theorem State.length_bytes (s : State) (sp : Space) (a n : Nat) : (s.bytes sp a n).length = n := by
  simp [State.bytes]

theorem State.bytes_congr {s t : State} {sp : Space} {a n : Nat}
    (h : ∀ j, j < n → t.byte sp (a + j) = s.byte sp (a + j)) : t.bytes sp a n = s.bytes sp a n := by
  simp only [State.bytes]
  apply List.map_congr_left
  intro j hj
  exact h j (List.mem_range.1 hj)

theorem State.bytes_add (s : State) (sp : Space) (a m n : Nat) :
    s.bytes sp a (m + n) = s.bytes sp a m ++ s.bytes sp (a + m) n := by
  simp only [State.bytes, List.range_add, List.map_append, List.map_map]
  congr 1
  apply List.map_congr_left
  intro j _
  simp [Nat.add_assoc]

@[simp] theorem State.len_setLen (s : State) (a b : Nat) (n : Byte) :
    (s.setLen a n).len b = if a = b then n else s.len b := by
  have hm : n &&& Space.mask .ctLen a = n := by simp only [Space.mask]; exact BitVec.and_allOnes
  simp only [State.setLen, State.len, State.byte_setByte, true_and, hm]

@[simp] theorem State.len_clearLens (s : State) (a : Nat) : s.clearLens.len a = 0 := rfl

@[simp] theorem State.len_setCode (s : State) (a b : Nat) (c : BitVec 255) : (s.setCode a c).len b = s.len b :=
  State.byte_setBytes_ne _ _ _ _ _ _ (.inl (by decide))

@[simp] theorem State.code_setLen (s : State) (a b : Nat) (n : Byte) : (s.setLen a n).code b = s.code b := rfl

@[simp] theorem State.code_clearLens (s : State) (a : Nat) : s.clearLens.code a = s.code a := rfl

theorem State.code_setCode_ne (s : State) {a b : Nat} (c : BitVec 255) (h : a ≠ b) :
    (s.setCode a c).code b = s.code b := by
  simp only [State.code]
  rw [State.bytes_congr (t := s.setCode a c) (s := s)]
  intro j hj
  exact State.byte_setBytes_ne _ _ _ _ _ _ (.inr (by simp; omega))

/-- The masks of a CODE's 32 bytes take the 256th bit away and nothing else. -/
theorem leNat_mask (v : Nat) (a : Nat) (hv : v < 2 ^ 255) (ha : a % 32 = 0) :
    leNat ((List.range 32).map fun j => ((leBytes 32 v).getD j 0) &&& Space.mask .ctCode (a + j)) = v := by
  have hget : ∀ n v j, j < n → (leBytes n v).getD j 0 = BitVec.ofNat 8 (v / 256 ^ j) := by
    intro n
    induction n with
    | zero => intro v j h; omega
    | succ n ih =>
      intro v j h
      cases j with
      | zero => simp [leBytes]
      | succ j =>
        simp only [leBytes, List.getD_cons_succ]
        rw [ih _ _ (by omega), Nat.div_div_eq_div_mul, Nat.pow_succ']
  have hmask : ∀ j, j < 32 → (leBytes 32 v).getD j 0 &&& Space.mask .ctCode (a + j) = (leBytes 32 v).getD j 0 := by
    intro j hj
    simp only [Space.mask]
    split
    · have hj31 : j = 31 := by omega
      subst hj31
      rw [hget 32 v 31 (by omega)]
      have hlt : v / 256 ^ 31 < 128 := by
        apply Nat.div_lt_of_lt_mul
        calc v < 2 ^ 255 := hv
          _ = 256 ^ 31 * 128 := by norm_num
      apply BitVec.eq_of_toNat_eq
      rw [BitVec.toNat_and, BitVec.toNat_ofNat, Nat.mod_eq_of_lt (by omega)]
      show v / 256 ^ 31 &&& (2 ^ 7 - 1) = _
      rw [Nat.and_two_pow_sub_one_eq_mod, Nat.mod_eq_of_lt (by omega)]
    · exact BitVec.and_allOnes
  have hlist : (List.range 32).map (fun j => ((leBytes 32 v).getD j 0) &&& Space.mask .ctCode (a + j)) = leBytes 32 v := by
    apply List.ext_getElem
    · simp
    · intro j h1 h2
      simp only [List.getElem_map, List.getElem_range]
      rw [hmask j (by simpa using h1)]
      exact List.getD_eq_getElem _ _ h2
  rw [hlist, leNat_leBytes, Nat.mod_eq_of_lt]
  exact lt_of_lt_of_le hv (by norm_num)

@[simp] theorem State.code_setCode (s : State) (a : Nat) (c : BitVec 255) : (s.setCode a c).code a = c := by
  have h : (s.setCode a c).bytes .ctCode (32 * a) 32 =
      (List.range 32).map fun j => ((leBytes 32 c.toNat).getD j 0) &&& Space.mask .ctCode (32 * a + j) := by
    simp only [State.bytes]
    apply List.map_congr_left
    intro j hj
    have hj : j < (leBytes 32 c.toNat).length := by simpa using hj
    rw [State.setCode, State.byte_setBytes _ _ _ _ _ hj, List.getD_eq_getElem _ _ hj]
  simp only [State.code, h]
  rw [leNat_mask _ _ c.isLt (by omega), BitVec.ofNat_toNat, BitVec.setWidth_eq]

/-- The code of a symbol is LEN bits long (R40). -/
@[simp] theorem State.length_codeBits (s : State) (sym : Nat) : (s.codeBits sym).length = (s.len sym).toNat := by
  simp [State.codeBits]

/-! ### Fetch and Emit -/

/-- Fetch answers exactly when the bits asked for are below the limit, and then gives them (R64). -/
theorem State.fetch_eq_ok {s : State} {p k : Nat} (h : p + k ≤ 8 * s.effLimit) :
    s.fetch p k = .ok ((List.range k).map fun j => s.inBit (p + j)) := by
  simp [State.fetch, Nat.not_lt.2 h]

theorem State.fetch_eq_error {s : State} {p k : Nat} (h : 8 * s.effLimit < p + k) :
    s.fetch p k = .error ⟨.inExhausted, BitVec.ofNat 32 k⟩ := by
  simp [State.fetch, h]

@[simp] theorem State.length_pendingBits (s : State) : s.pendingBits.length = s.accN.toNat := by
  have := s.accN.isLt
  simp [State.pendingBits]
  omega

theorem State.length_pending_append (s : State) (w : Bits) :
    (s.pendingBits ++ w).length = s.accN.toNat + w.length := by simp

/-- The pending bits of an accumulator that holds the string `r`, left-aligned and zero-filled (R36, R65). -/
theorem pendingBits_of {t : State} {r : Bits} (hr : r.length < 8) (hn : t.accN = BitVec.ofNat 3 r.length)
    (hb : t.accBits = BitVec.ofNat 8 (val (r ++ List.replicate (8 - r.length) false))) : t.pendingBits = r := by
  have hlen : (r ++ List.replicate (8 - r.length) false).length = 8 := by simp; omega
  rw [State.pendingBits, hb, bitsOf_byte_val hlen, hn, BitVec.toNat_ofNat, Nat.mod_eq_of_lt (by omega)]
  simp

/-- A left-aligned, zero-filled accumulator has no bit below its pending ones (R36). -/
theorem accLow_of {r : Bits} (hr : r.length < 8) :
    BitVec.ofNat 8 (val (r ++ List.replicate (8 - r.length) false)) &&& accMask (BitVec.ofNat 3 r.length) =
      BitVec.ofNat 8 (val (r ++ List.replicate (8 - r.length) false)) := by
  have hv : val (r ++ List.replicate (8 - r.length) false) = val r * 2 ^ (8 - r.length) := by
    rw [val_append, val_replicate_false]; simp
  rw [hv]
  apply BitVec.eq_of_getLsbD_eq
  intro j hj
  simp only [accMask, BitVec.getLsbD_and, BitVec.getLsbD_ofNat, BitVec.getLsbD_shiftLeft, BitVec.toNat_ofNat,
    Nat.mod_eq_of_lt (show r.length < 2 ^ 3 by omega), Nat.testBit_mul_two_pow]
  by_cases hlt : j < 8 - r.length
  · simp [hlt, Nat.not_le.2 hlt]
  · have hk : j - (8 - r.length) < 8 := by omega
    have : Nat.testBit 255 (j - (8 - r.length)) = true := by
      interval_cases (j - (8 - r.length)) <;> decide
    simp [hj, hlt, this, hk]

/-- Emit answers unless it completes bytes past OUT_SIZE (R65). -/
theorem State.emitBits_cases (s : State) (w : Bits) :
    (0 < s.bytesDue w.length ∧ Config.outSize < s.outPtr.toNat + s.bytesDue w.length ∧
      s.emitBits w = .error ⟨.outOverflow, BitVec.ofNat 32 (s.bytesDue w.length)⟩) ∨
    (s.Room w.length ∧ ∃ t, s.emitBits w = .ok t) := by
  simp only [State.emitBits, State.length_pending_append, State.Room, State.bytesDue]
  split
  · rename_i h; exact .inl ⟨h.1, h.2, rfl⟩
  · exact .inr ⟨by omega, _, rfl⟩

/-- The bytes a write of consecutive bytes of OUT leaves there. -/
theorem State.bytes_setBytes_outBuf (s : State) (a : Nat) (vs : List Byte) :
    (s.setBytes .outBuf a vs).bytes .outBuf a vs.length = vs := by
  apply List.ext_getElem
  · simp
  · intro j h1 h2
    simp only [State.bytes, List.getElem_map, List.getElem_range]
    rw [State.byte_setBytes _ _ _ _ _ h2]
    exact BitVec.and_allOnes

theorem toNat_add_ofNat_of_lt {n : Nat} {x : BitVec n} {k : Nat} (h : x.toNat + k < 2 ^ n) :
    (x + BitVec.ofNat n k).toNat = x.toNat + k := by
  rw [BitVec.toNat_add, BitVec.toNat_ofNat, Nat.add_mod_mod, Nat.mod_eq_of_lt h]

/-- OUT_PTR does not wrap when an Emit succeeds (R35, R65). -/
theorem State.outPtr_add_bytesDue {s : State} {k : Nat} (h : s.Room k) :
    (s.outPtr + BitVec.ofNat 16 (s.bytesDue k)).toNat = s.outPtr.toNat + s.bytesDue k := by
  apply toNat_add_ofNat_of_lt
  have := s.outPtr.isLt
  rcases h with h | h
  · omega
  · exact lt_of_le_of_lt h (by decide)

/-- Emit says what it did (R65): the string is appended to the output stream and nothing else is written. -/
theorem State.emitBits_ok {s t : State} {w : Bits} (h : s.emitBits w = .ok t) :
    s.Room w.length ∧ Appended s t w ∧
      ∃ n b, t = (s.setBytes .outBuf s.outPtr.toNat
        (packBytes (s.bytesDue w.length) (s.pendingBits ++ w))).setOutput
          (s.outPtr + BitVec.ofNat 16 (s.bytesDue w.length)) n b (s.bitCount + BitVec.ofNat 32 w.length) := by
  have hroom : s.Room w.length := by
    rcases s.emitBits_cases w with ⟨-, -, he⟩ | ⟨hr, -⟩
    · rw [he] at h; cases h
    · exact hr
  simp only [State.emitBits, State.length_pending_append] at h
  split at h
  · cases h
  injection h with h
  have hdue : (s.accN.toNat + w.length) / 8 = s.bytesDue w.length := rfl
  have hptr := State.outPtr_add_bytesDue hroom
  rw [hdue] at h
  refine ⟨hroom, ?_, _, _, h.symm⟩
  generalize hstr : s.pendingBits ++ w = str at h
  have hlen : str.length = s.accN.toNat + w.length := by rw [← hstr]; simp
  have hle : 8 * s.bytesDue w.length ≤ str.length := by rw [hlen, ← hdue]; omega
  generalize hnb : s.bytesDue w.length = nb at h hptr hle
  have hrest : (str.drop (8 * nb)).length = (s.accN.toNat + w.length) % 8 := by
    rw [List.length_drop, hlen]; omega
  have hlt : (str.drop (8 * nb)).length < 8 := by omega
  rw [← hrest] at h
  have hpend : t.pendingBits = str.drop (8 * nb) := pendingBits_of hlt (by rw [← h]; rfl) (by rw [← h]; rfl)
  have hold : ∀ a, a < s.outPtr.toNat ∨ s.outPtr.toNat + nb ≤ a → t.byte .outBuf a = s.byte .outBuf a := by
    intro a ha
    rw [← h, State.setOutput_byte]
    exact State.byte_setBytes_ne _ _ _ _ _ _ (.inr (by simpa using ha))
  have hnew : t.bytes .outBuf s.outPtr.toNat nb = packBytes nb str := by
    have := State.bytes_setBytes_outBuf s s.outPtr.toNat (packBytes nb str)
    rw [length_packBytes] at this
    rw [← this, ← h]
    exact State.bytes_congr fun j _ => State.setOutput_byte _ _ _ _ _ _ _
  refine ⟨fun o ho => ?_, by rw [← h, hnb]; rfl, ?_, ?_, by rw [← h]; rfl, by rw [hnb]; exact hold⟩
  · have hout : t.outPtr.toNat = s.outPtr.toNat + nb := by rw [← h]; exact hptr
    simp only [State.outStream, hpend, hout]
    rw [show s.outPtr.toNat + nb - o = (s.outPtr.toNat - o) + nb by omega, State.bytes_add, List.flatMap_append,
      show o + (s.outPtr.toNat - o) = s.outPtr.toNat by omega, hnew, flatMap_packBytes _ _ hle,
      State.bytes_congr (s := s) fun j hj => hold _ (by omega), List.append_assoc, List.take_append_drop, ← hstr,
      List.append_assoc]
  · rw [← h, State.setOutput_accN, BitVec.toNat_ofNat, Nat.mod_eq_of_lt (by omega), hrest]
  · rw [← h]
    exact accLow_of hlt

/-- Emit succeeds when there is room (R65). -/
theorem State.emitBits_of_room {s : State} {w : Bits} (h : s.Room w.length) : ∃ t, s.emitBits w = .ok t := by
  rcases s.emitBits_cases w with ⟨h1, h2, -⟩ | ⟨-, ht⟩
  · rcases h with h | h <;> omega
  · exact ht

/-! ### The engine step -/

/-- An engine step is the completion step, a unit that commits, or the entry of the unit's error (R66). -/
theorem State.engineStep_cases (s : State) (unit : State → Except UnitErr State) :
    (s.remain = 0#27 ∧ s.engineStep unit = s.complete) ∨
    (s.remain ≠ 0#27 ∧ ∃ t, unit s = .ok t ∧ s.engineStep unit = t.commit) ∨
    (s.remain ≠ 0#27 ∧ ∃ e, unit s = .error e ∧ s.engineStep unit = s.takeError e) := by
  unfold State.engineStep
  by_cases h : s.remain = 0#27
  · simp [h]
  · cases hu : unit s <;> simp [h]

/-- A meaning always answers a next state: the step of the running command, or the CMD write (R26, R66). -/
theorem runCommand_eq (w : Word) (unit : State → Except UnitErr State) (s : State) :
    runCommand w unit s = .next (if s.busy then s.engineStep unit else s.writeCmd w) := rfl

/-- While BUSY = 1 and a unit remains, a unit that succeeds commits (R66). -/
theorem runCommand_ok {w : Word} {unit : State → Except UnitErr State} {s t : State} (h : s.AtUnit)
    (hu : unit s = .ok t) : runCommand w unit s = .next t.commit := by
  simp [runCommand, State.engineStep, h.1, h.2, hu]

/-- While BUSY = 1 and a unit remains, a unit that fails takes its error and nothing it wrote is kept (R66). -/
theorem runCommand_error {w : Word} {unit : State → Except UnitErr State} {s : State} {e : UnitErr} (h : s.AtUnit)
    (hu : unit s = .error e) : runCommand w unit s = .next (s.takeError e) := by
  simp [runCommand, State.engineStep, h.1, h.2, hu]

/-- While BUSY = 1 and no unit remains, the command completes (R66). -/
theorem runCommand_complete {w : Word} {unit : State → Except UnitErr State} {s : State} (h : s.busy = true)
    (hr : s.remain = 0#27) : runCommand w unit s = .next s.complete := by
  simp [runCommand, State.engineStep, h, hr]

end Sys2Proof.Machine
end

