-- ==== Sys2Proof/Laws/Assign.lean ====
section
/-!
SUPPORT. What ASSIGN's walk does (spec 40_code_table.md R102): it succeeds exactly on an arena that holds a tree of
depth at most 255 with no symbol twice, and then each leaf's symbol has the path to it as its code.
-/

namespace Sys2Proof.Machine

/-! ### Entries -/

/-- `CT[sym].LEN <- |w|; CT[sym].CODE <- val(w)`. Irreducible, so that no unifier unfolds its 33 byte writes. -/
@[irreducible] def State.setEntry (s : State) (sym : Nat) (w : Bits) : State :=
  (s.setLen sym (BitVec.ofNat 8 w.length)).setCode sym (BitVec.ofNat 255 (val w))

theorem State.setEntry_def (s : State) (sym : Nat) (w : Bits) :
    s.setEntry sym w = (s.setLen sym (BitVec.ofNat 8 w.length)).setCode sym (BitVec.ofNat 255 (val w)) := by
  unfold State.setEntry; rfl

/-- Entries written in order. -/
def State.setEntries (s : State) : List (Byte × Bits) → State
  | [] => s
  | x :: xs => (s.setEntry x.1.toNat x.2).setEntries xs

theorem State.setEntries_append (s : State) (xs ys : List (Byte × Bits)) :
    s.setEntries (xs ++ ys) = (s.setEntries xs).setEntries ys := by
  induction xs generalizing s with
  | nil => rfl
  | cons x xs ih => exact ih _

theorem State.len_setEntry (s : State) (a b : Nat) (w : Bits) :
    (s.setEntry a w).len b = if a = b then BitVec.ofNat 8 w.length else s.len b := by
  simp [State.setEntry_def]

theorem State.code_setEntry_ne (s : State) {a b : Nat} (w : Bits) (h : a ≠ b) : (s.setEntry a w).code b = s.code b := by
  rw [State.setEntry_def, State.code_setCode_ne _ _ h, State.code_setLen]

/-- The entry just written has the string as its code. -/
theorem State.codeBits_setEntry (s : State) (a : Nat) {w : Bits} (hw : w.length ≤ 255) :
    (s.setEntry a w).codeBits a = w := by
  have hl : (s.setEntry a w).len a = BitVec.ofNat 8 w.length := by simp [State.len_setEntry]
  have hc : (s.setEntry a w).code a = BitVec.ofNat 255 (val w) := by rw [State.setEntry_def, State.code_setCode]
  have hv : val w < 2 ^ 255 := lt_of_lt_of_le (val_lt w) (Nat.pow_le_pow_right (by norm_num) hw)
  rw [State.codeBits, hl, hc, BitVec.toNat_ofNat, BitVec.toNat_ofNat, Nat.mod_eq_of_lt (show w.length < 2 ^ 8 by omega),
    Nat.mod_eq_of_lt hv, bitsOf_mod, bitsOf_val]

theorem State.codeBits_congr {s t : State} {a : Nat} (hl : t.len a = s.len a) (hc : t.code a = s.code a) :
    t.codeBits a = s.codeBits a := by
  simp only [State.codeBits, hl, hc]

/-- What an entry leaves alone. -/
theorem State.setEntry_space (s : State) (a : Nat) (w : Bits) {sp : Space} (h1 : sp ≠ .ctLen) (h2 : sp ≠ .ctCode) :
    (s.setEntry a w).space sp = s.space sp := by
  rw [State.setEntry_def, State.setCode, State.space_setBytes_ne _ _ _ _ _ h2, State.setLen, State.space_setByte, if_neg h1]

theorem State.setEntry_epoch (s : State) (a : Nat) (w : Bits) : (s.setEntry a w).epoch = s.epoch := by
  simp [State.setEntry_def]

theorem State.setEntries_space (s : State) (xs : List (Byte × Bits)) {sp : Space} (h1 : sp ≠ .ctLen) (h2 : sp ≠ .ctCode) :
    (s.setEntries xs).space sp = s.space sp := by
  induction xs generalizing s with
  | nil => rfl
  | cons x xs ih => rw [State.setEntries, ih, State.setEntry_space _ _ _ h1 h2]

theorem State.setEntries_epoch (s : State) (xs : List (Byte × Bits)) : (s.setEntries xs).epoch = s.epoch := by
  induction xs generalizing s with
  | nil => rfl
  | cons x xs ih => rw [State.setEntries, ih, State.setEntry_epoch]

theorem State.setEntries_node (s : State) (xs : List (Byte × Bits)) (i : Nat) : (s.setEntries xs).node i = s.node i := by
  simp only [State.node, State.word]
  rw [State.bytes_congr (t := s.setEntries xs) (s := s)]
  intro j _
  exact State.byte_congr (s.setEntries_space xs (by decide) (by decide)) (s.setEntries_epoch xs) _

/-- A symbol no entry names keeps its LEN. -/
theorem State.len_setEntries_of_not_mem (s : State) {xs : List (Byte × Bits)} {a : Nat}
    (h : ∀ x ∈ xs, x.1.toNat ≠ a) : (s.setEntries xs).len a = s.len a := by
  induction xs generalizing s with
  | nil => rfl
  | cons x xs ih =>
    rw [State.setEntries, ih _ (fun y hy => h y (List.mem_cons_of_mem _ hy)), State.len_setEntry,
      if_neg (h x (by simp))]

/-- A symbol no entry names keeps its CODE. -/
theorem State.code_setEntries_of_not_mem (s : State) {xs : List (Byte × Bits)} {a : Nat}
    (h : ∀ x ∈ xs, x.1.toNat ≠ a) : (s.setEntries xs).code a = s.code a := by
  induction xs generalizing s with
  | nil => rfl
  | cons x xs ih =>
    rw [State.setEntries, ih _ (fun y hy => h y (List.mem_cons_of_mem _ hy)),
      State.code_setEntry_ne _ _ (h x (by simp))]

/-- Each entry's symbol ends with the entry's string, when no symbol is named twice. -/
theorem State.setEntries_mem (s : State) {xs : List (Byte × Bits)} (hn : (xs.map Prod.fst).Nodup)
    {x : Byte × Bits} (hx : x ∈ xs) (hl : x.2.length ≤ 255) :
    (s.setEntries xs).len x.1.toNat = BitVec.ofNat 8 x.2.length ∧ (s.setEntries xs).codeBits x.1.toNat = x.2 := by
  induction xs generalizing s with
  | nil => simp at hx
  | cons y xs ih =>
    rw [List.map_cons, List.nodup_cons] at hn
    rcases List.mem_cons.1 hx with rfl | hx
    · have hno : ∀ z ∈ xs, z.1.toNat ≠ x.1.toNat := fun z hz he =>
        hn.1 (List.mem_map.2 ⟨z, hz, BitVec.eq_of_toNat_eq he⟩)
      rw [State.setEntries, State.len_setEntries_of_not_mem _ hno,
        State.codeBits_congr (State.len_setEntries_of_not_mem _ hno) (State.code_setEntries_of_not_mem _ hno),
        State.codeBits_setEntry _ _ hl]
      simp [State.len_setEntry]
    · exact ih _ hn.2 hx

/-! ### Trees -/

theorem CodeTree.paths_fst (T : CodeTree) : T.paths.map Prod.fst = T.symbols := by
  induction T with
  | leaf sym => rfl
  | node l r ihl ihr => simp [CodeTree.paths, CodeTree.symbols, List.map_map, Function.comp_def, ← ihl, ← ihr]

theorem CodeTree.codes_fst (T : CodeTree) : T.codes.map Prod.fst = T.symbols := by
  cases T with
  | leaf sym => rfl
  | node l r => exact CodeTree.paths_fst _

theorem CodeTree.length_le_depth {T : CodeTree} {x : Byte × Bits} (h : x ∈ T.paths) : x.2.length ≤ T.depth := by
  induction T generalizing x with
  | leaf sym => simp [CodeTree.paths] at h; subst h; simp
  | node l r ihl ihr =>
    simp only [CodeTree.paths, List.mem_append, List.mem_map] at h
    simp only [CodeTree.depth]
    rcases h with ⟨y, hy, rfl⟩ | ⟨y, hy, rfl⟩
    · have := ihl hy; simp only [List.length_cons]; omega
    · have := ihr hy; simp only [List.length_cons]; omega

theorem State.HoldsTree.congr {s t : State} {i : Nat} {T : CodeTree} (hn : ∀ i, t.node i = s.node i)
    (h : s.HoldsTree i T) : t.HoldsTree i T := by
  induction T generalizing i with
  | leaf sym => simpa only [State.HoldsTree, hn] using h
  | node l r ihl ihr =>
    simp only [State.HoldsTree, hn] at h ⊢
    exact ⟨h.1, h.2.1, h.2.2.1, ihl h.2.2.2.1, ihr h.2.2.2.2⟩

/-- Entries whose strings get a common string in front. -/
def underPath (u : Bits) (xs : List (Byte × Bits)) : List (Byte × Bits) := xs.map fun x => (x.1, u ++ x.2)

theorem underPath_node (u : Bits) (l r : CodeTree) :
    underPath u (CodeTree.node l r).paths = underPath (u ++ [false]) l.paths ++ underPath (u ++ [true]) r.paths := by
  simp [underPath, CodeTree.paths, List.map_map, Function.comp_def]

theorem visit_leaf {s : State} {fuel i d v : Nat} (hi : i < Config.arenaNodes) (hl : nodeIsLeaf (s.node i) = true) :
    visit fuel i d v s = assignLeaf i d v (s.node i) s := by
  cases fuel <;> simp [visit, Nat.not_le.2 hi, hl]

/-- The walk of a held tree below depth 0 writes one entry per leaf, its path (R102). -/
theorem visit_holds {s : State} {fuel i : Nat} {u : Bits} {T : CodeTree} (hT : s.HoldsTree i T) (hd : T.depth ≤ fuel)
    (hf : fuel + u.length = 255) (hu : u ≠ [] ∨ T.depth ≠ 0) (hn : T.symbols.Nodup)
    (hz : ∀ a ∈ T.symbols, s.len a.toNat = 0#8) :
    visit fuel i u.length (val u) s = .ok (s.setEntries (underPath u T.paths)) := by
  induction T generalizing s fuel i u with
  | leaf sym =>
    obtain ⟨h1, h2, h3, h4⟩ := hT
    have hlen : u.length ≠ 0 := by simpa [CodeTree.depth] using hu
    rw [visit_leaf h1 h2, assignLeaf, h4, if_neg (by simp [h3]), if_neg (by simpa using hz sym (by simp [CodeTree.symbols])),
      if_neg hlen]
    simp [underPath, CodeTree.paths, State.setEntries, State.setEntry_def]
  | node l r ihl ihr =>
    obtain ⟨h1, h2, h3, h4, h5⟩ := hT
    simp only [CodeTree.depth] at hd
    obtain ⟨fuel, rfl⟩ : ∃ f, fuel = f + 1 := ⟨fuel - 1, by omega⟩
    simp only [CodeTree.symbols, List.nodup_append] at hn
    obtain ⟨hnl, hnr, hdis⟩ := hn
    have hvl : 2 * val u = val (u ++ [false]) := by simp [val_append_singleton]
    have hvr : 2 * val u + 1 = val (u ++ [true]) := by simp [val_append_singleton]
    have hL := ihl (s := s) (fuel := fuel) (u := u ++ [false]) h4 (by omega) (by simp; omega) (by simp) hnl
      (fun a ha => hz a (by simp [CodeTree.symbols, ha]))
    have hR := ihr (s := s.setEntries (underPath (u ++ [false]) l.paths)) (fuel := fuel) (u := u ++ [true])
      (State.HoldsTree.congr (s.setEntries_node _) h5) (by omega) (by simp; omega) (by simp) hnr (fun a ha => by
        rw [State.len_setEntries_of_not_mem]
        · exact hz a (by simp [CodeTree.symbols, ha])
        · intro x hx he
          obtain ⟨y, hy, rfl⟩ := List.mem_map.1 hx
          have hmem : y.1 ∈ l.symbols := by rw [← CodeTree.paths_fst]; exact List.mem_map_of_mem hy
          exact hdis _ hmem _ ha (BitVec.eq_of_toNat_eq he))
    simp only [List.length_append, List.length_singleton] at hL hR
    have hi : ¬Config.arenaNodes ≤ i := Nat.not_le.2 h1
    rw [visit, if_neg hi]
    dsimp only
    rw [if_neg (by simp [h2]), if_neg (by simp [h3]), hvl, hL]
    dsimp only
    rw [← hvl, hvr, hR, underPath_node, State.setEntries_append]

/-- The ASSIGN unit on a held tree (R102). -/
theorem assignUnit_holds {s : State} {T : CodeTree} (hT : s.HoldsTree s.rootSnap.toNat T) (hd : T.depth ≤ Config.lMax)
    (hn : T.symbols.Nodup) : assignUnit s = .ok (s.clearLens.setEntries T.codes) := by
  have hT' : s.clearLens.HoldsTree s.rootSnap.toNat T := State.HoldsTree.congr (s := s) (fun i => rfl) hT
  cases T with
  | leaf sym =>
    obtain ⟨h1, h2, h3, h4⟩ := hT'
    rw [assignUnit, visit_leaf h1 h2, assignLeaf, h4]
    simp [h3, CodeTree.codes, State.setEntries, State.setEntry_def, val]
  | node l r =>
    have := visit_holds (u := []) hT' hd (by simp [Config.lMax]) (.inr (by simp [CodeTree.depth])) hn (by simp)
    rw [assignUnit]
    simpa [underPath, CodeTree.codes] using this

/-- A walk that succeeds has seen a tree, with no symbol that already had an entry (R102, R104). -/
theorem visit_ok {s t : State} {fuel i d v : Nat} (hfd : fuel + d = 255) (h : visit fuel i d v s = .ok t) :
    ∃ T : CodeTree, s.HoldsTree i T ∧ T.depth ≤ fuel ∧ T.symbols.Nodup ∧
      (∀ a ∈ T.symbols, s.len a.toNat = 0#8) ∧ (∀ a ∈ T.symbols, t.len a.toNat ≠ 0#8) ∧
      (∀ a, s.len a ≠ 0#8 → t.len a = s.len a) ∧ (∀ i, t.node i = s.node i) := by
  have leafCase : ∀ {s t : State} {fuel i d v : Nat}, fuel + d = 255 → ¬Config.arenaNodes ≤ i → nodeIsLeaf (s.node i) = true →
      assignLeaf i d v (s.node i) s = .ok t → ∃ T : CodeTree, s.HoldsTree i T ∧ T.depth ≤ fuel ∧ T.symbols.Nodup ∧
      (∀ a ∈ T.symbols, s.len a.toNat = 0#8) ∧ (∀ a ∈ T.symbols, t.len a.toNat ≠ 0#8) ∧
      (∀ a, s.len a ≠ 0#8 → t.len a = s.len a) ∧ (∀ i, t.node i = s.node i) := by
    intro s t fuel i d v hfd hi hl h
    unfold assignLeaf at h
    split at h
    · cases h
    split at h
    · cases h
    rename_i hc hz
    simp only [ne_eq, Decidable.not_not] at hz
    have hsym : (BitVec.ofNat 8 (nodeSym (s.node i))).toNat = nodeSym (s.node i) := by
      rw [BitVec.toNat_ofNat]; exact Nat.mod_eq_of_lt ((s.node i).extractLsb' 0 8).isLt
    refine ⟨.leaf (BitVec.ofNat 8 (nodeSym (s.node i))), ?_, by simp [CodeTree.depth], by simp [CodeTree.symbols], ?_, ?_, ?_, ?_⟩
    · exact ⟨by omega, hl, by simpa using hc, hsym.symm⟩
    · intro a ha
      simp only [CodeTree.symbols, List.mem_singleton] at ha
      rw [ha, hsym, hz]
    · intro a ha
      simp only [CodeTree.symbols, List.mem_singleton] at ha
      split at h <;> injection h with h <;> subst h
      · rw [ha, hsym]; simp
      · rename_i hd
        rw [ha, hsym, State.len_setCode, State.len_setLen, if_pos rfl]
        intro he
        have := congrArg BitVec.toNat he
        rw [BitVec.toNat_ofNat, Nat.mod_eq_of_lt (by omega)] at this
        exact hd this
    · intro a ha
      have hne : nodeSym (s.node i) ≠ a := by rintro rfl; exact ha hz
      split at h <;> injection h with h <;> subst h <;> simp [hne]
    · intro k
      have hb : ∀ (n : Byte) (c : BitVec 255),
          ((s.setLen (nodeSym (s.node i)) n).setCode (nodeSym (s.node i)) c).node k = s.node k := by
        intro n c
        generalize nodeSym (s.node i) = y
        simp only [State.node, State.word]
        rw [State.bytes_congr (t := (s.setLen y n).setCode y c) (s := s)]
        intro j _
        rw [State.setCode, State.byte_setBytes_ne _ _ _ _ _ _ (.inl (by decide)), State.setLen, State.byte_setByte,
          if_neg (by simp)]
      split at h <;> injection h with h <;> subst h <;> exact hb _ _
  induction fuel generalizing s t i d v with
  | zero =>
    unfold visit at h
    split at h
    · cases h
    · rename_i hi
      dsimp only at h
      split at h
      · rename_i hl; exact leafCase hfd hi hl h
      · split at h <;> cases h
  | succ fuel ih =>
    unfold visit at h
    split at h
    · cases h
    · rename_i hi
      dsimp only at h
      split at h
      · rename_i hl; exact leafCase hfd hi hl h
      · rename_i hl
        split at h
        · cases h
        · rename_i hc
          split at h
          · cases h
          · rename_i m hm
            obtain ⟨L, hL1, hL2, hL3, hL4, hL5, hL6, hL7⟩ := ih (by omega) hm
            obtain ⟨R, hR1, hR2, hR3, hR4, hR5, hR6, hR7⟩ := ih (by omega) h
            refine ⟨.node L R, ⟨by omega, by simpa using hl, by simpa using hc, hL1, ?_⟩, ?_, ?_, ?_, ?_, ?_, ?_⟩
            · exact State.HoldsTree.congr (fun k => (hL7 k).symm) hR1
            · simp only [CodeTree.depth]; omega
            · simp only [CodeTree.symbols, List.nodup_append]
              exact ⟨hL3, hR3, fun a ha b hb he => hL5 a ha (by rw [he]; exact hR4 b hb)⟩
            · intro a ha
              rcases List.mem_append.1 ha with ha | ha
              · exact hL4 a ha
              · by_contra hne
                exact hne ((hL6 _ hne).symm.trans (hR4 a ha))
            · intro a ha
              rcases List.mem_append.1 ha with ha | ha
              · rw [hR6 _ (hL5 a ha)]; exact hL5 a ha
              · exact hR5 a ha
            · intro a ha; rw [hR6 a (by rw [hL6 a ha]; exact ha), hL6 a ha]
            · intro k; rw [hR7, hL7]

/-- ASSIGN succeeds exactly on a tree (R102, R104). -/
theorem assignUnit_ok {s t : State} (h : assignUnit s = .ok t) :
    ∃ T : CodeTree, s.HoldsTree s.rootSnap.toNat T ∧ T.depth ≤ Config.lMax ∧ T.symbols.Nodup ∧
      t = s.clearLens.setEntries T.codes := by
  obtain ⟨T, h1, h2, h3, -⟩ := visit_ok (by simp [Config.lMax]) h
  have hT : s.HoldsTree s.rootSnap.toNat T := State.HoldsTree.congr (s := s.clearLens) (fun i => rfl) h1
  refine ⟨T, hT, h2, h3, ?_⟩
  have := assignUnit_holds hT h2 h3
  rw [this] at h
  injection h with h
  exact h.symm

/-- What an entry leaves alone, field by field. -/
theorem State.setEntries_fields (s : State) (xs : List (Byte × Bits)) :
    ∃ l c, s.setEntries xs = { s with ctLen := l, ctCode := c } := by
  have hbyte : ∀ (s : State) (a : Nat) (v : Byte), ∃ l, s.setByte .ctLen a v = { s with ctLen := l } :=
    fun s a v => ⟨_, rfl⟩
  have hbytes : ∀ (vs : List Byte) (s : State) (a : Nat), ∃ c, s.setBytes .ctCode a vs = { s with ctCode := c } := by
    intro vs
    induction vs with
    | nil => exact fun s a => ⟨_, rfl⟩
    | cons v vs ih =>
      intro s a
      obtain ⟨c, hc⟩ := ih (s.setByte .ctCode a v) (a + 1)
      exact ⟨c, by rw [State.setBytes, hc]; rfl⟩
  induction xs generalizing s with
  | nil => exact ⟨_, _, rfl⟩
  | cons x xs ih =>
    obtain ⟨l, hl⟩ := hbyte s x.1.toNat (BitVec.ofNat 8 x.2.length)
    obtain ⟨c, hc⟩ := hbytes (leBytes 32 (BitVec.ofNat 255 (val x.2)).toNat) { s with ctLen := l } (32 * x.1.toNat)
    obtain ⟨l', c', h'⟩ := ih (s.setEntry x.1.toNat x.2)
    refine ⟨l', c', ?_⟩
    rw [State.setEntries, h', State.setEntry_def, State.setLen, hl, State.setCode, hc]

end Sys2Proof.Machine
end

