-- ==== Sys2Proof/Laws/Decode.lean ====
section
/-!
SUPPORT. The laws of the encoding (spec 30_encoding.md): the fields of an encoded word, that a word is its fields,
what `decode`, `legal` and `units` answer on an encoded word, and the rows of the opcode table.
-/

namespace Sys2Proof

/-! ### Fields of a word put together from fields -/

@[simp] theorem opField_append (op : BitVec 5) (x : BitVec 27) : opField (op ++ x) = op :=
  BitVec.extractLsb'_append_eq_left

@[simp] theorem countField_append (op : BitVec 5) (x : BitVec 27) : countField (op ++ x) = x :=
  BitVec.extractLsb'_append_eq_right

/-- A word is its opcode and the 27 bits below it. -/
theorem opField_append_countField (w : Word) : opField w ++ countField w = w := by
  apply BitVec.eq_of_getLsbD_eq
  intro i hi
  show BitVec.getLsbD (opField w ++ countField w : BitVec (5 + 27)) i = _
  rw [BitVec.getLsbD_append]
  simp only [opField, countField, BitVec.getLsbD_extractLsb']
  split
  · simp_all
  · rename_i h
    rw [show 27 + (i - 27) = i by omega]
    simp [show i - 27 < 5 by omega]

/-- Format B below the opcode: the reserved bits, N and VALUE. -/
theorem formatB (op : BitVec 5) (z : BitVec 6) (n : BitVec 5) (v : BitVec 16) :
    (op ++ z ++ n ++ v : BitVec 32) = op ++ (z ++ n ++ v : BitVec 27) := by
  apply BitVec.eq_of_getLsbD_eq
  intro i hi
  show BitVec.getLsbD (op ++ z ++ n ++ v : BitVec (5 + 6 + 5 + 16)) i =
    BitVec.getLsbD (op ++ (z ++ n ++ v : BitVec (6 + 5 + 16)) : BitVec (5 + (6 + 5 + 16))) i
  simp only [BitVec.getLsbD_append]
  by_cases h1 : i < 16
  · simp [h1, show i < 27 by omega]
  · by_cases h2 : i < 21
    · simp [h1, show i < 27 by omega, show i - 16 < 5 by omega]
    · by_cases h3 : i < 27
      · simp [h1, h3, show ¬i - 16 < 5 by omega, show i - 16 - 5 < 6 by omega]
      · simp [h1, h3, show ¬i - 16 < 5 by omega, show ¬i - 16 - 5 < 6 by omega,
          show i - 16 - 5 - 6 = i - 27 by omega]

/-- Format S below the opcode: the reserved bits and SYM. -/
theorem formatS (op : BitVec 5) (z : BitVec 19) (s : BitVec 8) :
    (op ++ z ++ s : BitVec 32) = op ++ (z ++ s : BitVec 27) := by
  apply BitVec.eq_of_getLsbD_eq
  intro i hi
  show BitVec.getLsbD (op ++ z ++ s : BitVec (5 + 19 + 8)) i =
    BitVec.getLsbD (op ++ (z ++ s : BitVec (19 + 8)) : BitVec (5 + (19 + 8))) i
  simp only [BitVec.getLsbD_append]
  by_cases h1 : i < 8
  · simp [h1, show i < 27 by omega]
  · by_cases h3 : i < 27
    · simp [h1, h3, show i - 8 < 19 by omega]
    · simp [h1, h3, show ¬i - 8 < 19 by omega, show i - 8 - 19 = i - 27 by omega]

/-- The lower fields are fields of COUNT's bits. -/
theorem lowField (w : Word) (start len : Nat) (h : start + len ≤ 27) :
    w.extractLsb' start len = (countField w).extractLsb' start len := by
  apply BitVec.eq_of_getLsbD_eq
  intro i hi
  simp only [countField, BitVec.getLsbD_extractLsb', hi, decide_true, Bool.true_and, Nat.zero_add]
  simp [show start + i < 27 by omega]

theorem valueField_formatB (op : BitVec 5) (z : BitVec 6) (n : BitVec 5) (v : BitVec 16) :
    valueField (op ++ z ++ n ++ v) = v := by
  rw [valueField]
  exact BitVec.extractLsb'_append_eq_right

theorem nField_formatB (op : BitVec 5) (z : BitVec 6) (n : BitVec 5) (v : BitVec 16) :
    nField (op ++ z ++ n ++ v) = n := by
  apply BitVec.eq_of_getLsbD_eq
  intro i hi
  rw [nField, BitVec.getLsbD_extractLsb']
  show (decide (i < 5) && BitVec.getLsbD (op ++ z ++ n ++ v : BitVec (5 + 6 + 5 + 16)) (16 + i)) = _
  simp only [BitVec.getLsbD_append]
  simp [hi]

theorem reservedB_formatB (op : BitVec 5) (z : BitVec 6) (n : BitVec 5) (v : BitVec 16) :
    reservedB (op ++ z ++ n ++ v) = z := by
  apply BitVec.eq_of_getLsbD_eq
  intro i hi
  rw [reservedB, BitVec.getLsbD_extractLsb']
  show (decide (i < 6) && BitVec.getLsbD (op ++ z ++ n ++ v : BitVec (5 + 6 + 5 + 16)) (21 + i)) = _
  simp only [BitVec.getLsbD_append]
  simp [hi, show ¬21 + i < 16 by omega, show ¬21 + i - 16 < 5 by omega, show 21 + i - 16 - 5 = i by omega]

theorem symField_formatS (op : BitVec 5) (z : BitVec 19) (s : BitVec 8) : symField (op ++ z ++ s) = s := by
  rw [symField]
  exact BitVec.extractLsb'_append_eq_right

theorem reservedS_formatS (op : BitVec 5) (z : BitVec 19) (s : BitVec 8) : reservedS (op ++ z ++ s) = z := by
  apply BitVec.eq_of_getLsbD_eq
  intro i hi
  rw [reservedS, BitVec.getLsbD_extractLsb']
  show (decide (i < 19) && BitVec.getLsbD (op ++ z ++ s : BitVec (5 + 19 + 8)) (8 + i)) = _
  simp only [BitVec.getLsbD_append]
  simp [hi]

@[simp] theorem opField_formatB (op : BitVec 5) (z : BitVec 6) (n : BitVec 5) (v : BitVec 16) :
    opField (op ++ z ++ n ++ v) = op := by rw [formatB, opField_append]

@[simp] theorem opField_formatS (op : BitVec 5) (z : BitVec 19) (s : BitVec 8) : opField (op ++ z ++ s) = op := by
  rw [formatS, opField_append]

/-- The lower 27 bits of a format-B word are its three fields. -/
theorem countField_formatB (w : Word) :
    (reservedB w ++ nField w ++ valueField w : BitVec 27) = countField w := by
  apply BitVec.eq_of_getLsbD_eq
  intro i hi
  show BitVec.getLsbD (reservedB w ++ nField w ++ valueField w : BitVec (6 + 5 + 16)) i = _
  simp only [BitVec.getLsbD_append, reservedB, nField, valueField, countField, BitVec.getLsbD_extractLsb']
  by_cases h1 : i < 16
  · simp [h1, hi]
  · by_cases h2 : i < 21
    · simp [h1, hi, show i - 16 < 5 by omega, show 16 + (i - 16) = i by omega]
    · simp [h1, hi, show ¬i - 16 < 5 by omega, show i - 16 - 5 < 6 by omega, show 21 + (i - 16 - 5) = i by omega]

/-- The lower 27 bits of a format-S word are its two fields. -/
theorem countField_formatS (w : Word) : (reservedS w ++ symField w : BitVec 27) = countField w := by
  apply BitVec.eq_of_getLsbD_eq
  intro i hi
  show BitVec.getLsbD (reservedS w ++ symField w : BitVec (19 + 8)) i = _
  simp only [BitVec.getLsbD_append, reservedS, symField, countField, BitVec.getLsbD_extractLsb']
  by_cases h1 : i < 8
  · simp [h1, hi]
  · simp [h1, hi, show i - 8 < 19 by omega, show 8 + (i - 8) = i by omega]

/-! ### Legality and units of an encoded instruction -/

/-- The opcode field of an encoded instruction is the opcode of R81. -/
theorem opField_encode (i : Instr) :
    opField (encode i) =
      match i with
      | .nop => 0x00#5
      | .putbits _ _ => 0x01#5
      | .putsym _ => 0x02#5
      | .packbuf _ => 0x03#5
      | .flush => 0x04#5
      | .unpack _ => 0x05#5
      | .alignin => 0x06#5
      | .clrct => 0x07#5
      | .assign => 0x08#5
      | .unpackt _ => 0x09#5 := by
  cases i
  case putbits n v => exact opField_formatB _ _ _ _
  case putsym s => exact opField_formatS _ _ _
  all_goals exact opField_append _ _

/-- The word of an instruction is legal exactly when the instruction is. -/
theorem legal_encode (b : Bool) (i : Instr) : legal b (encode i) = i.isLegal b := by
  cases i
  case putbits n v =>
    simp only [legal, encode, opField_formatB, reservedB_formatB, nField_formatB, valueField_formatB]
    simp [Instr.isLegal, Instr.wellFormed, Instr.present]
  case putsym s =>
    simp only [legal, encode, opField_formatS, reservedS_formatS]
    simp [Instr.isLegal, Instr.wellFormed, Instr.present]
  all_goals
    simp only [legal, encode, opField_append, countField_append]
    simp [Instr.isLegal, Instr.wellFormed, Instr.present]

/-- COUNT is the units of a format-C command, and every other command has one unit (R88). -/
theorem units_encode (i : Instr) :
    units (encode i) =
      match i with
      | .packbuf c | .unpack c | .unpackt c => c
      | _ => 1#27 := by
  cases i
  case putbits n v => simp only [units, encode, opField_formatB]; rfl
  case putsym s => simp only [units, encode, opField_formatS]; rfl
  all_goals
    simp only [units, encode, opField_append, countField_append]
    try rfl

end Sys2Proof
end

