-- ==== Sys2Proof/Laws/Unpack.lean ====
section
/-!
SUPPORT. What the two decoders do (spec 42_unpack.md R140, R142): the scan goes on exactly while the scanned bits are
a proper prefix of some code and no code, and the walk follows the input bits through valid internal nodes.
-/

namespace Sys2Proof.Machine

/-! ### Input bits -/

theorem State.inputIs_nil (s : State) (p : Nat) : s.InputIs p [] := fun j hj => by simp at hj

theorem State.inputIs_singleton {s : State} {p : Nat} (h : p < 8 * s.effLimit) : s.InputIs p [s.inBit p] :=
  fun j hj => by
    have : j = 0 := by simpa using hj
    subst this
    exact ⟨h, rfl⟩

theorem State.InputIs.le {s : State} {p : Nat} {w : Bits} (h : s.InputIs p w) (hw : w ≠ []) :
    p + w.length ≤ 8 * s.effLimit := by
  have := List.length_pos_iff.2 hw
  have := (h (w.length - 1) (by omega)).1
  omega

theorem State.InputIs.fetch {s : State} {p : Nat} {w : Bits} (h : s.InputIs p w) (hw : w ≠ []) :
    s.fetch p w.length = .ok w := by
  rw [State.fetch_eq_ok (h.le hw)]
  congr 1
  apply List.ext_getElem
  · simp
  · intro j h1 h2
    simpa using (h j h2).2

/-- The bits below the limit are some bit string. -/
theorem State.inputIs_of_le {s : State} {p k : Nat} (h : p + k ≤ 8 * s.effLimit) :
    s.InputIs p ((List.range k).map fun j => s.inBit (p + j)) :=
  fun j hj => ⟨by simp at hj; omega, by simp⟩

theorem State.InputIs.append {s : State} {p : Nat} {u w : Bits} (hu : s.InputIs p u) (hw : s.InputIs (p + u.length) w) :
    s.InputIs p (u ++ w) := by
  intro j hj
  rw [List.getElem_append]
  split
  · rename_i h; exact hu j h
  · rename_i h
    have := hw (j - u.length) (by simp at hj; omega)
    rwa [show p + u.length + (j - u.length) = p + j by omega] at this

theorem State.InputIs.left {s : State} {p : Nat} {u w : Bits} (h : s.InputIs p (u ++ w)) : s.InputIs p u := by
  intro j hj
  have := h j (by simp; omega)
  rwa [List.getElem_append_left hj] at this

theorem State.InputIs.right {s : State} {p : Nat} {u w : Bits} (h : s.InputIs p (u ++ w)) :
    s.InputIs (p + u.length) w := by
  intro j hj
  have := h (u.length + j) (by simp; omega)
  rw [show p + (u.length + j) = p + u.length + j by omega] at this
  simpa using this

theorem State.InputIs.take {s : State} {p : Nat} {w : Bits} (h : s.InputIs p w) (k : Nat) :
    s.InputIs p (w.take k) := by
  rw [← List.take_append_drop k w] at h
  exact h.left

theorem State.InputIs.fetch_take {s : State} {p : Nat} {w : Bits} (h : s.InputIs p w) {k : Nat} (hk : k ≤ w.length)
    (h0 : 1 ≤ k) : s.fetch p k = .ok (w.take k) := by
  have hl : (w.take k).length = k := by simp; omega
  have := (h.take k).fetch (fun he => by rw [he] at hl; simp at hl; omega)
  rwa [hl] at this

/-! ### The table scan -/

theorem State.matchSymbol_eq_none {s : State} {w : Bits} :
    s.matchSymbol w = none ↔ ∀ a, a < Config.nSym → s.codeBits a ≠ w := by
  simp only [State.matchSymbol, List.find?_eq_none, List.mem_range, Bool.and_eq_true, beq_iff_eq, not_and]
  refine forall_congr' fun a => imp_congr_right fun _ => ⟨fun h he => h ?_ he, fun h _ => h⟩
  rw [← he, State.length_codeBits]

theorem State.matchSymbol_eq_some {s : State} {w : Bits} {a : Nat} :
    s.matchSymbol w = some a ↔ a < Config.nSym ∧ s.codeBits a = w ∧ ∀ b, b < a → s.codeBits b ≠ w := by
  have key : ∀ b, ((s.len b).toNat == w.length && s.codeBits b == w) = decide (s.codeBits b = w) := by
    intro b
    by_cases h : s.codeBits b = w
    · have : (s.len b).toNat = w.length := by rw [← h, State.length_codeBits]
      simp [h, this]
    · simp [h]
  simp only [State.matchSymbol, key]
  rw [List.find?_range_eq_some]
  simp only [decide_eq_true_eq, List.mem_range, Bool.not_eq_true', decide_eq_false_iff_not]
  tauto

theorem State.isProperPrefix_iff {s : State} {w : Bits} :
    s.isProperPrefix w = true ↔
      ∃ a, a < Config.nSym ∧ w.length < (s.len a).toNat ∧ w <+: s.codeBits a := by
  simp [State.isProperPrefix, List.any_eq_true]

/-- One round that goes on. -/
theorem scanCT_next {s : State} {p fuel k : Nat} {w : Bits} (hf : s.fetch p k = .ok w) (hn : s.matchSymbol w = none)
    (hp : s.isProperPrefix w = true) : scanCT s p (fuel + 1) k = scanCT s p fuel (k + 1) := by
  simp [scanCT, hf, hn, hp]

/-- The scan is still going on after the bits `w`: each non-empty prefix of them is no code and a proper prefix of
one (R140). -/
def State.ScanGoesOn (s : State) (w : Bits) : Prop :=
  ∀ j, 1 ≤ j → j ≤ w.length → s.matchSymbol (w.take j) = none ∧ s.isProperPrefix (w.take j) = true

theorem scanCT_goesOn {s : State} {p : Nat} {w : Bits} (hi : s.InputIs p w) (hg : s.ScanGoesOn w) (fuel : Nat) :
    scanCT s p (fuel + w.length) 1 = scanCT s p fuel (w.length + 1) := by
  have key : ∀ m, m ≤ w.length → scanCT s p (fuel + w.length) 1 = scanCT s p (fuel + w.length - m) (m + 1) := by
    intro m
    induction m with
    | zero => intro _; rfl
    | succ m ih =>
      intro hm
      rw [ih (by omega), show fuel + w.length - m = (fuel + w.length - (m + 1)) + 1 by omega]
      obtain ⟨hn, hp⟩ := hg (m + 1) (by omega) hm
      exact scanCT_next (hi.fetch_take hm (by omega)) hn hp
  rw [key _ le_rfl, Nat.add_sub_cancel]

/-- A code longer than the scanned bits exists only while they are fewer than 255. -/
theorem State.length_lt_of_isProperPrefix {s : State} {w : Bits} (h : s.isProperPrefix w = true) : w.length < 255 := by
  obtain ⟨a, -, ha, -⟩ := State.isProperPrefix_iff.1 h
  have := (s.len a).isLt
  omega

theorem State.ScanGoesOn.length_lt {s : State} {w : Bits} (h : s.ScanGoesOn w) : w.length < 255 := by
  by_cases h0 : w.length = 0
  · omega
  · have := (h w.length (by omega) le_rfl).2
    rw [List.take_length] at this
    exact State.length_lt_of_isProperPrefix this

/-- The scan matches (R140). -/
theorem decodeCT_match {s : State} {p a : Nat} {w : Bits} {b : Bool} (hi : s.InputIs p (w ++ [b]))
    (hg : s.ScanGoesOn w) (hm : s.matchSymbol (w ++ [b]) = some a) : decodeCT s p = .ok (a, w.length + 1) := by
  have hlt := hg.length_lt
  have hf := hi.fetch (by simp)
  simp only [List.length_append, List.length_singleton] at hf
  rw [decodeCT, show Config.lMax = (254 - w.length + 1) + w.length by simp [Config.lMax]; omega,
    scanCT_goesOn hi.left hg]
  simp [scanCT, hf, hm]

/-- The scan fails: no code has the scanned bits as a prefix (R140). -/
theorem decodeCT_malformed {s : State} {p : Nat} {w : Bits} {b : Bool} (hi : s.InputIs p (w ++ [b]))
    (hg : s.ScanGoesOn w) (hm : s.matchSymbol (w ++ [b]) = none) (hp : s.isProperPrefix (w ++ [b]) = false) :
    decodeCT s p = .error ⟨.malformed, BitVec.ofNat 32 (w.length + 1)⟩ := by
  have hlt := hg.length_lt
  have hf := hi.fetch (by simp)
  simp only [List.length_append, List.length_singleton] at hf
  rw [decodeCT, show Config.lMax = (254 - w.length + 1) + w.length by simp [Config.lMax]; omega,
    scanCT_goesOn hi.left hg]
  simp [scanCT, hf, hm, hp]

/-- The scan runs out of bits (R140). -/
theorem decodeCT_exhausted {s : State} {p : Nat} {w : Bits} (hi : s.InputIs p w) (hg : s.ScanGoesOn w)
    (hx : 8 * s.effLimit < p + w.length + 1) :
    decodeCT s p = .error ⟨.inExhausted, BitVec.ofNat 32 (w.length + 1)⟩ := by
  have hlt := hg.length_lt
  rw [decodeCT, show Config.lMax = (254 - w.length + 1) + w.length by simp [Config.lMax]; omega,
    scanCT_goesOn hi hg]
  simp [scanCT, State.fetch_eq_error (show 8 * s.effLimit < p + (w.length + 1) by omega)]

/-- The three ways `DecodeCT` ends are all of them: `fuel = 0` is never reached (R140, assumption 14). -/
theorem decodeCT_cases (s : State) (p : Nat) :
    (∃ w b a, s.InputIs p (w ++ [b]) ∧ s.ScanGoesOn w ∧ s.matchSymbol (w ++ [b]) = some a) ∨
    (∃ w b, s.InputIs p (w ++ [b]) ∧ s.ScanGoesOn w ∧ s.matchSymbol (w ++ [b]) = none ∧
      s.isProperPrefix (w ++ [b]) = false) ∨
    (∃ w, s.InputIs p w ∧ s.ScanGoesOn w ∧ 8 * s.effLimit < p + w.length + 1) := by
  by_contra hno
  simp only [not_or, not_exists, not_and] at hno
  obtain ⟨h1, h2, h3⟩ := hno
  have all : ∀ m, ∃ w, w.length = m ∧ s.InputIs p w ∧ s.ScanGoesOn w := by
    intro m
    induction m with
    | zero => exact ⟨[], rfl, s.inputIs_nil p, fun j h1 h2 => by simp at h2; omega⟩
    | succ m ih =>
      obtain ⟨w, hl, hi, hg⟩ := ih
      have hle : p + w.length + 1 ≤ 8 * s.effLimit := Nat.not_lt.1 (h3 w hi hg)
      have hb : s.InputIs p (w ++ [s.inBit (p + w.length)]) := hi.append (State.inputIs_singleton (by omega))
      have hm : s.matchSymbol (w ++ [s.inBit (p + w.length)]) = none := by
        cases hm : s.matchSymbol (w ++ [s.inBit (p + w.length)]) with
        | none => rfl
        | some a => exact absurd hm (h1 w _ a hb hg)
      have hp : s.isProperPrefix (w ++ [s.inBit (p + w.length)]) = true := by
        have := h2 w _ hb hg hm
        simpa using this
      refine ⟨_, by simp [hl], hb, fun j hj1 hj2 => ?_⟩
      by_cases hj : j ≤ w.length
      · rw [List.take_append_of_le_length hj]
        exact hg j hj1 hj
      · simp only [List.length_append, List.length_singleton] at hj2
        rw [List.take_of_length_le (by simp; omega)]
        exact ⟨hm, hp⟩
  obtain ⟨w, hl, -, hg⟩ := all 255
  have := hg.length_lt
  omega

/-! ### The tree walk -/

theorem fetch_getD {s : State} {p d : Nat} (h : p + (d + 1) ≤ 8 * s.effLimit) :
    ∃ b, s.fetch p (d + 1) = .ok b ∧ b.getD d false = s.inBit (p + d) := by
  refine ⟨_, State.fetch_eq_ok h, ?_⟩
  rw [List.getD_eq_getElem _ _ (by simp)]
  simp

/-- One node down. -/
theorem walkTree_down {s : State} {p fuel i d : Nat} (hi : i < Config.arenaNodes) (hl : nodeIsLeaf (s.node i) = false)
    (hc : internalClear (s.node i) = true) (hb : p + d < 8 * s.effLimit) :
    walkTree s p (fuel + 1) i d =
      walkTree s p fuel (if s.inBit (p + d) then nodeRight (s.node i) else nodeLeft (s.node i)) (d + 1) := by
  obtain ⟨b, hf, hg⟩ := fetch_getD (s := s) (p := p) (d := d) (by omega)
  simp only [walkTree, Nat.not_le.2 hi, if_false, hl, hc, hf, hg]
  cases s.inBit (p + d) <;> simp

/-- The walk follows a path whose bits are the input (R142). -/
theorem walkTree_path {s : State} {p fuel i j d : Nat} {w : Bits} (hp : s.Path i w j) (hi : s.InputIs (p + d) w) :
    walkTree s p (fuel + w.length) i d = walkTree s p fuel j (d + w.length) := by
  induction hp generalizing d with
  | here i => rfl
  | down i b w j h1 h2 h3 _ ih =>
    have hb := hi 0 (by simp)
    have hr : s.InputIs (p + (d + 1)) w := by
      have := State.InputIs.right (u := [b]) (w := w) hi
      simpa [Nat.add_assoc] using this
    simp only [Nat.add_zero, List.getElem_cons_zero] at hb
    rw [List.length_cons, show fuel + (w.length + 1) = (fuel + w.length) + 1 by omega,
      walkTree_down h1 h2 h3 hb.1, hb.2, ih hr, show d + 1 + w.length = d + (w.length + 1) by omega]

theorem walkTree_leaf {s : State} {p fuel i d : Nat} (hi : i < Config.arenaNodes) (hl : nodeIsLeaf (s.node i) = true)
    (hc : leafClear (s.node i) = true) : walkTree s p fuel i d = treeLeaf s p d (s.node i) := by
  cases fuel <;> simp [walkTree, Nat.not_le.2 hi, hl, hc]

theorem walkTree_outside {s : State} {p fuel i d : Nat} (hi : Config.arenaNodes ≤ i) :
    walkTree s p fuel i d = .error (badTree 1 i) := by
  cases fuel <;> simp [walkTree, hi]

theorem walkTree_leaf_reserved {s : State} {p fuel i d : Nat} (hi : i < Config.arenaNodes)
    (hl : nodeIsLeaf (s.node i) = true) (hc : leafClear (s.node i) = false) :
    walkTree s p fuel i d = .error (badTree 4 i) := by
  cases fuel <;> simp [walkTree, Nat.not_le.2 hi, hl, hc]

theorem walkTree_internal_reserved {s : State} {p fuel i d : Nat} (hi : i < Config.arenaNodes)
    (hl : nodeIsLeaf (s.node i) = false) (hc : internalClear (s.node i) = false) :
    walkTree s p fuel i d = .error (badTree 4 i) := by
  cases fuel <;> simp [walkTree, Nat.not_le.2 hi, hl, hc]

theorem walkTree_deep {s : State} {p i d : Nat} (hi : i < Config.arenaNodes) (hl : nodeIsLeaf (s.node i) = false)
    (hc : internalClear (s.node i) = true) : walkTree s p 0 i d = .error (badTree 2 i) := by
  simp [walkTree, Nat.not_le.2 hi, hl, hc]

theorem walkTree_exhausted {s : State} {p fuel i d : Nat} (hi : i < Config.arenaNodes)
    (hl : nodeIsLeaf (s.node i) = false) (hc : internalClear (s.node i) = true) (hb : 8 * s.effLimit ≤ p + d) :
    walkTree s p (fuel + 1) i d = .error ⟨.inExhausted, BitVec.ofNat 32 (d + 1)⟩ := by
  simp [walkTree, Nat.not_le.2 hi, hl, hc, State.fetch_eq_error (show 8 * s.effLimit < p + (d + 1) by omega)]

end Sys2Proof.Machine
end

