-- ==== Sys2Proof/Laws/Units.lean ====
section
/-!
SUPPORT. The unit of each command, what it may write, and that it keeps the canonical form of the memories.
-/

namespace Sys2Proof.Machine

/-- The unit of each command. -/
def unitOf : Instr → State → Except UnitErr State
  | .nop => nopUnit
  | .putbits n value => putbitsUnit n value
  | .putsym sym => putsymUnit sym
  | .packbuf _ => packbufUnit
  | .flush => flushUnit
  | .unpack _ => unpackUnit
  | .alignin => aligninUnit
  | .clrct => clrctUnit
  | .assign => assignUnit
  | .unpackt _ => unpacktUnit

/-- Every meaning is its unit run as a command (R26, R66). -/
theorem exec_eq (i : Instr) (s : State) : exec i s = runCommand (encode i) (unitOf i) s := by
  cases i <;> rfl

theorem exec_ok {i : Instr} {s t : State} (h : s.AtUnit) (hu : unitOf i s = .ok t) : exec i s = .next t.commit := by
  rw [exec_eq, runCommand_ok h hu]

theorem exec_error {i : Instr} {s : State} {e : UnitErr} (h : s.AtUnit) (hu : unitOf i s = .error e) :
    exec i s = .next (s.takeError e) := by
  rw [exec_eq, runCommand_error h hu]

theorem exec_complete {i : Instr} {s : State} (h : s.busy = true) (hr : s.remain = 0#27) :
    exec i s = .next s.complete := by
  rw [exec_eq, runCommand_complete h hr]

theorem exec_idle {i : Instr} {s : State} (h : s.busy = false) : exec i s = .next (s.writeCmd (encode i)) := by
  rw [exec_eq, runCommand_eq]
  simp [h]

/-! ### Canonical memories -/

/-- Every memory is in canonical form. -/
def State.MemOk (s : State) : Prop := ∀ sp, (s.space sp).wf sp.unlisted sp.size sp.mask

theorem State.memOk_reset : State.reset.MemOk := fun sp => by cases sp <;> exact Memory.wf_nil _ _ _

theorem State.MemOk.congr {s t : State} (h : s.MemOk) (he : ∀ sp, t.space sp = s.space sp) : t.MemOk :=
  fun sp => by rw [he sp]; exact h sp

theorem State.MemOk.setByte {s : State} (h : s.MemOk) {sp : Space} {a : Nat} (v : Byte) (ha : a < sp.size) :
    (s.setByte sp a v).MemOk := by
  intro q
  rw [State.space_setByte]
  split
  · rename_i hq
    subst hq
    exact Memory.wf_write (h q) ha (by rw [BitVec.and_assoc, BitVec.and_self])
  · exact h q

theorem State.MemOk.setBytes {s : State} (h : s.MemOk) {sp : Space} {a : Nat} (vs : List Byte)
    (ha : a + vs.length ≤ sp.size) : (s.setBytes sp a vs).MemOk := by
  induction vs generalizing s a with
  | nil => exact h
  | cons v vs ih =>
    simp only [List.length_cons] at ha
    exact ih (h.setByte v (by omega)) (by omega)

theorem State.MemOk.setWord {s : State} (h : s.MemOk) {sp : Space} {a : Nat} (d : Word) (ha : a + 4 ≤ sp.size) :
    (s.setWord sp a d).MemOk :=
  h.setBytes _ (by simpa using ha)

theorem State.MemOk.clearLens {s : State} (h : s.MemOk) : s.clearLens.MemOk := by
  intro sp
  cases sp
  · exact Memory.wf_nil _ _ _
  · exact h .ctCode
  · exact h .arena
  · exact h .inBuf
  · exact h .outBuf

theorem State.MemOk.setEntries {s : State} (h : s.MemOk) (xs : List (Byte × Bits)) : (s.setEntries xs).MemOk := by
  induction xs generalizing s with
  | nil => exact h
  | cons x xs ih =>
    have hx := x.1.isLt
    refine ih ?_
    rw [State.setEntry_def]
    refine State.MemOk.setBytes (State.MemOk.setByte h _ (by simpa [Space.size, Config.nSym] using hx)) _ ?_
    rw [length_leBytes]
    simp only [Space.size, Config.nSym]
    omega

theorem State.setBytes_outBuf_fields (vs : List Byte) (s : State) (a : Nat) :
    ∃ m, s.setBytes .outBuf a vs = { s with outBuf := m } := by
  induction vs generalizing s a with
  | nil => exact ⟨_, rfl⟩
  | cons v vs ih =>
    obtain ⟨m, hm⟩ := ih (s.setByte .outBuf a v) (a + 1)
    exact ⟨m, by rw [State.setBytes, hm]; rfl⟩

/-- What an Emit may write: OUT, OUT_PTR, ACC and BITCOUNT (R65). -/
theorem State.emitBits_fields {s t : State} {w : Bits} (h : s.emitBits w = .ok t) :
    ∃ m p n b c, t = { s with outBuf := m, outPtr := p, accN := n, accBits := b, bitCount := c } := by
  obtain ⟨-, -, n, b, ht⟩ := State.emitBits_ok h
  obtain ⟨m, hm⟩ := State.setBytes_outBuf_fields (packBytes (s.bytesDue w.length) (s.pendingBits ++ w)) s s.outPtr.toNat
  rw [hm] at ht
  exact ⟨_, _, _, _, _, ht⟩

theorem State.emitBits_memOk {s t : State} {w : Bits} (hs : s.MemOk) (h : s.emitBits w = .ok t) : t.MemOk := by
  obtain ⟨hroom, -, n, b, ht⟩ := State.emitBits_ok h
  rw [ht]
  refine State.MemOk.congr ?_ fun sp => State.setOutput_space _ _ _ _ _ _
  by_cases h0 : s.bytesDue w.length = 0
  · rw [h0]; exact hs
  · refine hs.setBytes _ ?_
    rw [length_packBytes]
    rcases hroom with h | h
    · exact absurd h h0
    · exact h

theorem State.emitSymbol_ok {s t : State} {a : Nat} (h : s.emitSymbol a = .ok t) :
    s.len a ≠ 0#8 ∧ s.emitBits (s.codeBits a) = .ok t := by
  unfold State.emitSymbol at h
  split at h
  · cases h
  · exact ⟨by assumption, h⟩

theorem packbufUnit_ok {s t : State} (h : packbufUnit s = .ok t) :
    ∃ w u, s.fetch s.inPtr.toNat 8 = .ok w ∧ s.emitSymbol (val w) = .ok u ∧ t = u.setInPtr (u.inPtr + 8#18) := by
  unfold packbufUnit at h
  split at h
  · cases h
  · split at h
    · cases h
    · injection h with h
      exact ⟨_, _, by assumption, by assumption, h.symm⟩

theorem emitDecoded_ok {s t : State} {r : Except UnitErr (Nat × Nat)} (h : emitDecoded s r = .ok t) :
    ∃ sym k u, r = .ok (sym, k) ∧ s.emit 8 sym = .ok u ∧ t = u.setInPtr (u.inPtr + BitVec.ofNat 18 k) := by
  unfold emitDecoded at h
  split at h
  · cases h
  · split at h
    · cases h
    · injection h with h
      exact ⟨_, _, _, rfl, by assumption, h.symm⟩

theorem flushUnit_cases {s t : State} (h : flushUnit s = .ok t) :
    t = s ∨ (s.accN ≠ 0#3 ∧ s.outPtr.toNat + 1 ≤ Config.outSize ∧
      t = (s.setByte .outBuf s.outPtr.toNat s.accBits).setOutput (s.outPtr + 1#16) 0#3 0#8 s.bitCount) := by
  unfold flushUnit at h
  split at h
  · injection h with h; exact .inl h.symm
  · split at h
    · cases h
    · injection h with h
      exact .inr ⟨by assumption, by omega, h.symm⟩

/-- What a unit may write: OUT, OUT_PTR, ACC, BITCOUNT, IN_PTR and CT. -/
theorem unitOf_fields {i : Instr} {s t : State} (h : unitOf i s = .ok t) :
    ∃ m p n b c q l k, t = { s with outBuf := m, outPtr := p, accN := n, accBits := b, bitCount := c, inPtr := q,
                                     ctLen := l, ctCode := k } := by
  cases i
  case nop => injection h with h; exact ⟨_, _, _, _, _, _, _, _, h.symm⟩
  case putbits n v =>
    obtain ⟨m, p, n, b, c, rfl⟩ := State.emitBits_fields h
    exact ⟨_, _, _, _, _, _, _, _, rfl⟩
  case putsym a =>
    obtain ⟨m, p, n, b, c, rfl⟩ := State.emitBits_fields (State.emitSymbol_ok h).2
    exact ⟨_, _, _, _, _, _, _, _, rfl⟩
  case packbuf =>
    obtain ⟨w, u, -, hu, rfl⟩ := packbufUnit_ok h
    obtain ⟨m, p, n, b, c, rfl⟩ := State.emitBits_fields (State.emitSymbol_ok hu).2
    exact ⟨_, _, _, _, _, _, _, _, rfl⟩
  case flush =>
    rcases flushUnit_cases h with rfl | ⟨-, -, rfl⟩
    · exact ⟨_, _, _, _, _, _, _, _, rfl⟩
    · exact ⟨_, _, _, _, _, _, _, _, rfl⟩
  case unpack =>
    obtain ⟨sym, k, u, -, hu, rfl⟩ := emitDecoded_ok h
    obtain ⟨m, p, n, b, c, rfl⟩ := State.emitBits_fields hu
    exact ⟨_, _, _, _, _, _, _, _, rfl⟩
  case alignin => injection h with h; exact ⟨_, _, _, _, _, _, _, _, h.symm⟩
  case clrct => injection h with h; exact ⟨_, _, _, _, _, _, _, _, h.symm⟩
  case assign =>
    obtain ⟨T, -, -, -, rfl⟩ := assignUnit_ok h
    obtain ⟨l, c, h'⟩ := s.clearLens.setEntries_fields T.codes
    exact ⟨_, _, _, _, _, _, _, _, h'⟩
  case unpackt =>
    obtain ⟨sym, k, u, -, hu, rfl⟩ := emitDecoded_ok h
    obtain ⟨m, p, n, b, c, rfl⟩ := State.emitBits_fields hu
    exact ⟨_, _, _, _, _, _, _, _, rfl⟩

/-- A unit keeps the canonical form of the memories. -/
theorem unitOf_memOk {i : Instr} {s t : State} (hs : s.MemOk) (h : unitOf i s = .ok t) : t.MemOk := by
  cases i
  case nop => injection h with h; exact h ▸ hs
  case putbits n v => exact State.emitBits_memOk hs h
  case putsym a => exact State.emitBits_memOk hs (State.emitSymbol_ok h).2
  case packbuf =>
    obtain ⟨w, u, -, hu, rfl⟩ := packbufUnit_ok h
    exact (State.emitBits_memOk hs (State.emitSymbol_ok hu).2).congr fun sp => State.setInPtr_space _ _ _
  case flush =>
    rcases flushUnit_cases h with rfl | ⟨-, hle, rfl⟩
    · exact hs
    · exact (hs.setByte s.accBits (sp := .outBuf) hle).congr fun sp => State.setOutput_space _ _ _ _ _ _
  case unpack =>
    obtain ⟨sym, k, u, -, hu, rfl⟩ := emitDecoded_ok h
    exact (State.emitBits_memOk hs hu).congr fun sp => State.setInPtr_space _ _ _
  case alignin => injection h with h; exact h ▸ hs.congr fun sp => State.setInPtr_space _ _ _
  case clrct => injection h with h; exact h ▸ hs.clearLens
  case assign =>
    obtain ⟨T, -, -, -, rfl⟩ := assignUnit_ok h
    exact hs.clearLens.setEntries _
  case unpackt =>
    obtain ⟨sym, k, u, -, hu, rfl⟩ := emitDecoded_ok h
    exact (State.emitBits_memOk hs hu).congr fun sp => State.setInPtr_space _ _ _

/-- A unit keeps ACC free of bits below its pending ones (R36). -/
theorem unitOf_accLow {i : Instr} {s t : State} (hs : s.accBits &&& accMask s.accN = s.accBits)
    (h : unitOf i s = .ok t) : t.accBits &&& accMask t.accN = t.accBits := by
  cases i
  case nop => injection h with h; exact h ▸ hs
  case putbits n v => exact (State.emitBits_ok h).2.1.accLow
  case putsym a => exact (State.emitBits_ok (State.emitSymbol_ok h).2).2.1.accLow
  case packbuf =>
    obtain ⟨w, u, -, hu, rfl⟩ := packbufUnit_ok h
    exact (State.emitBits_ok (State.emitSymbol_ok hu).2).2.1.accLow
  case flush =>
    rcases flushUnit_cases h with rfl | ⟨-, -, rfl⟩
    · exact hs
    · rw [State.setOutput_accBits, State.setOutput_accN]; decide
  case unpack =>
    obtain ⟨sym, k, u, -, hu, rfl⟩ := emitDecoded_ok h
    exact (State.emitBits_ok hu).2.1.accLow
  case alignin => injection h with h; exact h ▸ hs
  case clrct => injection h with h; exact h ▸ hs
  case assign =>
    obtain ⟨T, -, -, -, rfl⟩ := assignUnit_ok h
    obtain ⟨l, c, h'⟩ := s.clearLens.setEntries_fields T.codes
    rw [h']
    exact hs
  case unpackt =>
    obtain ⟨sym, k, u, -, hu, rfl⟩ := emitDecoded_ok h
    exact (State.emitBits_ok hu).2.1.accLow

end Sys2Proof.Machine
end

