-- ==== Sys2Proof/Laws/HostPort.lean ====
section
/-!
SUPPORT. The laws of the host port (spec 10_state.md R23, 20_memory.md R60 to R62): where each address leads, what a
write does, and that it keeps the canonical form of the memories.
-/

namespace Sys2Proof.Machine

/-- The element a target names exists (R23, R41, R44, R45, R46). -/
def Target.InRange : Target → Prop
  | .ctLen sym => sym < 256
  | .ctCode sym j => sym < 256 ∧ j < 8
  | .arena i => i < 511
  | .inWord m => m < 4096
  | .outWord m => m < 4096
  | .id | .caps | .ctrl | .status | .cmd | .lastCmd | .remain | .symCount | .errInfo | .inPtr | .inLimit | .outPtr
  | .acc | .bitCount | .root | .reserved | .ctPad | .arenaPad => True

/-- A register offset names a register or a reserved word. -/
theorem registerAt_cases (off : Nat) : registerAt off ∈
    [.id, .caps, .ctrl, .status, .cmd, .lastCmd, .remain, .symCount, .errInfo, .inPtr, .inLimit, .outPtr, .acc,
      .bitCount, .root, .reserved] := by
  unfold registerAt
  split <;> decide

theorem registerAt_inRange (off : Nat) : (registerAt off).InRange := by
  unfold registerAt
  split <;> trivial

theorem ctEntryAt_inRange {sym q : Nat} (hs : sym < 256) : (ctEntryAt sym q).InRange := by
  unfold ctEntryAt
  by_cases h0 : q = 0
  · rw [if_pos h0]; exact hs
  · rw [if_neg h0]
    by_cases h1 : q ≤ 0x20
    · rw [if_pos h1]
      exact ⟨hs, by omega⟩
    · rw [if_neg h1]
      trivial

/-- The address map gives only elements that exist (R23, R41, R44, R45, R46). -/
theorem target_inRange (a : Addr) : (target a).InRange := by
  have ha := a.isLt
  unfold target
  generalize hoff : a.toNat / 4 * 4 = off
  have hlt : off < 0x10000 := by omega
  dsimp only
  by_cases h1 : off < 0x1000
  · rw [if_pos h1]; exact registerAt_inRange off
  rw [if_neg h1]
  by_cases h2 : off < 0x5000
  · rw [if_pos h2]
    have hs : (off - 0x1000) / 64 < 256 := by omega
    generalize (off - 0x1000) / 64 = sym at hs
    generalize (off - 0x1000) % 64 = q
    exact ctEntryAt_inRange hs
  rw [if_neg h2]
  by_cases h3 : off < 0x57FC
  · rw [if_pos h3]
    have hs : (off - 0x5000) / 4 < 511 := by omega
    generalize (off - 0x5000) / 4 = i at hs
    exact hs
  rw [if_neg h3]
  by_cases h4 : off < 0x5800
  · rw [if_pos h4]; trivial
  rw [if_neg h4]
  by_cases h5 : off < 0x8000
  · rw [if_pos h5]; trivial
  rw [if_neg h5]
  by_cases h6 : off < 0xC000
  · rw [if_pos h6]
    have hs : (off - 0x8000) / 4 < 4096 := by omega
    generalize (off - 0x8000) / 4 = m at hs
    exact hs
  · rw [if_neg h6]
    have hs : (off - 0xC000) / 4 < 4096 := by omega
    generalize (off - 0xC000) / 4 = m at hs
    exact hs

theorem target_cmdAddr : target cmdAddr = .cmd := by decide

theorem target_statusAddr : target statusAddr = .status := by decide

/-- A host write of CMD is the accept rule itself (R26). -/
theorem hostWrite_cmd (s : State) (w : Word) : s.hostWrite cmdAddr w = s.writeCmd w := by
  simp only [State.hostWrite, target_cmdAddr, Target.isOwned, Bool.and_false, State.writeTarget, State.writeCmd]
  by_cases h : s.inReset = true <;> simp [h]

/-- Word writes land in one space. -/
theorem State.setWord_space (s : State) (sp q : Space) (a : Nat) (d : Word) (h : q ≠ sp) :
    (s.setWord sp a d).space q = s.space q := State.space_setBytes_ne _ _ _ _ _ h

/-- A register write changes no memory but LEN, which a soft reset clears. -/
theorem State.MemOk.regWrite {s t : State} (h : s.MemOk) (h1 : t.ctLen = s.ctLen ∨ t.ctLen = [])
    (h2 : t.ctCode = s.ctCode) (h3 : t.arena = s.arena) (h4 : t.inBuf = s.inBuf) (h5 : t.outBuf = s.outBuf) :
    t.MemOk := by
  intro sp
  cases sp
  · show Memory.wf _ _ _ t.ctLen
    rcases h1 with h1 | h1 <;> rw [h1]
    · exact h .ctLen
    · exact Memory.wf_nil _ _ _
  · show Memory.wf _ _ _ t.ctCode
    rw [h2]; exact h .ctCode
  · show Memory.wf _ _ _ t.arena
    rw [h3]; exact h .arena
  · show Memory.wf _ _ _ t.inBuf
    rw [h4]; exact h .inBuf
  · show Memory.wf _ _ _ t.outBuf
    rw [h5]; exact h .outBuf

theorem State.MemOk.writeCtrl {s : State} (h : s.MemOk) (d : Word) : (s.writeCtrl d).MemOk := by
  unfold State.writeCtrl
  split
  · exact h.regWrite (.inr rfl) rfl rfl rfl rfl
  · exact h.regWrite (.inl rfl) rfl rfl rfl rfl

theorem State.MemOk.writeStatus {s : State} (h : s.MemOk) (d : Word) : (s.writeStatus d).MemOk := by
  unfold State.writeStatus
  cases d.getLsbD 1 <;> cases d.getLsbD 2 <;> cases d.getLsbD 3 <;> exact h.regWrite (.inl rfl) rfl rfl rfl rfl

theorem State.MemOk.writeCmd {s : State} (h : s.MemOk) (w : Word) : (s.writeCmd w).MemOk := by
  unfold State.writeCmd
  split
  · exact h
  split
  · exact h.regWrite (.inl rfl) rfl rfl rfl rfl
  · unfold State.accept
    dsimp only
    split <;> exact h.regWrite (.inl rfl) rfl rfl rfl rfl

theorem State.MemOk.writeTarget {s : State} (h : s.MemOk) {t : Target} (ht : t.InRange) (d : Word) :
    (s.writeTarget t d).MemOk := by
  unfold State.writeTarget
  cases t <;> dsimp only
  case ctrl => exact h.writeCtrl d
  case status => exact h.writeStatus d
  case cmd => exact h.writeCmd d
  case ctLen sym => exact h.setByte _ ht
  case ctCode sym j =>
    simp only [Target.InRange] at ht
    exact h.setWord _ (by simp only [Space.size, Config.nSym]; omega)
  case arena i =>
    simp only [Target.InRange] at ht
    split
    · exact h.setWord _ (by simp only [Space.size, Config.arenaNodes]; omega)
    · exact h
  case inWord m =>
    simp only [Target.InRange] at ht
    exact h.setWord _ (by simp only [Space.size, Config.inSize]; omega)
  case outWord m =>
    simp only [Target.InRange] at ht
    exact h.setWord _ (by simp only [Space.size, Config.outSize]; omega)
  case inPtr => exact h.regWrite (.inl rfl) rfl rfl rfl rfl
  case inLimit => exact h.regWrite (.inl rfl) rfl rfl rfl rfl
  case outPtr => exact h.regWrite (.inl rfl) rfl rfl rfl rfl
  case acc => exact h.regWrite (.inl rfl) rfl rfl rfl rfl
  case bitCount => exact h.regWrite (.inl rfl) rfl rfl rfl rfl
  case root =>
    split
    · exact h.regWrite (.inl rfl) rfl rfl rfl rfl
    · exact h
  all_goals exact h

theorem State.MemOk.hostWrite {s : State} (h : s.MemOk) (a : Addr) (d : Word) : (s.hostWrite a d).MemOk := by
  simp only [State.hostWrite]
  split
  · exact h
  split
  · exact h.regWrite (.inl rfl) rfl rfl rfl rfl
  · exact h.writeTarget (target_inRange a) d

/-- A write of one word: the bits that exist of the byte written, and every other byte is unchanged. -/
theorem State.byte_setWord (s : State) (sp : Space) (a j : Nat) (d : Word) (h : j < 4) :
    (s.setWord sp a d).byte sp (a + j) = BitVec.ofNat 8 (d.toNat / 256 ^ j) &&& sp.mask (a + j) := by
  have hl : j < (leBytes 4 d.toNat).length := by simpa using h
  rw [State.setWord, State.byte_setBytes _ _ _ _ _ hl]
  congr 1
  have hj : j = 0 ∨ j = 1 ∨ j = 2 ∨ j = 3 := by omega
  rcases hj with rfl | rfl | rfl | rfl <;> simp [leBytes, Nat.div_div_eq_div_mul]

theorem State.byte_setWord_ne (s : State) (sp q : Space) (a b : Nat) (d : Word)
    (h : q ≠ sp ∨ b < a ∨ a + 4 ≤ b) : (s.setWord sp a d).byte q b = s.byte q b :=
  State.byte_setBytes_ne _ _ _ _ _ _ (by simpa using h)

/-- A read after a write of one word, where all 32 bits exist. -/
theorem State.word_setWord (s : State) (sp : Space) (a : Nat) (d : Word) (hm : ∀ j, j < 4 → sp.mask (a + j) = 0xFF#8) :
    (s.setWord sp a d).word sp a = d := by
  have h : (s.setWord sp a d).bytes sp a 4 = leBytes 4 d.toNat := by
    apply List.ext_getElem
    · simp
    · intro j h1 h2
      have hj : j < 4 := by simpa using h2
      simp only [State.bytes, List.getElem_map, List.getElem_range]
      rw [State.setWord, State.byte_setBytes _ _ _ _ _ h2, hm j hj]
      exact BitVec.and_allOnes
  rw [State.word, h, leNat_leBytes]
  apply BitVec.eq_of_toNat_eq
  rw [BitVec.toNat_ofNat]
  have := d.isLt
  omega

theorem State.word_congr {s t : State} {sp : Space} {a : Nat} (h : ∀ j, j < 4 → t.byte sp (a + j) = s.byte sp (a + j)) :
    t.word sp a = s.word sp a := by
  rw [State.word, State.word, State.bytes_congr h]

theorem State.getLsbD_word (s : State) (sp : Space) (a i : Nat) (h : i < 32) :
    (s.word sp a).getLsbD i = (s.byte sp (a + i / 8)).getLsbD (i % 8) := by
  have h4 : i / 8 < 4 := by omega
  rw [State.word, BitVec.getLsbD_ofNat, testBit_leNat]
  simp [State.bytes, h, h4]

theorem State.getLsbD_code (s : State) (sym i : Nat) (h : i < 255) :
    (s.code sym).getLsbD i = (s.byte .ctCode (32 * sym + i / 8)).getLsbD (i % 8) := by
  have h32 : i / 8 < 32 := by omega
  rw [State.code, BitVec.getLsbD_ofNat, testBit_leNat]
  simp [State.bytes, h, h32]

/-- Word `j` of a CODE, below the last, is bits [32j+31:32j] of it (R41). -/
theorem State.extractLsb'_code (s : State) (sym j : Nat) (h : j < 7) :
    (s.code sym).extractLsb' (32 * j) 32 = s.word .ctCode (32 * sym + 4 * j) := by
  apply BitVec.eq_of_getLsbD_eq
  intro i hi
  rw [BitVec.getLsbD_extractLsb', State.getLsbD_code _ _ _ (by omega), State.getLsbD_word _ _ _ _ hi]
  simp only [hi, decide_true, Bool.true_and]
  rw [show 32 * sym + (32 * j + i) / 8 = 32 * sym + 4 * j + i / 8 by omega, show (32 * j + i) % 8 = i % 8 by omega]

/-- The last word of a CODE is its bits [254:224] (R41). -/
theorem State.extractLsb'_code_last (s : State) (sym : Nat) :
    (s.code sym).extractLsb' 224 31 = (s.word .ctCode (32 * sym + 28)).extractLsb' 0 31 := by
  apply BitVec.eq_of_getLsbD_eq
  intro i hi
  rw [BitVec.getLsbD_extractLsb', BitVec.getLsbD_extractLsb', State.getLsbD_code _ _ _ (by omega), Nat.zero_add,
    State.getLsbD_word _ _ _ _ (by omega)]
  simp only [hi, decide_true, Bool.true_and]
  rw [show 32 * sym + (224 + i) / 8 = 32 * sym + 28 + i / 8 by omega, show (224 + i) % 8 = i % 8 by omega]

/-- An engine-owned target is one at an engine-owned address (R23, R62). -/
theorem isOwned_target (a : Addr) : (target a).isOwned = true ↔ EngineOwned a := by
  have hreg : ∀ off, off % 4 = 0 → ((registerAt off).isOwned = true ↔ 0x24 ≤ off ∧ off < 0x3C) := by
    intro off hm
    unfold registerAt
    split <;> simp only [imp_false] at * <;> first
      | exact iff_of_true rfl (by omega)
      | exact iff_of_false (by decide) (by omega)
  have hct : ∀ sym q, (ctEntryAt sym q).isOwned = true := by
    intro sym q
    unfold ctEntryAt
    split
    · rfl
    · split <;> rfl
  unfold EngineOwned target
  dsimp only
  by_cases h1 : a.toNat / 4 * 4 < 0x1000
  · rw [if_pos h1, hreg _ (by omega)]
    omega
  rw [if_neg h1]
  by_cases h2 : a.toNat / 4 * 4 < 0x5000
  · rw [if_pos h2]
    exact iff_of_true (hct _ _) (by omega)
  rw [if_neg h2]
  split
  · exact iff_of_true rfl (by omega)
  split
  · exact iff_of_true rfl (by omega)
  split
  · exact iff_of_false (by decide) (by omega)
  split
  · exact iff_of_true rfl (by omega)
  · exact iff_of_true rfl (by omega)

end Sys2Proof.Machine
end

