-- ==== Sys2Proof/Laws/PerInstr.lean ====
section
/-!
SUPPORT. One law per instruction: its encoding lies in its own row of the opcode table (spec 30_encoding.md R90), and
the rows are pairwise disjoint.
-/

open Sys2Proof

/-- The encoding of the instruction matches the mask and the pattern of its row of the opcode table (R90). -/
def Sys2Proof.Laws.EncodeRow.Statement (i : Instr) : Prop := encode i &&& i.row.mask = i.row.pattern

/-- A mask that fixes only the opcode. -/
theorem Sys2Proof.Laws.EncodeRow.opcode_row (op : BitVec 5) (c : BitVec 27) :
    (op ++ c : BitVec 32) &&& 0xF8000000#32 = op ++ 0#27 := by
  rw [show (0xF8000000#32 : BitVec 32) = 0x1F#5 ++ 0#27 from rfl, BitVec.and_append,
    show (0x1F#5 : BitVec 5) = BitVec.allOnes 5 from rfl, BitVec.and_allOnes, BitVec.and_zero]

theorem Sys2Proof.Laws.EncodeRow.nop : Sys2Proof.Laws.EncodeRow.Statement .nop := by
  unfold Sys2Proof.Laws.EncodeRow.Statement; decide

theorem Sys2Proof.Laws.EncodeRow.putbits (n : BitVec 5) (value : BitVec 16) :
    Sys2Proof.Laws.EncodeRow.Statement (.putbits n value) := by
  show (0x01#5 ++ 0#6 ++ n ++ value : BitVec 32) &&& 0xFFE00000#32 = 0x08000000#32
  rw [show (0xFFE00000#32 : BitVec 32) = 0x1F#5 ++ 0x3F#6 ++ 0#5 ++ 0#16 from rfl, BitVec.and_append, BitVec.and_append,
    BitVec.and_zero, BitVec.and_zero]
  rfl

theorem Sys2Proof.Laws.EncodeRow.putsym (sym : BitVec 8) : Sys2Proof.Laws.EncodeRow.Statement (.putsym sym) := by
  show (0x02#5 ++ 0#19 ++ sym : BitVec 32) &&& 0xFFFFFF00#32 = 0x10000000#32
  rw [show (0xFFFFFF00#32 : BitVec 32) = 0x1F#5 ++ 0x7FFFF#19 ++ 0#8 from rfl, BitVec.and_append, BitVec.and_zero]
  rfl

theorem Sys2Proof.Laws.EncodeRow.packbuf (count : BitVec 27) : Sys2Proof.Laws.EncodeRow.Statement (.packbuf count) :=
  Sys2Proof.Laws.EncodeRow.opcode_row _ _

theorem Sys2Proof.Laws.EncodeRow.flush : Sys2Proof.Laws.EncodeRow.Statement .flush := by
  unfold Sys2Proof.Laws.EncodeRow.Statement; decide

theorem Sys2Proof.Laws.EncodeRow.unpack (count : BitVec 27) : Sys2Proof.Laws.EncodeRow.Statement (.unpack count) :=
  Sys2Proof.Laws.EncodeRow.opcode_row _ _

theorem Sys2Proof.Laws.EncodeRow.alignin : Sys2Proof.Laws.EncodeRow.Statement .alignin := by
  unfold Sys2Proof.Laws.EncodeRow.Statement; decide

theorem Sys2Proof.Laws.EncodeRow.clrct : Sys2Proof.Laws.EncodeRow.Statement .clrct := by
  unfold Sys2Proof.Laws.EncodeRow.Statement; decide

theorem Sys2Proof.Laws.EncodeRow.assign : Sys2Proof.Laws.EncodeRow.Statement .assign := by
  unfold Sys2Proof.Laws.EncodeRow.Statement; decide

theorem Sys2Proof.Laws.EncodeRow.unpackt (count : BitVec 27) : Sys2Proof.Laws.EncodeRow.Statement (.unpackt count) :=
  Sys2Proof.Laws.EncodeRow.opcode_row _ _

/-- No word is in two rows: two rows differ in a bit that both masks fix (R90). -/
theorem Sys2Proof.Laws.EncodeRow.rows_disjoint :
    opcodeRows.Pairwise fun r q => r.pattern &&& (r.mask &&& q.mask) ≠ q.pattern &&& (r.mask &&& q.mask) := by
  decide
end

