-- ==== Sys2Proof/Laws/Streams.lean ====
section
/-!
SUPPORT. What the unit laws are built from: code tables seen alike, room for output, the shortest match of a scan, the
end of a walk, the codes of a tree, and the errors an ASSIGN walk can raise (spec 20_memory.md R64, R65,
40_code_table.md R102 to R104, 42_unpack.md R140 to R143).
-/

namespace Sys2Proof.Machine

/-! ### States that look alike -/

theorem State.len_ne_zero {s : State} {a : Nat} (h : s.len a ≠ 0#8) : (s.len a).toNat ≠ 0 :=
  fun h0 => h (BitVec.eq_of_toNat_eq (by simpa using h0))

theorem KeepsTable.len {s t : State} (h : KeepsTable s t) (he : t.epoch = s.epoch) (a : Nat) : t.len a = s.len a :=
  State.byte_congr (sp := .ctLen) h.1 he _

theorem KeepsTable.code {s t : State} (h : KeepsTable s t) (he : t.epoch = s.epoch) (a : Nat) : t.code a = s.code a := by
  simp only [State.code]
  rw [State.bytes_congr (t := t) (s := s)]
  exact fun j _ => State.byte_congr (sp := .ctCode) h.2 he _

theorem KeepsTable.codeBits {s t : State} (h : KeepsTable s t) (he : t.epoch = s.epoch) (a : Nat) :
    t.codeBits a = s.codeBits a :=
  State.codeBits_congr (h.len he a) (h.code he a)

theorem State.InputIs.congr {s t : State} (h1 : t.inBuf = s.inBuf) (h2 : t.epoch = s.epoch) (h3 : t.inLimit = s.inLimit)
    {p : Nat} {w : Bits} (h : s.InputIs p w) : t.InputIs p w := by
  intro j hj
  have := h j hj
  simp only [State.effLimit, State.inBit, h3] at this ⊢
  rw [State.byte_congr (sp := .inBuf) (s := s) (t := t) h1 h2]
  exact this

theorem State.effLimit_le (s : State) : 8 * s.effLimit ≤ 131072 := by
  have : s.effLimit ≤ 16384 := Nat.min_le_right _ _
  omega

/-! ### Room -/

theorem State.Room.mono {s : State} {m n : Nat} (h : m ≤ n) (hr : s.Room n) : s.Room m := by
  have : s.bytesDue m ≤ s.bytesDue n := by unfold State.bytesDue; omega
  unfold State.Room at *
  omega

/-- Room for two strings is room for the second after the first. -/
theorem Appended.room {s t : State} {w : Bits} {n : Nat} (ha : Appended s t w) (hr : s.Room (w.length + n)) : t.Room n := by
  have hw : s.Room w.length := hr.mono (by omega)
  have hn := ha.accN
  have hp : t.outPtr.toNat = s.outPtr.toNat + s.bytesDue w.length := by rw [ha.outPtr, State.outPtr_add_bytesDue hw]
  have he : s.bytesDue w.length + t.bytesDue n = s.bytesDue (w.length + n) := by unfold State.bytesDue; omega
  unfold State.Room at *
  rw [hp]
  by_cases h0 : t.bytesDue n = 0
  · exact .inl h0
  · right; omega

theorem State.emitBits_of_not_room {s : State} {w : Bits} (h : ¬s.Room w.length) :
    s.emitBits w = .error ⟨.outOverflow, BitVec.ofNat 32 (s.bytesDue w.length)⟩ := by
  rcases s.emitBits_cases w with ⟨-, -, h3⟩ | ⟨h1, -⟩
  · exact h3
  · exact absurd h1 h

/-- REMAIN counts down (R66). -/
theorem State.remain_sub {s : State} (h : s.remain ≠ 0#27) : (s.remain - 1#27).toNat = s.remain.toNat - 1 := by
  have : s.remain.toNat ≠ 0 := fun h0 => h (BitVec.eq_of_toNat_eq (by simpa using h0))
  rw [BitVec.toNat_sub]
  simp
  omega

/-! ### The shortest match -/

/-- The scan goes on as long as no code is a prefix of the bits and they are a prefix of some code (R140). -/
theorem State.scanGoesOn_of {s : State} {w : Bits} (h1 : ∀ a, a < 256 → s.len a ≠ 0#8 → ¬(s.codeBits a <+: w))
    (h2 : w ≠ [] → ∃ a, a < 256 ∧ w <+: s.codeBits a) : s.ScanGoesOn w := by
  intro j hj hjw
  refine ⟨State.matchSymbol_eq_none.2 fun a ha he => ?_, State.isProperPrefix_iff.2 ?_⟩
  · refine h1 a ha (fun h0 => ?_) (he ▸ List.take_prefix _ _)
    have := congrArg List.length he
    rw [State.length_codeBits, h0, List.length_take] at this
    simp at this
    omega
  · obtain ⟨a, ha, hp⟩ := h2 (by rintro rfl; simp at hjw; omega)
    refine ⟨a, ha, ?_, (List.take_prefix _ _).trans hp⟩
    have hl := hp.length_le
    rw [State.length_codeBits] at hl
    have : (s.len a).toNat ≠ w.length := by
      intro he
      have : w = s.codeBits a := hp.eq_of_length (by rw [State.length_codeBits, he])
      refine h1 a ha (fun h0 => ?_) (this ▸ List.prefix_refl _)
      rw [h0] at he
      simp at he
      omega
    rw [List.length_take]
    omega

theorem decodeCT_shortest {s : State} {sym p : Nat} (hs : sym < 256) (hl : s.len sym ≠ 0#8)
    (hi : s.InputIs p (s.codeBits sym))
    (h1 : ∀ a, a < 256 → s.len a ≠ 0#8 → (s.len a).toNat < (s.len sym).toNat → ¬(s.codeBits a <+: s.codeBits sym))
    (h2 : ∀ a, a < sym → s.codeBits a ≠ s.codeBits sym) : decodeCT s p = .ok (sym, (s.len sym).toNat) := by
  have hl0 := State.len_ne_zero hl
  have hlen := State.length_codeBits s sym
  have hne : s.codeBits sym ≠ [] := by
    intro h
    rw [h] at hlen
    simp at hlen
    omega
  generalize hcs : s.codeBits sym = cs at *
  obtain ⟨w, b, hw⟩ : ∃ w b, cs = w ++ [b] := ⟨_, _, (List.dropLast_append_getLast hne).symm⟩
  have hwl : w.length + 1 = (s.len sym).toNat := by rw [← hlen, hw]; simp
  rw [hw] at hi
  rw [decodeCT_match hi ?_ (State.matchSymbol_eq_some.2 ⟨hs, hcs.trans hw, fun b hb he => h2 b hb (he.trans hw.symm)⟩), hwl]
  refine State.scanGoesOn_of (fun a ha ha0 hp => ?_) (fun _ => ⟨sym, hs, by rw [hcs, hw]; exact List.prefix_append _ _⟩)
  have := hp.length_le
  rw [State.length_codeBits] at this
  exact h1 a ha ha0 (by omega) (by rw [hw]; exact hp.trans (List.prefix_append _ _))

/-- The walk along a path that the input bits follow (R142). -/
theorem decodeTree_path {s : State} {p j : Nat} {w : Bits} (hp : s.Path s.rootSnap.toNat w j) (hw : w.length ≤ 255)
    (hi : s.InputIs p w) : decodeTree s p = walkTree s p (255 - w.length) j w.length := by
  have := walkTree_path (s := s) (p := p) (d := 0) (fuel := 255 - w.length) hp (by simpa using hi)
  rw [show 255 - w.length + w.length = 255 by omega] at this
  rw [decodeTree, show Config.lMax = 255 from rfl]
  simpa using this

/-- What a decoder's result leaves when there is room for its byte (R141, R143). -/
theorem emitDecoded_of_room {s : State} {r : Except UnitErr (Nat × Nat)} {sym k : Nat} (hr : r = .ok (sym, k))
    (h : s.Room 8) (hk : s.inPtr.toNat + k < 2 ^ 18) :
    ∃ t, emitDecoded s r = .ok t ∧ Appended s t.commit (bitsOf 8 sym) ∧ t.commit.inPtr.toNat = s.inPtr.toNat + k ∧
      Committed s t.commit ∧ KeepsOutside s t.commit ∧ KeepsTable s t.commit := by
  obtain ⟨u, hu⟩ : ∃ u, s.emit 8 sym = .ok u := State.emitBits_of_room (by simpa using h)
  refine ⟨u.setInPtr (u.inPtr + BitVec.ofNat 18 k), by simp [emitDecoded, hr, hu], ?_⟩
  have ha := (State.emitBits_ok hu).2.1
  obtain ⟨m, p, n, b, c, rfl⟩ := State.emitBits_fields hu
  exact ⟨⟨ha.stream, ha.outPtr, ha.accN, ha.accLow, ha.bitCount, ha.bytes⟩, toNat_add_ofNat_of_lt hk,
    ⟨rfl, rfl, rfl, rfl, rfl, rfl, rfl⟩, ⟨rfl, rfl, rfl, rfl, rfl, rfl, rfl, rfl, rfl, rfl, rfl, rfl, rfl, rfl, rfl⟩, rfl, rfl⟩

/-! ### The codes of a tree -/

theorem CodeTree.paths_eq_of_prefix {T : CodeTree} {x y : Byte × Bits} (hx : x ∈ T.paths) (hy : y ∈ T.paths)
    (h : x.2 <+: y.2) : x = y := by
  induction T generalizing x y with
  | leaf a => simp [CodeTree.paths] at hx hy; rw [hx, hy]
  | node l r ihl ihr =>
    simp only [CodeTree.paths, List.mem_append, List.mem_map] at hx hy
    rcases hx with ⟨x, hx, rfl⟩ | ⟨x, hx, rfl⟩ <;> rcases hy with ⟨y, hy, rfl⟩ | ⟨y, hy, rfl⟩
    · simp at h; rw [ihl hx hy h]
    · simp at h
    · simp at h
    · simp at h; rw [ihr hx hy h]

/-- A tree's codes are prefix-free (R104). -/
theorem CodeTree.codes_eq_of_prefix {T : CodeTree} {x y : Byte × Bits} (hx : x ∈ T.codes) (hy : y ∈ T.codes)
    (h : x.2 <+: y.2) : x = y := by
  cases T with
  | leaf a => simp [CodeTree.codes] at hx hy; rw [hx, hy]
  | node l r => exact CodeTree.paths_eq_of_prefix hx hy h

theorem CodeTree.code_ne_nil {T : CodeTree} {x : Byte × Bits} (hx : x ∈ T.codes) : x.2 ≠ [] := by
  cases T with
  | leaf a => simp [CodeTree.codes] at hx; rw [hx]; simp
  | node l r =>
    simp only [CodeTree.codes, CodeTree.paths, List.mem_append, List.mem_map] at hx
    rcases hx with ⟨x, hx, rfl⟩ | ⟨x, hx, rfl⟩ <;> simp

theorem CodeTree.code_length_le {T : CodeTree} {x : Byte × Bits} (hd : T.depth ≤ 255) (hx : x ∈ T.codes) :
    x.2.length ≤ 255 := by
  cases T with
  | leaf a => simp [CodeTree.codes] at hx; rw [hx]; simp
  | node l r => exact (CodeTree.length_le_depth hx).trans hd

theorem CodeTree.exists_code {T : CodeTree} {a : Byte} (h : a ∈ T.symbols) : ∃ w, (a, w) ∈ T.codes := by
  rw [← CodeTree.codes_fst] at h
  obtain ⟨x, hx, rfl⟩ := List.mem_map.1 h
  exact ⟨x.2, hx⟩

/-! ### Where a walk of ASSIGN fails -/

/-- The symbols that have a code are those of the list. -/
def State.HasCodesOf (s : State) (seen : List Byte) : Prop := ∀ a : Byte, s.len a.toNat ≠ 0#8 ↔ a ∈ seen

theorem State.hasCodesOf_clearLens (s : State) : s.clearLens.HasCodesOf [] := by simp [State.HasCodesOf]

theorem underPath_fst (u : Bits) (T : CodeTree) : (underPath u T.paths).map Prod.fst = T.symbols := by
  rw [← CodeTree.paths_fst]; simp [underPath, Function.comp_def]

/-- After the entries of a tree's leaves its symbols have codes too. -/
theorem State.HasCodesOf.setEntries {s : State} {seen : List Byte} {u : Bits} {T : CodeTree} (hs : s.HasCodesOf seen)
    (hu : u ≠ []) (hd : u.length + T.depth ≤ 255) (hn : T.symbols.Nodup) :
    (s.setEntries (underPath u T.paths)).HasCodesOf (seen ++ T.symbols) := by
  intro a
  by_cases ha : a ∈ T.symbols
  · rw [← CodeTree.paths_fst] at ha
    obtain ⟨x, hx, rfl⟩ := List.mem_map.1 ha
    have hlen : (u ++ x.2).length ≤ 255 := by
      have := CodeTree.length_le_depth hx
      rw [List.length_append]; omega
    have hm : (x.1, u ++ x.2) ∈ underPath u T.paths := List.mem_map.2 ⟨x, hx, rfl⟩
    have hl := (s.setEntries_mem (by rw [underPath_fst]; exact hn) hm hlen).1
    have hpos : 0 < (u ++ x.2).length := by rw [List.length_append]; have := List.length_pos_of_ne_nil hu; omega
    rw [CodeTree.paths_fst] at ha
    simp only [List.mem_append, ha, or_true, iff_true]
    rw [hl]
    intro he
    have := congrArg BitVec.toNat he
    rw [BitVec.toNat_ofNat, Nat.mod_eq_of_lt (show (u ++ x.2).length < 2 ^ 8 by omega)] at this
    exact absurd this (Nat.ne_of_gt hpos)
  · rw [State.len_setEntries_of_not_mem, hs a]
    · simp [ha]
    · intro x hx he
      refine ha ?_
      rw [← underPath_fst u T, ← BitVec.eq_of_toNat_eq he]
      exact List.mem_map_of_mem hx

/-- The failing node of a walk has one of the four reasons, and an index of nine bits. -/
theorem State.FirstBad.range {s : State} {i d : Nat} {seen : List Byte} {subcode j : Nat}
    (h : s.FirstBad i d seen subcode j) (hi : i < 512) : subcode ∈ [1, 2, 3, 4] ∧ j < 512 := by
  induction h with
  | outside _ => exact ⟨by simp, hi⟩
  | reservedLeaf _ _ _ => exact ⟨by simp, hi⟩
  | twice _ _ _ _ => exact ⟨by simp, hi⟩
  | reservedInternal _ _ _ => exact ⟨by simp, hi⟩
  | tooDeep _ _ _ => exact ⟨by simp, hi⟩
  | @left i _ _ _ _ _ _ _ _ _ ih => exact ih ((s.node i).extractLsb' 0 9).isLt
  | @right i _ _ _ _ _ _ _ _ _ _ _ _ _ ih => exact ih ((s.node i).extractLsb' 16 9).isLt

/-- The walk of a child: the path value and the depth as one bit string. -/
theorem visit_internal {t : State} {d i : Nat} {u : Bits} (hu : u.length = d) (hd : d < 255) (hi : i < Config.arenaNodes)
    (hl : nodeIsLeaf (t.node i) = false) (hc : internalClear (t.node i) = true) :
    visit (255 - d) i d (val u) t =
      match visit (255 - (d + 1)) (nodeLeft (t.node i)) (d + 1) (val (u ++ [false])) t with
      | .error e => .error e
      | .ok m => visit (255 - (d + 1)) (nodeRight (t.node i)) (d + 1) (val (u ++ [true])) m := by
  have hfuel : 255 - d = 255 - (d + 1) + 1 := by omega
  generalize 255 - (d + 1) = fuel at hfuel ⊢
  rw [hfuel, visit, if_neg (Nat.not_le.2 hi)]
  cases h : visit fuel (nodeLeft (t.node i)) (d + 1) (2 * val u) t <;> simp [hl, hc, val_append_singleton, h]

/-- A walk fails where, and for the reason, `FirstBad` says (R102, R103). -/
theorem visit_firstBad {s : State} {i d : Nat} {seen : List Byte} {subcode j : Nat} (h : s.FirstBad i d seen subcode j) :
    ∀ (t : State) (u : Bits), u.length = d → (∀ k, t.node k = s.node k) → t.HasCodesOf seen →
      visit (255 - d) i d (val u) t = .error (badTree subcode j) := by
  induction h with
  | outside hi =>
    intro t u _ _ _
    generalize 255 - _ = fuel
    cases fuel <;> rw [visit, if_pos hi]
  | reservedLeaf hi hl hc =>
    intro t u _ hn _
    rw [← hn] at hl hc
    rw [visit_leaf hi hl, assignLeaf, if_pos hc]
  | @twice i d seen hi hl hc hm =>
    intro t u _ hn hs
    rw [← hn] at hl hc hm
    have hlen := (hs _).2 hm
    rw [BitVec.toNat_ofNat, Nat.mod_eq_of_lt (show nodeSym (t.node i) < 2 ^ 8 from ((t.node i).extractLsb' 0 8).isLt)] at hlen
    rw [visit_leaf hi hl, assignLeaf, if_neg (by simp [hc]), if_pos hlen]
  | reservedInternal hi hl hc =>
    intro t u _ hn _
    rw [← hn] at hl hc
    generalize 255 - _ = fuel
    cases fuel <;> rw [visit, if_neg (Nat.not_le.2 hi)] <;> simp [hl, hc]
  | tooDeep hi hl hc =>
    intro t u _ hn _
    rw [← hn] at hl hc
    rw [Nat.sub_self, visit, if_neg (Nat.not_le.2 hi)]
    simp [hl, hc]
  | left hd hi hl hc _ ih =>
    intro t u hu hn hs
    rw [← hn] at hl hc
    rw [visit_internal hu hd hi hl hc, hn, ih t (u ++ [false]) (by simp [hu]) hn hs]
  | @right i d seen L _ _ hd hi hl hc hL hdep hnd _ ih =>
    intro t u hu hn hs
    rw [← hn] at hl hc
    obtain ⟨-, hLn, hdis⟩ := List.nodup_append.1 hnd
    have hlen : (u ++ [false]).length = d + 1 := by simp [hu]
    have hok := visit_holds (s := t) (fuel := 255 - (d + 1)) (u := u ++ [false]) (T := L)
      (State.HoldsTree.congr hn hL) (by omega) (by omega) (.inl (by simp)) hLn (fun a ha => by
        by_contra hne
        exact hdis a ((hs a).1 hne) a ha rfl)
    rw [hlen] at hok
    rw [visit_internal hu hd hi hl hc, hn, hok]
    exact ih _ (u ++ [true]) (by simp [hu]) (fun k => (State.setEntries_node _ _ k).trans (hn k))
      (hs.setEntries (by simp) (by omega) hLn)

/-- A walk that fails has a first failing node (R102, R103). -/
theorem firstBad_of_visit {s : State} : ∀ (fuel i d : Nat) (seen : List Byte) (t : State) (u : Bits) (e : UnitErr),
    fuel + d = 255 → u.length = d → (∀ k, t.node k = s.node k) → t.HasCodesOf seen → seen.Nodup →
      visit fuel i d (val u) t = .error e → ∃ subcode j, s.FirstBad i d seen subcode j ∧ e = badTree subcode j := by
  have leafCase : ∀ (i d : Nat) (seen : List Byte) (t : State) (v : Nat) (e : UnitErr), i < Config.arenaNodes →
      (∀ k, t.node k = s.node k) → t.HasCodesOf seen → nodeIsLeaf (t.node i) = true →
      assignLeaf i d v (t.node i) t = .error e → ∃ subcode j, s.FirstBad i d seen subcode j ∧ e = badTree subcode j := by
    intro i d seen t v e hi hn hs hl h
    rw [hn] at hl h
    unfold assignLeaf at h
    split at h
    · rename_i hc
      injection h with h
      exact ⟨4, i, .reservedLeaf hi hl hc, h.symm⟩
    split at h
    · rename_i hc hz
      injection h with h
      refine ⟨3, i, .twice hi hl (by simpa using hc) ((hs _).1 ?_), h.symm⟩
      rw [BitVec.toNat_ofNat, Nat.mod_eq_of_lt (show nodeSym (s.node i) < 2 ^ 8 from ((s.node i).extractLsb' 0 8).isLt)]
      exact hz
    split at h <;> cases h
  intro fuel
  induction fuel with
  | zero =>
    intro i d seen t u e hd hu hn hs _ h
    obtain rfl : d = 255 := by omega
    unfold visit at h
    split at h
    · rename_i hi; injection h with h; exact ⟨1, i, .outside hi, h.symm⟩
    rename_i hi
    dsimp only at h
    split at h
    · rename_i hl; exact leafCase i 255 seen t _ e (by omega) hn hs hl h
    rename_i hl
    rw [hn] at hl h
    split at h
    · rename_i hc; injection h with h; exact ⟨4, i, .reservedInternal (by omega) (by simpa using hl) hc, h.symm⟩
    · rename_i hc
      injection h with h
      exact ⟨2, i, .tooDeep (by omega) (by simpa using hl) (by simpa using hc), h.symm⟩
  | succ fuel ih =>
    intro i d seen t u e hd hu hn hs hnd h
    by_cases hi : Config.arenaNodes ≤ i
    · rw [visit, if_pos hi] at h; injection h with h; exact ⟨1, i, .outside hi, h.symm⟩
    by_cases hl : nodeIsLeaf (t.node i) = true
    · rw [visit_leaf (by omega) hl] at h; exact leafCase i d seen t _ e (by omega) hn hs hl h
    simp only [Bool.not_eq_true] at hl
    by_cases hc : internalClear (t.node i) = true
    · have hfuel : fuel = 255 - (d + 1) := by omega
      rw [show fuel + 1 = 255 - d by omega, visit_internal hu (by omega) (by omega) hl hc, ← hfuel] at h
      split at h
      · rename_i hleft
        injection h with h
        subst h
        obtain ⟨c, j, hb, he⟩ := ih _ (d + 1) seen t (u ++ [false]) _ (by omega) (by simp [hu]) hn hs hnd hleft
        rw [hn] at hl hc hb
        exact ⟨c, j, .left (by omega) (by omega) hl hc hb, he⟩
      · rename_i m hleft
        obtain ⟨L, hL, hdep, hLn, hz, -⟩ := visit_ok (by omega) hleft
        have hok := visit_holds (fuel := fuel) (u := u ++ [false]) hL hdep (by simp; omega) (.inl (by simp)) hLn hz
        rw [List.length_append, hu, List.length_singleton, hleft] at hok
        injection hok with hok
        have hlen : (u ++ [false]).length = d + 1 := by simp [hu]
        have hnd' : (seen ++ L.symbols).Nodup :=
          List.nodup_append.2 ⟨hnd, hLn, fun a ha b hb hab => (hs a).2 ha (by rw [hab]; exact hz b hb)⟩
        obtain ⟨c, j, hb, he⟩ := ih _ (d + 1) (seen ++ L.symbols) m (u ++ [true]) _ (by omega) (by simp [hu])
          (fun k => by rw [hok, State.setEntries_node, hn]) (by rw [hok]; exact hs.setEntries (by simp) (by omega) hLn) hnd' h
        rw [hn] at hl hc hb hL
        exact ⟨c, j, .right (by omega) (by omega) hl hc (State.HoldsTree.congr (fun k => (hn k).symm) hL) (by omega) hnd' hb, he⟩
    · simp only [Bool.not_eq_true] at hc
      rw [visit, if_neg hi] at h
      simp only [hl, hc] at h
      rw [hn] at hl hc
      simp at h
      exact ⟨4, i, .reservedInternal (by omega) hl hc, h.symm⟩

/-- The ASSIGN unit fails exactly where `FirstBad` says (R102, R103). -/
theorem assignUnit_error_iff {s : State} {e : UnitErr} :
    assignUnit s = .error e ↔ ∃ subcode j, s.FirstBad s.rootSnap.toNat 0 [] subcode j ∧ e = badTree subcode j := by
  constructor
  · exact firstBad_of_visit 255 _ 0 [] s.clearLens [] e rfl rfl (fun _ => rfl) s.hasCodesOf_clearLens List.nodup_nil
  · rintro ⟨c, j, h, rfl⟩
    exact visit_firstBad h s.clearLens [] rfl (fun _ => rfl) s.hasCodesOf_clearLens

end Sys2Proof.Machine
end

