-- ==== Sys2Proof/Tests/Slice0.lean ====
section
/-!
SUPPORT. The model's own tests. Every expected value is from spec/95_test_vectors.md (the vector is named) or from the
rule named; each is about one step, one access or one word. The last part shows, for every obligation that has
hypotheses, values that meet them.
-/

-- One theorem after another: each waits for the kernel, and every waiting thread holds a stack.
set_option Elab.async false

namespace Sys2Proof.Tests

open Sys2Proof.Machine

/-! ### Small states -/

/-- Right after reset, without the tree engine. -/
def noTree : State := { State.reset with hasTree := false }

/-- A state in which the engine is about to run the first unit of the command. -/
def running (i : Instr) (s : State) : State :=
  { s with busy := true, lastCmd := encode i, remain := units (encode i), rootSnap := s.root }

/-- A code-table entry. -/
def withCode (sym : Nat) (n : Byte) (c : BitVec 255) (s : State) : State := (s.setLen sym n).setCode sym c

/-- "CT abc" of spec/95_test_vectors.md §0. -/
def tableAbc (s : State) : State := withCode 0x63 2#8 3#255 (withCode 0x62 2#8 2#255 (withCode 0x61 1#8 0#255 s))

/-- "Arena abc" of spec/95_test_vectors.md §0. -/
def arenaAbc (s : State) : State :=
  { ((((s.setWord .arena 0 0x80000061#32).setWord .arena 4 0x80000062#32).setWord .arena 8 0x80000063#32).setWord
      .arena 12 0x00020001#32).setWord .arena 16 0x00030000#32 with root := 4#9 }

/-- An arena whose root is the leaf 0x41. -/
def arenaLeaf (s : State) : State := { s.setWord .arena 0 0x80000041#32 with root := 0#9 }

/-- An arena whose only node is internal and its own two children. -/
def arenaLoop (s : State) : State := { s.setWord .arena 0 0x00000000#32 with root := 0#9 }

/-- IN holds the bytes and nothing else is readable. -/
def withInput (bs : List Byte) (s : State) : State :=
  { s.setBytes .inBuf 0 bs with inLimit := BitVec.ofNat 16 bs.length }

/-- The pending bits of ACC. -/
def withAcc (b : BitVec 8) (n : BitVec 3) (s : State) : State := { s with accBits := b, accN := n }

/-- The step answers a next state of which `p` holds. -/
def nextIs (o : Host.Outcome State Fault Refusal) (p : State → Bool) : Bool :=
  match o with
  | .next s => p s
  | .fault _ | .refused _ => false

/-- The unit failed with this code and this ERRINFO (`E(c, i)` of spec/95_test_vectors.md §0). -/
def failed (c : BitVec 4) (i : Word) (t : State) : Bool :=
  !t.busy && t.err && !t.done && t.errCode == c && t.errInfo == i

/-! ### Well-formedness: an ill-formed term for each check (R83, R87, R12) -/

theorem test_wf_n_zero : (Instr.putbits 0#5 0#16).wellFormed = false := by decide
theorem test_wf_n_seventeen : (Instr.putbits 17#5 0#16).wellFormed = false := by decide
theorem test_wf_value_too_wide : (Instr.putbits 3#5 8#16).wellFormed = false := by decide
theorem test_wf_boundary : (Instr.putbits 16#5 0xFFFF#16).wellFormed = true ∧ (Instr.putbits 1#5 1#16).wellFormed = true := by
  decide
theorem test_wf_absent_assign : Instr.assign.present false = false ∧ Instr.assign.isLegal false = false := by decide
theorem test_wf_absent_unpackt : (Instr.unpackt 5#27).present false = false ∧ (Instr.unpack 5#27).isLegal false = true := by
  decide

/-! ### Decoding: words written out from R81 to R85 -/

theorem test_decode_nop : decode 0b00000_000000000000000000000000000#32 = .ok .nop := by decide
theorem test_decode_putbits : decode 0b00001_000000_10000_1010010110100101#32 = .ok (.putbits 16#5 0xA5A5#16) := by decide
theorem test_decode_putsym : decode 0b00010_0000000000000000000_01100010#32 = .ok (.putsym 0x62#8) := by decide
theorem test_decode_packbuf : decode 0b00011_111111111111111111111111111#32 = .ok (.packbuf 134217727#27) := by decide
theorem test_decode_flush : decode 0b00100_000000000000000000000000000#32 = .ok .flush := by decide
theorem test_decode_unpack : decode 0b00101_000000000000000000000000111#32 = .ok (.unpack 7#27) := by decide
theorem test_decode_alignin : decode 0b00110_000000000000000000000000000#32 = .ok .alignin := by decide
theorem test_decode_clrct : decode 0b00111_000000000000000000000000000#32 = .ok .clrct := by decide
theorem test_decode_assign : decode 0b01000_000000000000000000000000000#32 = .ok .assign := by decide
theorem test_decode_unpackt : decode 0b01001_100000000000000000000000001#32 = .ok (.unpackt 0x4000001#27) := by decide

/-- E2, E8, E9, E10, E11, E12, E6, E13, E14. -/
theorem test_decode_rejects :
    decode 0x00000001#32 = .error (.reservedBits 0#5) ∧ decode 0x10000100#32 = .error (.reservedBits 2#5) ∧
    decode 0x20000001#32 = .error (.reservedBits 4#5) ∧ decode 0x30000004#32 = .error (.reservedBits 6#5) ∧
    decode 0x38000010#32 = .error (.reservedBits 7#5) ∧ decode 0x40000001#32 = .error (.reservedBits 8#5) ∧
    decode 0x08230005#32 = .error (.reservedBits 1#5) ∧ decode 0x50000000#32 = .error (.reservedOpcode 0x0A#5) ∧
    decode 0xF8000000#32 = .error (.reservedOpcode 0x1F#5) := by decide

/-- E1 to E18: which words are legal. -/
theorem test_legal_words :
    legal true 0x00000000#32 = true ∧ legal true 0x00000001#32 = false ∧ legal true 0x08000000#32 = false ∧
    legal true 0x08110000#32 = false ∧ legal true 0x08030008#32 = false ∧ legal true 0x08230005#32 = false ∧
    legal true 0x0810FFFF#32 = true ∧ legal true 0x1FFFFFFF#32 = true ∧ legal false 0x40000000#32 = false ∧
    legal false 0x48000005#32 = false ∧ legal false 0x28000005#32 = true := by decide

theorem test_decodeTableWord : decodeTableWord 32 0x28000006 = some (.unpack 6#27) ∧ decodeTableWord 32 0x50000000 = none := by
  decide

/-- The word placed for the next step is run by it: CLRCT commits its unit. -/
theorem test_withFetchWord :
    nextIs (step (State.reset.withFetchWord 32 0x38000000)) (fun t => t.busy && t.symCount == 1#27 && t.remain == 0#27) =
      true := by decide

/-! ### Accept (R26) -/

/-- E2 and E20: an illegal word, with DONE set beforehand. -/
theorem test_accept_illegal :
    failed 1#4 0#32 ({ State.reset with done := true }.hostWrite cmdAddr 0x00000001#32) = true ∧
    ({ State.reset with done := true }.hostWrite cmdAddr 0x00000001#32).lastCmd = 0x00000001#32 := by decide

/-- E15: REMAIN is COUNT at accept. -/
theorem test_accept_packbuf :
    (State.reset.hostWrite cmdAddr 0x1FFFFFFF#32).remain = 134217727#27 ∧
    (State.reset.hostWrite cmdAddr 0x1FFFFFFF#32).busy = true := by decide

/-! ### One unit of each command -/

/-- T13: NOP. -/
theorem test_nop : nextIs (exec .nop (running .nop State.reset)) (fun t => t.symCount == 1#27 && t.remain == 0#27) = true := by
  decide

/-- R66: the completion step. -/
theorem test_nop_completes :
    nextIs (exec .nop { running .nop State.reset with remain := 0#27 }) (fun t => t.done && !t.busy) = true := by decide

/-- B4: PUTBITS across two bytes. -/
theorem test_putbits :
    nextIs (exec (.putbits 16#5 0xA5A5#16) (running (.putbits 16#5 0xA5A5#16) (withAcc 0xFE#8 7#3 State.reset))) (fun t =>
      t.byte .outBuf 0 == 0xFF#8 && t.byte .outBuf 1 == 0x4B#8 && t.outPtr == 2#16 && t.accBits == 0x4A#8 &&
        t.accN == 7#3 && t.bitCount == 16#32) = true := by decide

/-- B11: PUTBITS without room. -/
theorem test_putbits_overflow :
    nextIs (exec (.putbits 8#5 0#16) (running (.putbits 8#5 0#16) { withAcc 0x80#8 1#3 State.reset with outPtr := 16384#16 }))
      (failed 3#4 1#32) = true := by decide

/-- B6: PUTSYM. -/
theorem test_putsym :
    nextIs (exec (.putsym 0x62#8) (running (.putsym 0x62#8) (tableAbc State.reset))) (fun t =>
      t.accBits == 0x80#8 && t.accN == 2#3 && t.bitCount == 2#32) = true := by decide +kernel

/-- B7: PUTSYM of a symbol with no code. -/
theorem test_putsym_unknown :
    nextIs (exec (.putsym 0x62#8) (running (.putsym 0x62#8) State.reset)) (failed 2#4 0x62#32) = true := by decide

/-- B16, first unit: PACKBUF from an unaligned IN_PTR. -/
theorem test_packbuf :
    nextIs (exec (.packbuf 2#27)
      (running (.packbuf 2#27) { tableAbc (withInput [0x06#8, 0x16#8, 0x30#8] State.reset) with inPtr := 4#18 })) (fun t =>
      t.inPtr == 12#18 && t.accN == 1#3 && t.accBits == 0#8 && t.bitCount == 1#32) = true := by decide +kernel

/-- R123: PACKBUF with fewer than 8 bits left. -/
theorem test_packbuf_exhausted :
    nextIs (exec (.packbuf 1#27) (running (.packbuf 1#27) { withInput [0x61#8] State.reset with inPtr := 1#18 }))
      (failed 4#4 8#32) = true := by decide +kernel

/-- B3: FLUSH. -/
theorem test_flush :
    nextIs (exec .flush (running .flush { withAcc 0xE0#8 3#3 State.reset with outPtr := 2#16, bitCount := 19#32 })) (fun t =>
      t.byte .outBuf 2 == 0xE0#8 && t.outPtr == 3#16 && t.accN == 0#3 && t.accBits == 0#8 && t.bitCount == 19#32) =
      true := by decide

/-- B12: FLUSH without room. -/
theorem test_flush_overflow :
    nextIs (exec .flush (running .flush { withAcc 0x80#8 1#3 State.reset with outPtr := 16384#16 })) (failed 3#4 1#32) =
      true := by decide

/-- U1, first unit: UNPACK from bit 3 decodes 'b'. -/
theorem test_unpack :
    nextIs (exec (.unpack 3#27)
      (running (.unpack 3#27) { tableAbc (withInput [0x15#8, 0x80#8] State.reset) with inPtr := 3#18 })) (fun t =>
      t.byte .outBuf 0 == 0x62#8 && t.inPtr == 5#18 && t.bitCount == 8#32) = true := by decide +kernel

/-- U6, first unit: of two equal codes the lowest symbol wins. -/
theorem test_unpack_lowest :
    nextIs (exec (.unpack 2#27) (running (.unpack 2#27)
      (withCode 0x63 2#8 1#255 (withCode 0x62 1#8 0#255 (withCode 0x61 1#8 0#255 (withInput [0x40#8] State.reset))))))
      (fun t => t.byte .outBuf 0 == 0x61#8 && t.inPtr == 1#18) = true := by decide +kernel

/-- A5: ALIGNIN. -/
theorem test_alignin :
    nextIs (exec .alignin (running .alignin { State.reset with inPtr := 9#18 })) (fun t => t.inPtr == 16#18) = true := by
  decide

/-- A7: ALIGNIN wraps. -/
theorem test_alignin_wraps :
    nextIs (exec .alignin (running .alignin { State.reset with inPtr := 262137#18 })) (fun t => t.inPtr == 0#18) = true := by
  decide

/-- T1: CLRCT keeps CODE. -/
theorem test_clrct :
    nextIs (exec .clrct (running .clrct (withCode 0x61 1#8 5#255 State.reset))) (fun t =>
      t.len 0x61 == 0#8 && t.code 0x61 == 5#255) = true := by decide +kernel

/-- T3: ASSIGN on arena abc. -/
theorem test_assign :
    nextIs (exec .assign (running .assign (arenaAbc State.reset))) (fun t =>
      t.len 0x61 == 1#8 && t.code 0x61 == 0#255 && t.len 0x62 == 2#8 && t.code 0x62 == 2#255 && t.len 0x63 == 2#8 &&
        t.code 0x63 == 3#255) = true := by decide +kernel

/-- T7: a duplicate leaf; the clearing of LEN is discarded too. -/
theorem test_assign_duplicate :
    nextIs (exec .assign (running .assign
      ((arenaAbc (State.reset.setLen 0x70 5#8)).setWord .arena 8 0x80000061#32))) (fun t =>
      failed 6#4 0x00030002#32 t && t.len 0x70 == 5#8) = true := by decide +kernel

/-- U10, fourth unit: UNPACKT from bit 3 decodes 'b'. -/
theorem test_unpackt :
    nextIs (exec (.unpackt 6#27)
      (running (.unpackt 6#27) { arenaAbc (withInput [0x15#8, 0x80#8] State.reset) with inPtr := 3#18 })) (fun t =>
      t.byte .outBuf 0 == 0x62#8 && t.inPtr == 5#18) = true := by decide +kernel

/-- U12: a leaf with reserved bits set. -/
theorem test_unpackt_reserved :
    nextIs (exec (.unpackt 1#27) (running (.unpackt 1#27)
      ((arenaAbc (withInput [0xC0#8] State.reset)).setWord .arena 8 0xFFFFFFFF#32))) (failed 6#4 0x00040002#32) = true := by
  decide +kernel

/-! ### The host port -/

/-- H1, H2. -/
theorem test_id_caps :
    State.reset.hostRead 0x0000#16 = 0x48425055#32 ∧ State.reset.hostRead 0x0004#16 = 0x1010FF01#32 ∧
    noTree.hostRead 0x0004#16 = 0x1010FF00#32 ∧ (noTree.hostWrite 0x0038#16 5#32).hostRead 0x0038#16 = 0#32 ∧
    noTree.hostRead 0x5000#16 = 0#32 := by decide

/-- H3. -/
theorem test_reserved_addresses :
    State.reset.hostRead 0x003C#16 = 0#32 ∧ State.reset.hostWrite 0x003C#16 1#32 = State.reset ∧
    State.reset.hostRead 0x5800#16 = 0#32 ∧ State.reset.hostRead 0x57FC#16 = 0#32 := by decide

/-- H4, H5, H6. -/
theorem test_acc_mask :
    (State.reset.hostWrite 0x0030#16 0x000003FF#32).hostRead 0x0030#16 = 0x000003E0#32 ∧
    (State.reset.hostWrite 0x0030#16 0x00000080#32).hostRead 0x0030#16 = 0#32 ∧
    (State.reset.hostWrite 0x0030#16 0xFFFFFFFF#32).hostRead 0x0030#16 = 0x000007FE#32 := by decide

/-- H7. -/
theorem test_register_widths :
    (State.reset.hostWrite 0x0024#16 0xFFFFFFFF#32).hostRead 0x0024#16 = 0x0003FFFF#32 ∧
    (State.reset.hostWrite 0x0038#16 0x0000FFFF#32).hostRead 0x0038#16 = 0x000001FF#32 := by decide

/-- H8. -/
theorem test_table_window :
    (State.reset.hostWrite 0x1000#16 0xFFFFFFFF#32).hostRead 0x1000#16 = 0x000000FF#32 ∧
    (State.reset.hostWrite 0x1020#16 0xFFFFFFFF#32).hostRead 0x1020#16 = 0x7FFFFFFF#32 ∧
    (State.reset.hostWrite 0x1024#16 0xFFFFFFFF#32).hostRead 0x1024#16 = 0#32 := by decide +kernel

/-- H9: a word of IN is little-endian. -/
theorem test_input_window :
    ((State.reset.hostWrite 0x8000#16 0x44332211#32).bytes .inBuf 0 4) = [0x11#8, 0x22#8, 0x33#8, 0x44#8] := by
  decide +kernel

/-- H10: accesses while BUSY = 1. -/
theorem test_busy_drops :
    ((running (.packbuf 16#27) State.reset).hostWrite 0x0010#16 0x20000000#32).drop = true ∧
    ((running (.packbuf 16#27) State.reset).hostWrite 0x0010#16 0x20000000#32).lastCmd = 0x18000010#32 ∧
    ((running (.packbuf 16#27) State.reset).hostWrite 0x0024#16 0x100#32).inPtr = 0#18 ∧
    (running (.packbuf 16#27) State.reset).hostRead 0x8000#16 = 0#32 := by decide

/-- H12, H13. -/
theorem test_status_after_error :
    { State.reset with err := true, errCode := 2#4, errInfo := 0x62#32 }.hostRead statusAddr = 0x00000024#32 ∧
    ({ State.reset with err := true, errCode := 2#4 }.hostWrite cmdAddr 0#32).hostRead statusAddr = 0x0000002C#32 ∧
    ({ State.reset with err := true, errCode := 2#4, drop := true }.hostWrite statusAddr 4#32).hostRead statusAddr =
      0x00000008#32 := by decide

/-- H17: the soft reset. -/
theorem test_soft_reset :
    ((arenaAbc (tableAbc State.reset)).hostWrite 0x0008#16 3#32).hostRead 0x0008#16 = 0#32 ∧
    ((arenaAbc (tableAbc State.reset)).hostWrite 0x0008#16 3#32).len 0x61 = 0#8 ∧
    ((arenaAbc (tableAbc State.reset)).hostWrite 0x0008#16 3#32).code 0x63 = 3#255 ∧
    ((arenaAbc (tableAbc State.reset)).hostWrite 0x0008#16 3#32).node 4 = 0x00030000#32 := by decide +kernel

/-! ### Host programs -/

/-- R91, R92: the words of three lines. -/
theorem test_assemble :
    assembleLine "PUTBITS 3, 5 ; five" = some [0x08030005#32] ∧ assembleLine "PUTBYTE 'A'" = some [0x08080041#32] ∧
    assembleLine "PUTCODE 17, 0x1FFFF" = some [0x08010001#32, 0x0810FFFF#32] := by decide +kernel

/-- R91: an operand out of range is rejected; so is a line with no command (assumption 12). -/
theorem test_assemble_rejects :
    assembleLine "PUTBITS 17, 0" = none ∧ assembleLine "PUTBITS 3, 8" = none ∧ assembleLine "PUTSYM 256" = none ∧
    assembleLine "PACKBUF 134217728" = none ∧ assembleLine "" = none ∧ assembleLine "; NOP" = none := by decide +kernel

/-- P1, P2, P3: the port accesses of host statements. -/
theorem test_statements :
    (HostStmt.ldin [0x61, 0x61, 0x61, 0x62, 0x62, 0x63]).expand =
      some [.write 0x8000#16 0x62616161#32, .write 0x8004#16 0x00006362#32] ∧
    (HostStmt.setnode 3 0x00020001).expand = some [.write 0x500C#16 0x00020001#32] ∧
    (HostStmt.run (.packbuf 6)).expand = some [.write 0x0010#16 0x18000006#32, .wait] ∧
    HostStmt.ack.expand = some [.write 0x000C#16 0x0000000E#32] ∧
    (HostStmt.setcode 0x62 2 2).expand.map (List.take 3) =
      some [.write 0x2880#16 2#32, .write 0x2884#16 2#32, .write 0x2888#16 0#32] := by decide +kernel

/-- The text of a program loads as its statements; an unknown statement is refused. -/
theorem test_load_text :
    nextIs (loadText ["wr 0x0028, 4   ; IN_LIMIT = 4", "", "run ALIGNIN"] State.reset) (fun t =>
      t.inputs == [.write 0x0028#16 4#32, .write 0x0010#16 0x30000000#32, .wait]) = true ∧
    (match loadText ["jump 3"] State.reset with
      | .refused .hostStatement => true
      | _ => false) = true := by decide +kernel

/-- P6: several statements on a line. -/
theorem test_statement_lines :
    parseProgram ["setnode 7, 0x60005 ; setnode 8, 0x70000"] = some [.setnode 7 0x60005, .setnode 8 0x70000] ∧
    parseProgram ["wr 0x28, 3; wr 0x24, 0; wait"] = some [.wr 0x28 3, .wr 0x24 0, .wait] := by decide +kernel

/-- P1: what a listing spells out after a `;` is a comment, as is a line that begins with one. -/
theorem test_statement_comments :
    parseProgram ["ack ; wr 0xC, 0xE", "; wr 0x8000..", "run FLUSH ; wr 0x10, 3 ; wait", "rd 0xC000 ; OUT[0..3]"] =
      some [.ack, .run .flush, .rd 0xC000] := by decide +kernel

/-- R93: `expect X = V` of a register, a field and a memory element; it is no port access, and is kept with its place. -/
theorem test_expect :
    parseProgram ["wr 0x28, 6 ; expect IN_LIMIT = 6", "expect ACC_N=1", "expect CT[9].LEN = 'A'"] =
      some [.wr 0x0028 6, .expect (.field .inLimit 0 32) 6, .expect (.field .acc 8 3) 1, .expect (.ctLen 9) 0x41] ∧
    expandProgram [.wr 0x0028 6, .expect (.field .inLimit 0 32) 6] = some [.write 0x0028#16 6#32] ∧
    expectations 0 [.wr 0x0028 6, .expect (.field .inLimit 0 32) 6] = [⟨1, .field .inLimit 0 32, 6⟩] := by decide +kernel

/-- R180: an `expect` with no `=`, no value, an unknown name, or an index out of range is refused. -/
theorem test_expect_refused :
    parseProgram ["expect"] = none ∧ parseProgram ["expect ID 3"] = none ∧ parseProgram ["expect ID ="] = none ∧
    parseProgram ["expect PC = 3"] = none ∧ parseProgram ["expect CT[3] = 1"] = none ∧
    (HostStmt.expect (.arena 511) 0).expand = none ∧ (HostStmt.expect (.arena 510) 0).expand = some [] := by decide +kernel

/-- P1's reading of ACC and W1's of its fields: ACC_BITS = 0x80 and ACC_N = 1. -/
theorem test_elements :
    (withAcc 0x80#8 1#3 State.reset).element (.field .acc 0 32) = 0x180 ∧
    (withAcc 0x80#8 1#3 State.reset).element (.field .acc 0 8) = 0x80 ∧
    (withAcc 0x80#8 1#3 State.reset).element (.field .acc 8 3) = 1 ∧ State.reset.element (.ctLen 7) = 0 := by decide +kernel

/-- R201: after a STATUS read that returned BUSY = 0 a run with no statement left has ended; after a CMD write with no
such read it has not, though BUSY = 0 after the illegal word. -/
theorem test_finished :
    nextIs (step { State.reset with inputs := [.wait] }) (fun t => decide (t.inputs = [] ∧ t.busy = false ∧ t.idleSeen)) =
      true ∧
    nextIs (step { State.reset with inputs := [.write cmdAddr 0x50000000#32], idleSeen := true })
      (fun t => decide (t.inputs = [] ∧ t.busy = false ∧ t.idleSeen = false)) = true ∧
    ¬State.reset.Finished := by
  unfold State.Finished
  decide

/-! ### Witnesses: for each obligation with hypotheses, values that meet them -/

theorem test_witness_ResetStateIsTheHardwareResetState : State.reset.hasTree = true := rfl

theorem test_witness_HardwareResetActsAtOnce : Space.inBuf ≠ .ctLen ∧ Space.ctCode ≠ .ctLen := by decide

theorem test_witness_SoftResetKeepsTheMemories :
    State.reset.inReset = false ∧ target 0x0008#16 = .ctrl ∧ target 0x000B#16 = .ctrl ∧ (3#32).getLsbD 1 = true ∧
    Space.arena ≠ .ctLen ∧ target 0x000C#16 = .status := by decide

/-- Both ends of every range of the map, and the addresses on either side of them. -/
theorem test_witness_AddressMapIsTheTable :
    target 0x003B#16 = .root ∧ target 0x003C#16 = .reserved ∧ target 0x0FFF#16 = .reserved ∧
    target 0x1000#16 = .ctLen 0 ∧ target 0x1003#16 = .ctLen 0 ∧ target 0x1004#16 = .ctCode 0 0 ∧
    target 0x1020#16 = .ctCode 0 7 ∧ target 0x1023#16 = .ctCode 0 7 ∧ target 0x1024#16 = .ctPad ∧
    target 0x4FC0#16 = .ctLen 255 ∧ target 0x4FFF#16 = .ctPad ∧ target 0x5000#16 = .arena 0 ∧
    target 0x57FB#16 = .arena 510 ∧ target 0x57FC#16 = .arenaPad ∧ target 0x57FF#16 = .arenaPad ∧
    target 0x5800#16 = .reserved ∧ target 0x7FFF#16 = .reserved ∧ target 0x8000#16 = .inWord 0 ∧
    target 0xBFFF#16 = .inWord 4095 ∧ target 0xC000#16 = .outWord 0 ∧ target 0xFFFF#16 = .outWord 4095 := by
  decide +kernel

theorem test_witness_IdAndCapsAreConstants :
    State.reset.inReset = false ∧ target 0x0000#16 = .id ∧ target 0x0004#16 = .caps := by decide

theorem test_witness_ControlRegisterWrites :
    State.reset.inReset = false ∧ target 0x0008#16 = .ctrl ∧ (2#32).getLsbD 1 = true ∧ (1#32).getLsbD 1 = false := by decide

theorem test_witness_StatusWritesClearTheirBits : State.reset.inReset = false ∧ target statusAddr = .status := by decide

theorem test_witness_StatusReadsItsFields : noTree.inReset = false ∧ target 0x000F#16 = .status := by decide

theorem test_witness_CommandWriteIsTheAcceptRule :
    State.reset.inReset = false ∧ target cmdAddr = .cmd ∧ (running .nop State.reset).busy = true ∧
    { State.reset with err := true }.err = true ∧ State.reset.busy = false ∧ State.reset.err = false ∧
    legal State.reset.hasTree 0x08110000#32 = false ∧ legal State.reset.hasTree 0x0810FFFF#32 = true ∧
    legal noTree.hasTree 0x40000000#32 = false := by decide

theorem test_witness_AccumulatorWritesMaskTheirBits :
    State.reset.inReset = false ∧ State.reset.busy = false ∧ target 0x0030#16 = .acc ∧
    (State.reset.hostWrite 0x0030#16 0x7FF#32).accBits = 0xFE#8 ∧ (State.reset.hostWrite 0x0030#16 0x0FF#32).accBits = 0#8 := by
  decide

theorem test_witness_StreamRegistersReadBack :
    State.reset.inReset = false ∧ State.reset.busy = false ∧ target 0x0024#16 = .inPtr ∧ target 0x0028#16 = .inLimit ∧
    target 0x002C#16 = .outPtr ∧ target 0x0034#16 = .bitCount ∧ target 0x0038#16 = .root ∧
    State.reset.hasTree = true ∧ noTree.hasTree = false ∧ noTree.inReset = false ∧ noTree.busy = false := by decide

theorem test_witness_ReadOnlyAndReservedIgnoreWrites :
    target 0x0014#16 = .lastCmd ∧ target 0x0018#16 = .remain ∧ target 0x001C#16 = .symCount ∧
    target 0x0020#16 = .errInfo ∧ target 0x003C#16 = .reserved ∧ target 0x5800#16 = .reserved ∧
    State.reset.inReset = false ∧ (running (.packbuf 134217727#27) State.reset).inReset = false ∧
    (running (.packbuf 134217727#27) State.reset).hostRead 0x0018#16 = 0x07FFFFFF#32 ∧
    (running (.packbuf 134217727#27) State.reset).hostRead 0x001C#16 = 0#32 ∧
    (running (.packbuf 134217727#27) State.reset).hostRead 0x0014#16 = 0x1FFFFFFF#32 ∧
    { State.reset with errInfo := 0x62#32 }.hostRead 0x0020#16 = 0x62#32 := by decide

/-- A running state, and the first and the last address of each range. -/
theorem test_witness_EngineOwnedResourcesWhileBusy :
    (running .nop State.reset).inReset = false ∧ (running .nop State.reset).busy = true ∧
    ((running .nop State.reset).hostWrite 0x0024#16 1#32).drop = true ∧
    ((running .nop State.reset).hostWrite 0x003B#16 1#32).drop = true ∧
    ((running .nop State.reset).hostWrite 0x0023#16 1#32).drop = false ∧
    ((running .nop State.reset).hostWrite 0x003C#16 1#32).drop = false ∧
    ((running .nop State.reset).hostWrite 0x0FFF#16 1#32).drop = false ∧
    ((running .nop State.reset).hostWrite 0x1000#16 1#32).drop = true ∧
    ((running .nop State.reset).hostWrite 0x57FF#16 1#32).drop = true ∧
    ((running .nop State.reset).hostWrite 0x5800#16 1#32).drop = false ∧
    ((running .nop State.reset).hostWrite 0x7FFF#16 1#32).drop = false ∧
    ((running .nop State.reset).hostWrite 0x8000#16 1#32).drop = true ∧
    ((running .nop State.reset).hostWrite 0xFFFF#16 1#32).drop = true ∧
    State.reset.inReset = false ∧ State.reset.busy = false ∧
    target 0x0024#16 = .inPtr ∧ target 0x0028#16 = .inLimit ∧ target 0x002C#16 = .outPtr ∧ target 0x0030#16 = .acc ∧
    target 0x0034#16 = .bitCount ∧ target 0x0038#16 = .root ∧
    (running .nop (withAcc 0x80#8 1#3 State.reset)).hostRead 0x0030#16 = 0x180#32 ∧
    (running .nop { State.reset with root := 4#9 }).hostRead 0x0038#16 = 4#32 ∧
    (running .nop { noTree with root := 4#9 }).hostRead 0x0038#16 = 0#32 := by decide

theorem test_witness_WindowWordsReadBack :
    State.reset.inReset = false ∧ State.reset.busy = false ∧ target 0x8000#16 = .inWord 0 ∧
    target 0xFFFC#16 = .outWord 4095 ∧ target 0x5000#16 = .arena 0 ∧ State.reset.hasTree = true ∧
    noTree.hasTree = false ∧ target 0x1000#16 = .ctLen 0 ∧ target 0x101C#16 = .ctCode 0 6 ∧
    target 0x1020#16 = .ctCode 0 7 ∧ target 0x1024#16 = .ctPad ∧ target 0x57FC#16 = .arenaPad := by
  decide +kernel

theorem test_witness_WindowWritesAreLocal :
    State.reset.inReset = false ∧ State.reset.busy = false ∧ (target 0x1020#16).isWindow = true ∧
    target 0x1060#16 ≠ target 0x1020#16 := by decide +kernel

theorem test_witness_InterruptIsALevel :
    { State.reset with irqEn := true, done := true }.irq = true ∧ State.reset.irqEn = noTree.irqEn ∧
    State.reset.done = noTree.done ∧ State.reset.err = noTree.err := by decide

theorem test_witness_HostCannotDisturbARunningCommand :
    (running .nop State.reset).busy = true ∧ (running .nop State.reset).inReset = false ∧
    ¬(target 0x0008#16 = .ctrl ∧ (1#32).getLsbD 1 = true) ∧ ¬(target 0x0024#16 = .ctrl ∧ (2#32).getLsbD 1 = true) := by
  decide

theorem test_witness_EncodeOfDecodeIsTheWord : decode 0x48000006#32 = .ok (.unpackt 6#27) := by decide

theorem test_witness_LegalWordsAreTheseWords :
    State.reset.Accepting ∧ legal State.reset.hasTree 0x00000001#32 = false ∧ legal true 0x08010001#32 = true ∧
    legal true 0x0810FFFF#32 = true := ⟨⟨rfl, rfl, rfl⟩, by decide⟩

theorem test_witness_PutcodeAppendsItsBits :
    1 ≤ 1 ∧ 1 < 2 ^ 1 ∧ 1 ≤ 255 ∧ 2 ^ 255 - 1 < 2 ^ 255 ∧ (asmPutcode 255 (2 ^ 255 - 1)).isSome = true := by decide +kernel

theorem test_witness_StepRunsTheDecodedInstruction :
    (running .clrct State.reset).busy = true ∧ decode (running .clrct State.reset).lastCmd = .ok .clrct ∧
    Instr.clrct.isLegal State.reset.hasTree = true ∧ (running .clrct State.reset).turns = [] ∧
    { running .clrct State.reset with turns := [.engine, .host] }.turns = .engine :: [.host] := by decide

theorem test_witness_StepIssuesTheWrittenInstruction :
    State.reset.busy = false ∧ State.reset.turns = [] ∧
    { State.reset with inputs := [.write cmdAddr (encode .flush), .wait] }.inputs = .write cmdAddr (encode .flush) :: [.wait] ∧
    { State.reset with turns := [.host] }.turns = .host :: [] := by decide

/-- Each input, at a laid down host turn and at the default one. -/
theorem test_witness_StepPerformsTheHostAccess :
    { running .nop State.reset with turns := [.host], inputs := [.wait] }.turns = .host :: [] ∧
    { running .nop State.reset with turns := [.host], inputs := [.wait] }.inputs = .wait :: [] ∧
    (running .nop State.reset).inReset = false ∧
    State.reset.turns = [] ∧ State.reset.busy = false ∧ State.reset.inputs = [] ∧
    { State.reset with inputs := [.read statusAddr] }.inputs = .read statusAddr :: [] ∧
    { State.reset with inputs := [.write 0x0028#16 6#32] }.inputs = .write 0x0028#16 6#32 :: [] ∧
    { State.reset with inReset := true, inputs := [.wait] }.inputs = .wait :: [] ∧
    { State.reset with inputs := [.resetAssert] }.inputs = .resetAssert :: [] ∧
    { State.reset with inReset := true, inputs := [.resetRelease] }.inputs = .resetRelease :: [] ∧
    Space.arena ≠ .ctLen := by decide

/-- R190: the reset input asserted by a step while a command runs, and released by another. -/
theorem test_reset_steps :
    nextIs (step { running .nop State.reset with turns := [.host], inputs := [.resetAssert] })
      (fun t => t.inReset && !t.busy && t.lastCmd == 0#32 && t.epoch == 1 && !t.done && !t.err) = true ∧
    nextIs (step { State.reset with inReset := true, inputs := [.resetRelease] }) (fun t => t == State.reset) = true := by
  decide

theorem test_witness_AcceptStartsEveryLegalInstruction :
    State.reset.Accepting ∧ noTree.Accepting ∧ (Instr.unpackt 0#27).isLegal State.reset.hasTree = true ∧
    (Instr.unpackt 0#27).isLegal noTree.hasTree = false ∧ (Instr.putbits 17#5 0#16).isLegal State.reset.hasTree = false :=
  ⟨⟨rfl, rfl, rfl⟩, ⟨rfl, rfl, rfl⟩, by decide⟩

theorem test_witness_UnitsAreCountOrOne :
    State.reset.Accepting ∧ (Instr.packbuf 0#27).isLegal State.reset.hasTree = true ∧
    (Instr.unpackt 0#27).isLegal State.reset.hasTree = true := ⟨⟨rfl, rfl, rfl⟩, by decide⟩

theorem test_witness_CompletionStepSetsDone :
    (running (.packbuf 0#27) State.reset).busy = true ∧ (running (.packbuf 0#27) State.reset).remain = 0#27 := by decide

theorem test_witness_UnitsCommitOrFailWhole : (running .assign State.reset).AtUnit := ⟨rfl, by decide⟩

theorem test_witness_CommandsChangeOnlyWhatTheirRulesName :
    (running .alignin State.reset).busy = true ∧ ∃ t, exec .alignin (running .alignin State.reset) = .next t :=
  ⟨rfl, _, rfl⟩

theorem test_witness_NopDoesNothing : (running .nop State.reset).AtUnit ∧ State.reset.Accepting :=
  ⟨⟨rfl, by decide⟩, rfl, rfl, rfl⟩

/-- Both clauses about a later state: it is at a unit, its LEN are all 0, and its IN has a bit left. -/
theorem test_witness_ClrctMarksEverySymbolAbsent :
    (running .clrct State.reset).AtUnit ∧ (running (.unpack 1#27) (withInput [0x00#8] State.reset)).AtUnit ∧
    (running (.unpack 1#27) (withInput [0x00#8] State.reset)).ctLen = (running .clrct State.reset).clearLens.commit.ctLen ∧
    exec .clrct (running .clrct State.reset) = .next (running .clrct State.reset).clearLens.commit ∧
    (running (.unpack 1#27) (withInput [0x00#8] State.reset)).inPtr.toNat <
      8 * (running (.unpack 1#27) (withInput [0x00#8] State.reset)).effLimit :=
  ⟨⟨rfl, by decide⟩, ⟨rfl, by decide +kernel⟩, rfl, exec_ok ⟨rfl, by decide⟩ rfl, by decide +kernel⟩

/-- IN_PTR at the last value that does not wrap and at the first that does (A6, A7). -/
theorem test_witness_AligninRoundsInPtrUp :
    (running .alignin { State.reset with inPtr := 262136#18 }).AtUnit ∧
    (running .alignin { State.reset with inPtr := 262137#18 }).AtUnit ∧ (262136#18).toNat % 8 = 0 ∧
    (262136#18).toNat ≤ 262136 ∧ 262137 ≤ (262137#18).toNat :=
  ⟨⟨rfl, by decide⟩, ⟨rfl, by decide⟩, by decide⟩

/-- The last bit of IN and the one past it (U9). -/
theorem test_witness_FetchReadsTheInputBits :
    1 ≤ 1 ∧ 131071 + 1 ≤ 8 * min { State.reset with inLimit := 0xFFFF#16 }.inLimit.toNat 16384 ∧
    8 * min { State.reset with inLimit := 0xFFFF#16 }.inLimit.toNat 16384 < 131072 + 1 := by decide

/-- B9, B10, B11: one byte of room, no byte complete at the end of OUT, and no room. -/
theorem test_witness_EmitAppendsToTheOutputStream :
    ({ withAcc 0xA0#8 4#3 State.reset with outPtr := 16383#16 } : State).Room 4 ∧
    ({ withAcc 0x80#8 1#3 State.reset with outPtr := 16384#16 } : State).Room 6 ∧
    ¬({ withAcc 0x80#8 1#3 State.reset with outPtr := 16384#16 } : State).Room 7 ∧
    (withAcc 0xFE#8 7#3 State.reset).accBits &&& accMask (withAcc 0xFE#8 7#3 State.reset).accN =
      (withAcc 0xFE#8 7#3 State.reset).accBits := by
  unfold State.Room
  decide

theorem test_witness_PutbitsAppendsItsBits :
    (Instr.putbits 16#5 0xFFFF#16).wellFormed = true ∧ (running (.putbits 16#5 0xFFFF#16) State.reset).AtUnit ∧
    (running (.putbits 16#5 0xFFFF#16) { State.reset with outPtr := 16382#16 }).Room (16#5).toNat ∧
    (running (.putbits 16#5 0xFFFF#16) { State.reset with outPtr := 16383#16 }).AtUnit ∧
    ¬(running (.putbits 16#5 0xFFFF#16) { State.reset with outPtr := 16383#16 }).Room (16#5).toNat := by
  unfold State.Room State.AtUnit
  decide

/-- A symbol with the longest code, one with none, and no room for a code. -/
theorem test_witness_PutsymAppendsTheCode :
    (running (.putsym 7#8) (State.reset.setLen 7 255#8)).AtUnit ∧
    (running (.putsym 7#8) (State.reset.setLen 7 255#8)).len (7#8).toNat ≠ 0#8 ∧
    (running (.putsym 7#8) (State.reset.setLen 7 255#8)).Room
      ((running (.putsym 7#8) (State.reset.setLen 7 255#8)).len (7#8).toNat).toNat ∧
    (running (.putsym 8#8) (State.reset.setLen 7 255#8)).len (8#8).toNat = 0#8 ∧
    ¬(running (.putsym 7#8) { State.reset.setLen 7 255#8 with outPtr := 16354#16 }).Room
      ((running (.putsym 7#8) { State.reset.setLen 7 255#8 with outPtr := 16354#16 }).len (7#8).toNat).toNat := by
  unfold State.Room State.AtUnit
  decide

/-- The three outcomes of a PACKBUF unit on one input byte, and an input one bit too short. -/
theorem test_witness_PackbufPacksTheNextByte :
    (running (.packbuf 1#27) (withInput [7#8] (State.reset.setLen 7 8#8))).AtUnit ∧
    (running (.packbuf 1#27) (withInput [7#8] (State.reset.setLen 7 8#8))).InputIs 0 (bitsOf 8 (7#8).toNat) ∧
    (running (.packbuf 1#27) (withInput [7#8] (State.reset.setLen 7 8#8))).len (7#8).toNat ≠ 0#8 ∧
    (running (.packbuf 1#27) (withInput [7#8] (State.reset.setLen 7 8#8))).Room 8 ∧
    ¬(running (.packbuf 1#27) { withInput [7#8] (State.reset.setLen 7 8#8) with outPtr := 16384#16 }).Room 8 ∧
    (running (.packbuf 1#27) (withInput [7#8] State.reset)).len (7#8).toNat = 0#8 ∧
    8 * (running (.packbuf 1#27) (withInput [7#8] State.reset)).effLimit < (1#18).toNat + 8 := by
  unfold State.Room State.AtUnit State.InputIs
  decide +kernel

theorem test_witness_FlushWritesThePendingByte :
    (running .flush State.reset).AtUnit ∧ (running .flush State.reset).accN = 0#3 ∧
    (running .flush (withAcc 0x80#8 1#3 State.reset)).accN ≠ 0#3 ∧
    (running .flush { withAcc 0x80#8 1#3 State.reset with outPtr := 16383#16 }).outPtr.toNat < 16384 ∧
    16384 ≤ (running .flush { withAcc 0x80#8 1#3 State.reset with outPtr := 16384#16 }).outPtr.toNat := by
  unfold State.AtUnit
  decide

theorem test_witness_FlushPadsTheStreamWithZeros :
    (running .flush { withAcc 0x80#8 1#3 State.reset with outPtr := 16383#16 }).AtUnit ∧
    (0x80#8 : BitVec 8) &&& accMask 1#3 = 0x80#8 ∧
    (running .flush { withAcc 0x80#8 1#3 State.reset with outPtr := 16383#16 }).outPtr.toNat < 16384 ∧
    16383 ≤ (running .flush { withAcc 0x80#8 1#3 State.reset with outPtr := 16383#16 }).outPtr.toNat := by
  unfold State.AtUnit
  decide

/-- The state of the UNPACK witnesses: 'a' = "0", 'b' = "10", no code for "11", and IN = 2C (U2). -/
def unpackable : State :=
  running (.unpack 4#27) (withCode 0x62 2#8 2#255 (withCode 0x61 1#8 0#255 (withInput [0x2C#8] State.reset)))

/-- The LEN of that state. -/
theorem unpackable_len : ∀ a, a < 256 → unpackable.len a ≠ 0#8 → a = 0x61 ∨ a = 0x62 := by decide +kernel

/-- The CODE strings of that state. -/
theorem unpackable_codes : unpackable.codeBits 0x61 = [false] ∧ unpackable.codeBits 0x62 = [true, false] := by
  decide +kernel

theorem test_witness_UnpackTakesTheShortestMatch :
    unpackable.AtUnit ∧ unpackable.len 0x61 ≠ 0#8 ∧ unpackable.InputIs unpackable.inPtr.toNat (unpackable.codeBits 0x61) ∧
    (∀ a, a < 256 → unpackable.len a ≠ 0#8 → (unpackable.len a).toNat < (unpackable.len 0x61).toNat →
      ¬(unpackable.codeBits a <+: unpackable.codeBits 0x61)) ∧
    (∀ a, a < 0x61 → unpackable.codeBits a ≠ unpackable.codeBits 0x61) ∧ unpackable.Room 8 ∧
    ¬({ unpackable with outPtr := 16384#16 } : State).Room 8 := by
  unfold State.AtUnit State.InputIs State.Room
  decide +kernel

/-- At bit 4 of IN the bits "11" begin: no code has them as a prefix, and "1" is a proper prefix of one. -/
theorem test_witness_UnpackReportsMalformedBits :
    ({ unpackable with inPtr := 4#18 } : State).AtUnit ∧ ({ unpackable with inPtr := 4#18 } : State).InputIs 4 ([true] ++ [true]) ∧
    (∀ a, a < 256 → ({ unpackable with inPtr := 4#18 } : State).len a ≠ 0#8 →
      ¬(({ unpackable with inPtr := 4#18 } : State).codeBits a <+: [true] ++ [true])) ∧
    (∃ a, a < 256 ∧ [true] <+: ({ unpackable with inPtr := 4#18 } : State).codeBits a) ∧
    (∀ a, a < 256 → ¬([true] ++ [true] <+: ({ unpackable with inPtr := 4#18 } : State).codeBits a)) := by
  unfold State.AtUnit State.InputIs
  exact ⟨by decide +kernel, by decide +kernel, by decide +kernel, ⟨0x62, by decide +kernel⟩, by decide +kernel⟩

/-- No bit at all (w = ""), and none after a last bit 1 that is a proper prefix of "10" (U5). -/
theorem test_witness_UnpackReportsExhaustedInput :
    (({ unpackable with inPtr := 8#18 } : State).AtUnit ∧ ({ unpackable with inPtr := 8#18 } : State).InputIs 8 [] ∧
      8 * ({ unpackable with inPtr := 8#18 } : State).effLimit < 8 + ([] : Bits).length + 1 ∧
      (∀ a, a < 256 → ({ unpackable with inPtr := 8#18 } : State).len a ≠ 0#8 →
        ¬(({ unpackable with inPtr := 8#18 } : State).codeBits a <+: []))) ∧
    ((withInput [0x01#8] { unpackable with inPtr := 7#18 }).AtUnit ∧
      (withInput [0x01#8] { unpackable with inPtr := 7#18 }).InputIs 7 [true] ∧
      8 * (withInput [0x01#8] { unpackable with inPtr := 7#18 }).effLimit < 7 + [true].length + 1 ∧
      (∀ a, a < 256 → (withInput [0x01#8] { unpackable with inPtr := 7#18 }).len a ≠ 0#8 →
        ¬((withInput [0x01#8] { unpackable with inPtr := 7#18 }).codeBits a <+: [true])) ∧
      ∃ a, a < 256 ∧ [true] <+: (withInput [0x01#8] { unpackable with inPtr := 7#18 }).codeBits a) := by
  unfold State.AtUnit State.InputIs
  exact ⟨by decide +kernel, by decide +kernel, by decide +kernel, by decide +kernel, by decide +kernel, 0x62,
    by decide +kernel⟩

/-- The state of the UNPACKT witnesses: arena abc, IN = 15 80. -/
def walkable : State := running (.unpackt 6#27) (arenaAbc (withInput [0x15#8, 0x80#8] State.reset))

/-- At bit 3 the bits "10" lead to the leaf 'b', node 1. -/
theorem test_witness_UnpacktFollowsThePath :
    walkable.AtUnit ∧ [true, false] ≠ ([] : Bits) ∧ walkable.Path walkable.rootSnap.toNat [true, false] 1 ∧
    nodeIsLeaf (walkable.node 1) = true ∧ leafClear (walkable.node 1) = true ∧ walkable.InputIs 3 [true, false] ∧
    walkable.Room 8 ∧ ¬({ walkable with outPtr := 16384#16 } : State).Room 8 := by
  have h1 : walkable.Path (nodeRight (walkable.node 4)) [false] 1 := by
    have : nodeRight (walkable.node 4) = 3 := by decide +kernel
    rw [this]
    refine .down 3 false [] 1 (by decide) (by decide +kernel) (by decide +kernel) ?_
    have : nodeLeft (walkable.node 3) = 1 := by decide +kernel
    simp only [this]
    exact .here 1
  refine ⟨⟨rfl, by decide⟩, by decide, ?_, by decide +kernel, by decide +kernel, ?_, ?_, ?_⟩
  · have : walkable.rootSnap.toNat = 4 := by decide +kernel
    rw [this]
    exact .down 4 true [false] 1 (by decide) (by decide +kernel) (by decide +kernel) h1
  · unfold State.InputIs; decide +kernel
  · unfold State.Room; decide +kernel
  · unfold State.Room; decide +kernel

/-- The four clauses: a 0 bit with room for its symbol and without, a 1 bit, no bit (U15, U17). -/
theorem test_witness_UnpacktOnASingleLeaf :
    (running (.unpackt 3#27) (arenaLeaf (withInput [0x40#8] State.reset))).AtUnit ∧
    nodeIsLeaf ((running (.unpackt 3#27) (arenaLeaf (withInput [0x40#8] State.reset))).node 0) = true ∧
    leafClear ((running (.unpackt 3#27) (arenaLeaf (withInput [0x40#8] State.reset))).node 0) = true ∧
    (running (.unpackt 3#27) (arenaLeaf (withInput [0x40#8] State.reset))).InputIs 0 [false] ∧
    (running (.unpackt 3#27) (arenaLeaf (withInput [0x40#8] State.reset))).Room 8 ∧
    ¬(running (.unpackt 3#27) { arenaLeaf (withInput [0x40#8] State.reset) with outPtr := 16384#16 }).Room 8 ∧
    (running (.unpackt 3#27) (arenaLeaf (withInput [0x40#8] State.reset))).InputIs 1 [true] ∧
    8 * (running (.unpackt 3#27) (arenaLeaf State.reset)).effLimit ≤ 0 := by
  unfold State.AtUnit State.InputIs State.Room
  decide +kernel

/-- The state of the node-rejection witnesses: a root that is its own child, and 32 input bytes of zeros. -/
def looping : State := running (.unpackt 1#27) (arenaLoop (withInput (List.replicate 32 0x00#8) State.reset))

/-- Every number of 0 bits leads back to node 0. -/
theorem looping_path (n : Nat) : looping.Path 0 (List.replicate n false) 0 := by
  induction n with
  | zero => exact .here 0
  | succ n ih =>
    refine .down 0 false _ 0 (by decide) (by decide +kernel) (by decide +kernel) ?_
    have : nodeLeft (looping.node 0) = 0 := by decide +kernel
    simpa only [Bool.false_eq_true, if_false, this] using ih

/-- The depth limit (w.length = 255) and one below it with no bit left. -/
theorem test_witness_UnpacktRejectsInvalidNodes :
    looping.AtUnit ∧ looping.Path looping.rootSnap.toNat (List.replicate 255 false) 0 ∧
    looping.InputIs 0 (List.replicate 255 false) ∧ nodeIsLeaf (looping.node 0) = false ∧
    internalClear (looping.node 0) = true ∧ (List.replicate 255 false).length = 255 ∧
    looping.Path looping.rootSnap.toNat (List.replicate 254 false) 0 ∧
    8 * ({ looping with inPtr := 2#18 } : State).effLimit ≤ 2 + (List.replicate 254 false).length := by
  have hr : looping.rootSnap.toNat = 0 := by decide +kernel
  refine ⟨⟨rfl, by decide⟩, by rw [hr]; exact looping_path 255, ?_, by decide +kernel, by decide +kernel, List.length_replicate,
    by rw [hr]; exact looping_path 254, by decide +kernel⟩
  unfold State.InputIs
  decide +kernel

/-- The other clauses, at the root: an index outside the arena, a leaf and an internal node with a reserved bit. -/
theorem test_witness_UnpacktRejectsInvalidRoots :
    511 ≤ (running (.unpackt 1#27) { State.reset with root := 511#9 }).rootSnap.toNat ∧
    (∀ s : State, s.Path s.rootSnap.toNat [] s.rootSnap.toNat) ∧
    nodeIsLeaf ((State.reset.setWord .arena 0 0xC0000000#32).node 0) = true ∧
    leafClear ((State.reset.setWord .arena 0 0xC0000000#32).node 0) = false ∧
    nodeIsLeaf ((State.reset.setWord .arena 0 0x00000200#32).node 0) = false ∧
    internalClear ((State.reset.setWord .arena 0 0x00000200#32).node 0) = false :=
  ⟨by decide, fun s => .here _, by decide +kernel⟩

/-- The tree of arena abc. -/
def treeAbc : CodeTree := .node (.leaf 0x61#8) (.node (.leaf 0x62#8) (.leaf 0x63#8))

theorem test_witness_AssignGivesEachLeafItsPath :
    walkable.AtUnit ∧ walkable.HoldsTree walkable.rootSnap.toNat treeAbc ∧ treeAbc.depth ≤ 255 ∧ treeAbc.symbols.Nodup := by
  have hr : walkable.rootSnap.toNat = 4 := by decide +kernel
  have h4 : nodeLeft (walkable.node 4) = 0 ∧ nodeRight (walkable.node 4) = 3 := by decide +kernel
  have h3 : nodeLeft (walkable.node 3) = 1 ∧ nodeRight (walkable.node 3) = 2 := by decide +kernel
  refine ⟨⟨rfl, by decide⟩, ?_, by decide, by decide⟩
  rw [hr]
  simp only [treeAbc, State.HoldsTree, h4, h3]
  decide +kernel

/-- No tree stands at the index 511. -/
theorem test_witness_AssignRejectsEverythingElse :
    (running .assign { State.reset with root := 511#9 }).AtUnit ∧
    ¬∃ T : CodeTree, (running .assign { State.reset with root := 511#9 }).HoldsTree
      (running .assign { State.reset with root := 511#9 }).rootSnap.toNat T ∧ T.depth ≤ 255 ∧ T.symbols.Nodup := by
  refine ⟨⟨rfl, by decide⟩, fun ⟨T, hT, _⟩ => ?_⟩
  cases T with
  | leaf sym => exact absurd hT.1 (by decide)
  | node l r => exact absurd hT.1 (by decide)

/-- Subcode 1 at the root 511 (T5), and subcode 4 at a root that is a leaf with a reserved bit. -/
theorem test_witness_AssignRejectsRoots :
    (running .assign { State.reset with root := 511#9 }).AtUnit ∧
    (running .assign { State.reset with root := 511#9 }).FirstBad 511 0 [] 1 511 ∧
    (State.reset.setWord .arena 0 0xC0000000#32).FirstBad 0 0 [] 4 0 :=
  ⟨⟨rfl, by decide⟩, .outside (by decide), .reservedLeaf (by decide) (by decide +kernel) (by decide +kernel)⟩

/-- Arena abc with node 2 a second leaf 'a' (T7). -/
def twiceA : State := (arenaAbc State.reset).setWord .arena 8 0x80000061#32

/-- Subcode 3 at node 2: the leaves before it, left first, are 'a' and 'b'. -/
theorem test_witness_AssignRejectsDuplicates : twiceA.FirstBad 4 0 [] 3 2 := by
  have h4 : nodeLeft (twiceA.node 4) = 0 ∧ nodeRight (twiceA.node 4) = 3 := by decide +kernel
  have h3 : nodeLeft (twiceA.node 3) = 1 ∧ nodeRight (twiceA.node 3) = 2 := by decide +kernel
  refine .right (L := .leaf 0x61#8) (by decide) (by decide) (by decide +kernel) (by decide +kernel) ?_ (by decide) (by decide) ?_
  · rw [h4.1, State.HoldsTree]; decide +kernel
  rw [h4.2]
  refine .right (L := .leaf 0x62#8) (by decide) (by decide) (by decide +kernel) (by decide +kernel) ?_ (by decide) (by decide) ?_
  · rw [h3.1, State.HoldsTree]; decide +kernel
  rw [h3.2]
  exact .twice (by decide) (by decide +kernel) (by decide +kernel) (by decide +kernel)

/-- Subcode 4 at the internal node 3 (T9), the right child of the root. -/
theorem test_witness_AssignRejectsReservedBits :
    ((arenaAbc State.reset).setWord .arena 12 0x00020201#32).FirstBad 4 0 [] 4 3 := by
  have h4 : nodeLeft (((arenaAbc State.reset).setWord .arena 12 0x00020201#32).node 4) = 0 ∧
      nodeRight (((arenaAbc State.reset).setWord .arena 12 0x00020201#32).node 4) = 3 := by decide +kernel
  refine .right (L := .leaf 0x61#8) (by decide) (by decide) (by decide +kernel) (by decide +kernel) ?_ (by decide) (by decide) ?_
  · rw [h4.1, State.HoldsTree]; decide +kernel
  rw [h4.2]
  exact .reservedInternal (by decide) (by decide +kernel) (by decide +kernel)

/-- Subcode 2 at node 0 of a cycle, at depth 255 (T10). -/
theorem test_witness_AssignRejectsCycles : looping.FirstBad 0 0 [] 2 0 := by
  have hl : nodeIsLeaf (looping.node 0) = false := by decide +kernel
  have hc : internalClear (looping.node 0) = true := by decide +kernel
  have h0 : nodeLeft (looping.node 0) = 0 := by decide +kernel
  have h : ∀ n, n ≤ 255 → looping.FirstBad 0 (255 - n) [] 2 0 := by
    intro n
    induction n with
    | zero => exact fun _ => .tooDeep (by decide) hl hc
    | succ n ih =>
      intro hn
      refine .left (by omega) (by decide) hl hc ?_
      rw [h0, show 255 - (n + 1) + 1 = 255 - n by omega]
      exact ih (by omega)
  simpa using h 255 le_rfl

/-- The state after an ASSIGN of a single leaf. -/
def assigned : State := (running .assign (arenaLeaf State.reset)).engineStep (unitOf .assign)

theorem assigned_eq : exec .assign (running .assign (arenaLeaf State.reset)) = .next assigned := by
  have h : (running .assign (arenaLeaf State.reset)).busy = true := rfl
  rw [exec_eq, runCommand_eq, if_pos h, assigned]

theorem sameCodes_remain (s : State) (n : BitVec 27) : SameCodes s { s with remain := n } := ⟨rfl, rfl, rfl, rfl, rfl⟩

theorem test_witness_AssignMakesAPrefixFreeTable :
    (running .assign (arenaLeaf State.reset)).AtUnit ∧
    exec .assign (running .assign (arenaLeaf State.reset)) = .next assigned ∧ assigned.busy = true :=
  ⟨⟨rfl, by decide⟩, assigned_eq, by decide +kernel⟩

theorem test_witness_TreeAndTableDecodersAgree :
    (running .assign (arenaLeaf State.reset)).AtUnit ∧
    exec .assign (running .assign (arenaLeaf State.reset)) = .next assigned ∧ assigned.busy = true ∧
    SameCodes assigned { assigned with remain := 9#27 } ∧ ({ assigned with remain := 9#27 } : State).busy = true :=
  ⟨⟨rfl, by decide⟩, assigned_eq, by decide +kernel, sameCodes_remain _ _, by decide +kernel⟩

/-- Two 'b' to pack, at most as many as REMAIN. -/
theorem test_witness_PackbufAppendsTheCodesInOrder :
    (running (.packbuf 2#27) (tableAbc (withInput [0x62#8, 0x62#8] State.reset))).busy = true ∧
    (running (.packbuf 2#27) (tableAbc (withInput [0x62#8, 0x62#8] State.reset))).turns = [] ∧
    (running (.packbuf 2#27) (tableAbc (withInput [0x62#8, 0x62#8] State.reset))).lastCmd = encode (.packbuf 2#27) ∧
    [0x62#8, 0x62#8].length ≤ (running (.packbuf 2#27) (tableAbc (withInput [0x62#8, 0x62#8] State.reset))).remain.toNat ∧
    (running (.packbuf 2#27) (tableAbc (withInput [0x62#8, 0x62#8] State.reset))).InputIs 0 (symbolBits [0x62#8, 0x62#8]) ∧
    (∀ x ∈ [0x62#8, 0x62#8],
      (running (.packbuf 2#27) (tableAbc (withInput [0x62#8, 0x62#8] State.reset))).len x.toNat ≠ 0#8) ∧
    (running (.packbuf 2#27) (tableAbc (withInput [0x62#8, 0x62#8] State.reset))).Room
      ((running (.packbuf 2#27) (tableAbc (withInput [0x62#8, 0x62#8] State.reset))).codesOf [0x62#8, 0x62#8]).length := by
  unfold State.InputIs State.Room
  decide +kernel

/-- 'a', 'a', 'b' to decode from IN = 2C, whose codes are "0", "0", "10" and whose bits go on after them. -/
theorem test_witness_UnpackInvertsPackingAndIsPaddingSafe :
    unpackable.busy = true ∧ unpackable.turns = [] ∧ unpackable.lastCmd = encode (.unpack 4#27) ∧
    [0x61#8, 0x61#8, 0x62#8].length ≤ unpackable.remain.toNat ∧ unpackable.PrefixFree ∧
    (∀ x ∈ [0x61#8, 0x61#8, 0x62#8], unpackable.len x.toNat ≠ 0#8) ∧
    unpackable.InputIs unpackable.inPtr.toNat (unpackable.codesOf [0x61#8, 0x61#8, 0x62#8]) ∧
    unpackable.Room (8 * [0x61#8, 0x61#8, 0x62#8].length) := by
  refine ⟨rfl, rfl, rfl, by decide, ?_, by decide +kernel, ?_, ?_⟩
  · intro a b ha hb hne hla hlb
    rcases unpackable_len a ha hla with rfl | rfl <;> rcases unpackable_len b hb hlb with rfl | rfl
    · exact absurd rfl hne
    · rw [unpackable_codes.1, unpackable_codes.2]; decide
    · rw [unpackable_codes.1, unpackable_codes.2]; decide
    · exact absurd rfl hne
  · unfold State.InputIs; decide +kernel
  · unfold State.Room; decide +kernel

/-- Right after the accept of a PACKBUF of the largest COUNT the invariant holds. -/
theorem test_witness_EveryCommandEnds :
    (running (.packbuf 134217727#27) State.reset).Inv ∧ (running (.packbuf 134217727#27) State.reset).busy = true ∧
    (running (.packbuf 134217727#27) State.reset).turns = [] := by
  refine ⟨⟨by decide, by decide, by decide, by decide, by decide, by decide, by decide, by decide, ?_, by decide, by decide⟩, rfl,
    rfl⟩
  intro sp
  cases sp <;> exact ⟨List.Pairwise.nil, fun _ h => nomatch h⟩

/-- A FLUSH with host turns among the engine's: a dropped write, a write of IRQ_EN and a poll. -/
def scheduled : State :=
  { running .flush State.reset with
    inputs := [.write 0x0024#16 1#32, .write 0x0008#16 1#32, .wait]
    turns := [.host, .engine, .host, .host, .engine] }

theorem test_witness_EveryCommandEnds_schedule :
    scheduled.Inv ∧ scheduled.busy = true ∧ (∀ x ∈ scheduled.inputs, ¬x.resets) ∧
    scheduled.engineTurns 5 = scheduled.remain.toNat + 1 := by
  refine ⟨⟨by decide, by decide, by decide, by decide, by decide, by decide, by decide, by decide, ?_, by decide, by decide⟩,
    rfl, ?_, by decide⟩
  · intro sp
    cases sp <;> exact ⟨List.Pairwise.nil, fun _ h => nomatch h⟩
  · simp only [scheduled, List.mem_cons, List.not_mem_nil, or_false, forall_eq_or_imp, forall_eq, Input.resets]
    decide

theorem test_witness_EveryStepKeepsTheInvariant : ({ State.reset with inputs := [.wait] } : State).Inv := by
  refine ⟨by decide, by decide, by decide, by decide, by decide, by decide, by decide, by decide, ?_, by decide, by decide⟩
  intro sp
  cases sp <;> exact ⟨List.Pairwise.nil, fun _ h => nomatch h⟩

/-- A step that sets DONE, two that set ERR, one that sets BUSY, and two that set DROP (H10). -/
theorem test_witness_FlagsAreSetOnlyByTheirRules :
    nextIs (step (running (.packbuf 0#27) State.reset)) (fun t => t.done) = true ∧
    nextIs (step (running (.putsym 5#8) State.reset)) (fun t => t.err) = true ∧
    nextIs (step { State.reset with inputs := [.write cmdAddr 0x50000000#32] }) (fun t => t.err) = true ∧
    nextIs (step { State.reset with inputs := [.write cmdAddr 0x20000000#32] }) (fun t => t.busy) = true ∧
    nextIs (step { running .nop State.reset with inputs := [.write cmdAddr 0x20000000#32], turns := [.host] })
      (fun t => t.drop) = true ∧
    nextIs (step { running .nop State.reset with inputs := [.write 0x0024#16 0x100#32], turns := [.host] })
      (fun t => t.drop) = true := by decide

theorem test_witness_ErrorsAreRecoveredByTheHost :
    ({ State.reset with err := true, errCode := 2#4 } : State).inReset = false ∧
    ({ State.reset with err := true, errCode := 2#4 } : State).busy = false ∧
    ({ State.reset with err := true, errCode := 2#4 } : State).err = true ∧ (4#32).getLsbD 2 = true ∧
    Instr.flush.isLegal State.reset.hasTree = true := by decide

theorem test_witness_ConfigurationAndDrawsAreFixed :
    nextIs (step { State.reset with inputs := [.resetAssert] }) (fun t => t.epoch == 1 && t.hasTree) = true := by decide

end Sys2Proof.Tests
end

/-!
The step as its agent's turn (spec 00_scope.md R18): whose turn it is, what each agent's turn does, one inversion
lemma for the step, and what no step changes (R12, R72).
-/

namespace Sys2Proof.Machine

/-! ### Whose turn it is (R18, assumption 5) -/

/-- A turn that is laid down is taken from `turns`. -/
theorem step_of_turns_cons {s : State} {a : Agent} {ts : List Agent} (h : s.turns = a :: ts) :
    step s = takeTurn a { s with turns := ts } := by
  simp only [step, stepTurn, State.mover, h, List.tail_cons]

/-- With no turn laid down `turns` stays empty. -/
theorem step_of_turns_nil {s : State} (h : s.turns = []) : step s = takeTurn s.mover s := by
  have hs : { s with turns := s.turns.tail } = s := by rw [h, List.tail_nil, ← h]
  rw [step, stepTurn, hs]

theorem mover_default_engine {s : State} (h : s.turns = []) (hb : s.busy = true) : s.mover = .engine := by
  simp only [State.mover, h, hb, if_true]

theorem mover_default_host {s : State} (h : s.turns = []) (hb : s.busy = false) : s.mover = .host := by
  simp only [State.mover, h, hb, Bool.false_eq_true, if_false]

/-! ### The two turns -/

/-- The running command is the legal instruction LASTCMD decodes to (R29). -/
theorem State.runningCommand_eq_some {s : State} {i : Instr} (hd : decode s.lastCmd = .ok i)
    (hl : i.isLegal s.hasTree = true) : s.runningCommand = some i := by
  simp only [State.runningCommand, hd, hl, if_true]

theorem engineTurn_running {s : State} {i : Instr} (hb : s.busy = true) (hr : s.runningCommand = some i) :
    engineTurn s = exec i s := by
  simp only [engineTurn, hb, if_true, hr]

/-- An engine's turn does nothing while idle, else it is `exec` of the running command (R66). -/
theorem engineTurn_cases {s t : State} (h : engineTurn s = .next t) :
    (s.busy = false ∧ t = s) ∨ (s.busy = true ∧ ∃ i, s.runningCommand = some i ∧ exec i s = .next t) := by
  cases hb : s.busy with
  | false =>
    rw [engineTurn, hb] at h
    injection h with h
    exact .inl ⟨rfl, h.symm⟩
  | true =>
    cases hr : s.runningCommand with
    | none =>
      simp only [engineTurn, hb, hr, if_true] at h
      cases h
    | some i =>
      rw [engineTurn_running hb hr] at h
      exact .inr ⟨rfl, i, rfl, h⟩

theorem hostTurn_cons {s : State} {x : Input} {rest : List Input} (h : s.inputs = x :: rest) :
    hostTurn s = .next (State.perform { s with inputs := rest } x) := by
  simp only [hostTurn, h]

/-- A host's turn does nothing without an input, else it performs the first one (R18). -/
theorem hostTurn_cases {s t : State} (h : hostTurn s = .next t) :
    (s.inputs = [] ∧ t = s) ∨
    (∃ x rest, s.inputs = x :: rest ∧ t = State.perform { s with inputs := rest } x) := by
  cases hin : s.inputs with
  | nil =>
    simp only [hostTurn, hin] at h
    injection h with h
    exact .inl ⟨rfl, h.symm⟩
  | cons x rest =>
    rw [hostTurn_cons hin] at h
    injection h with h
    exact .inr ⟨x, rest, rfl, h.symm⟩

/-- With BUSY = 0 the write of an instruction's word to CMD is `exec` of the instruction (R26, assumption 6). -/
theorem hostTurn_issue {s : State} {i : Instr} {rest : List Input} (hb : s.busy = false)
    (hin : s.inputs = .write cmdAddr (encode i) :: rest) :
    hostTurn s = exec i { s with inputs := rest, idleSeen := false } := by
  have hidle : exec i { s with inputs := rest, idleSeen := false } =
      .next (State.writeCmd { s with inputs := rest, idleSeen := false } (encode i)) := exec_idle hb
  rw [hostTurn_cons hin, State.perform, State.noteWrite, if_pos target_cmdAddr, hostWrite_cmd, hidle]

/-- What a step that answers a next state did: an idle or a running engine's turn, or a host's turn without or with an
input, each past the turn taken (R18, R66). -/
theorem step_cases {s t : State} (h : step s = .next t) :
    (s.mover = .engine ∧ s.busy = false ∧ t = { s with turns := s.turns.tail }) ∨
    (s.mover = .engine ∧ s.busy = true ∧ ∃ i, s.runningCommand = some i ∧
      exec i { s with turns := s.turns.tail } = .next t) ∨
    (s.mover = .host ∧ s.inputs = [] ∧ t = { s with turns := s.turns.tail }) ∨
    (s.mover = .host ∧ ∃ x rest, s.inputs = x :: rest ∧
      t = State.perform { s with inputs := rest, turns := s.turns.tail } x) := by
  rw [step, stepTurn] at h
  cases hm : s.mover with
  | engine =>
    rw [hm, takeTurn] at h
    rcases engineTurn_cases h with ⟨hb, ht⟩ | ⟨hb, i, hr, he⟩
    · exact .inl ⟨rfl, hb, ht⟩
    · exact .inr (.inl ⟨rfl, hb, i, hr, he⟩)
  | host =>
    rw [hm, takeTurn] at h
    rcases hostTurn_cases h with ⟨hin, ht⟩ | ⟨x, rest, hin, ht⟩
    · exact .inr (.inr (.inl ⟨rfl, hin, ht⟩))
    · exact .inr (.inr (.inr ⟨rfl, x, rest, hin, ht⟩))

/-! ### Steps are instructions (R18, R26, R29, R66) -/

/-- Settles O25: the turn is the engine's, and the engine's turn is `exec` of the running command. -/
theorem stepRunsTheDecodedInstruction : Obligations.StepRunsTheDecodedInstruction := by
  intro s i hb hd hl
  have hr : s.runningCommand = some i := State.runningCommand_eq_some hd hl
  constructor
  · intro hturns
    rw [step_of_turns_nil hturns, mover_default_engine hturns hb]
    exact engineTurn_running hb hr
  · intro ts hturns
    rw [step_of_turns_cons hturns]
    exact engineTurn_running hb hr

/-- Settles O26: the turn is the host's, and its write of the word to CMD is `exec` of the instruction. -/
theorem stepIssuesTheWrittenInstruction : Obligations.StepIssuesTheWrittenInstruction := by
  intro s i rest hb hin
  constructor
  · intro hturns
    rw [step_of_turns_nil hturns, mover_default_host hturns hb]
    exact hostTurn_issue hb hin
  · intro ts hturns
    rw [step_of_turns_cons hturns]
    exact hostTurn_issue hb hin

/-! ### The configuration and the unspecified contents (R12, R72) -/

/-- `HAS_TREE` and the draws that the unspecified contents are read from are those of `s` (assumptions 1 and 2). -/
def KeepsConfig (s t : State) : Prop := t.hasTree = s.hasTree ∧ t.epoch = s.epoch

theorem KeepsConfig.refl (s : State) : KeepsConfig s s := ⟨rfl, rfl⟩

theorem keepsConfig_engineStep (i : Instr) (s : State) : KeepsConfig s (s.engineStep (unitOf i)) := by
  rcases s.engineStep_cases (unitOf i) with ⟨-, he⟩ | ⟨-, t, hu, he⟩ | ⟨-, e, -, he⟩ <;> rw [he]
  · exact ⟨rfl, rfl⟩
  · obtain ⟨m, p, n, b, c, q, l, k, rfl⟩ := unitOf_fields hu
    exact ⟨rfl, rfl⟩
  · exact ⟨rfl, rfl⟩

theorem keepsConfig_accept (s : State) (w : Word) : KeepsConfig s (s.accept w) := by
  simp only [State.accept]
  split <;> exact ⟨rfl, rfl⟩

theorem keepsConfig_writeCmd (s : State) (w : Word) : KeepsConfig s (s.writeCmd w) := by
  unfold State.writeCmd
  split_ifs
  · exact KeepsConfig.refl s
  · exact ⟨rfl, rfl⟩
  · exact keepsConfig_accept s w

theorem keepsConfig_writeStatus (s : State) (d : Word) : KeepsConfig s (s.writeStatus d) := by
  unfold State.writeStatus
  split_ifs <;> exact ⟨rfl, rfl⟩

theorem keepsConfig_writeCtrl (s : State) (d : Word) : KeepsConfig s (s.writeCtrl d) := by
  unfold State.writeCtrl
  split_ifs <;> exact ⟨rfl, rfl⟩

theorem keepsConfig_setWord (s : State) (sp : Space) (a : Nat) (d : Word) : KeepsConfig s (s.setWord sp a d) :=
  ⟨State.setWord_hasTree _ _ _ _, State.setWord_epoch _ _ _ _⟩

theorem keepsConfig_writeTarget (s : State) (t : Target) (d : Word) : KeepsConfig s (s.writeTarget t d) := by
  cases t
  case ctrl => exact keepsConfig_writeCtrl s d
  case status => exact keepsConfig_writeStatus s d
  case cmd => exact keepsConfig_writeCmd s d
  case ctCode sym j => exact keepsConfig_setWord _ _ _ _
  case inWord m => exact keepsConfig_setWord _ _ _ _
  case outWord m => exact keepsConfig_setWord _ _ _ _
  case arena i =>
    unfold State.writeTarget
    split_ifs
    · exact keepsConfig_setWord _ _ _ _
    · exact KeepsConfig.refl s
  case root =>
    unfold State.writeTarget
    split_ifs <;> exact ⟨rfl, rfl⟩
  all_goals exact ⟨rfl, rfl⟩

theorem keepsConfig_hostWrite (s : State) (a : Addr) (d : Word) : KeepsConfig s (s.hostWrite a d) := by
  unfold State.hostWrite
  split_ifs
  · exact KeepsConfig.refl s
  · exact ⟨rfl, rfl⟩
  · exact keepsConfig_writeTarget s _ d

/-- An instruction keeps the configuration and the draws, as the CMD write and as a step of the engine. -/
theorem keepsConfig_exec {i : Instr} {s t : State} (h : exec i s = .next t) : KeepsConfig s t := by
  rw [exec_eq, runCommand_eq] at h
  injection h with h
  subst h
  split_ifs
  · exact keepsConfig_engineStep i s
  · exact keepsConfig_writeCmd s _

/-- Of all inputs only the assertion of the reset input takes new draws (R190). -/
theorem perform_config (s : State) (x : Input) :
    KeepsConfig s (s.perform x) ∨
    (x = .resetAssert ∧ (s.perform x).hasTree = s.hasTree ∧ (s.perform x).epoch = s.epoch + 1) := by
  cases x with
  | read a => exact .inl ⟨rfl, rfl⟩
  | write a d => exact .inl (keepsConfig_hostWrite (s.noteWrite a) a d)
  | wait =>
    unfold State.perform
    split_ifs <;> exact .inl ⟨rfl, rfl⟩
  | resetAssert => exact .inr ⟨rfl, rfl, rfl⟩
  | resetRelease => exact .inl ⟨rfl, rfl⟩

/-- A step keeps the configuration and the draws, unless it is the assertion of the reset input (R12, R72, R190). -/
theorem step_config {s t : State} (h : step s = .next t) :
    KeepsConfig s t ∨ (s.inputs.head? = some .resetAssert ∧ t.hasTree = s.hasTree ∧ t.epoch = s.epoch + 1) := by
  rcases step_cases h with ⟨-, -, rfl⟩ | ⟨-, -, i, -, he⟩ | ⟨-, -, rfl⟩ | ⟨-, x, rest, hin, rfl⟩
  · exact .inl ⟨rfl, rfl⟩
  · have hk := keepsConfig_exec he
    exact .inl hk
  · exact .inl ⟨rfl, rfl⟩
  · rcases perform_config { s with inputs := rest, turns := s.turns.tail } x with hk | ⟨rfl, htree, hepoch⟩
    · exact .inl hk
    · exact .inr ⟨by rw [hin, List.head?_cons], htree, hepoch⟩

/-- Settles O60: every step but the assertion of the reset input keeps both fields, and that one takes the next epoch. -/
theorem configurationAndDrawsAreFixed : Obligations.ConfigurationAndDrawsAreFixed := by
  intro s t h
  rcases step_config h with ⟨htree, hepoch⟩ | ⟨hhead, htree, hepoch⟩
  · exact ⟨htree, fun hne => absurd hepoch hne⟩
  · exact ⟨htree, fun _ => ⟨hhead, hepoch⟩⟩

end Sys2Proof.Machine

/-!
The host port's accesses and the machine's invariant (spec 10_state.md R23 to R50, 20_memory.md R60 to R62): what each
register word reads as, what each write leaves, and that every step keeps `State.Inv`.
-/

namespace Sys2Proof.Machine

/-! ### The words of STATUS and ACC (R27, R36) -/

/-- STATUS from bit 0 up: BUSY, DONE, ERR, DROP, then ERRCODE (R27). -/
theorem State.getLsbD_statusWord (s : State) (i : Nat) :
    s.statusWord.getLsbD i =
      if i = 0 then s.busy else if i = 1 then s.done else if i = 2 then s.err else if i = 3 then s.drop
      else s.errCode.getLsbD (i - 4) := by
  show BitVec.getLsbD (0#24 ++ s.errCode ++ BitVec.ofBool s.drop ++ BitVec.ofBool s.err ++ BitVec.ofBool s.done ++
    BitVec.ofBool s.busy : BitVec (24 + 4 + 1 + 1 + 1 + 1)) i = _
  rcases i with _ | _ | _ | _ | i <;> simp only [BitVec.getLsbD_append]
  all_goals simp
  exact fun hi => BitVec.lt_of_getLsbD hi

theorem State.statusWord_busy (s : State) : s.statusWord.getLsbD 0 = s.busy := s.getLsbD_statusWord 0

theorem State.statusWord_errCode (s : State) : s.statusWord.extractLsb' 4 4 = s.errCode := by
  apply BitVec.eq_of_getLsbD_eq
  intro i hi
  rw [BitVec.getLsbD_extractLsb', State.getLsbD_statusWord]
  simp [hi, show ¬4 + i = 1 by omega, show ¬4 + i = 2 by omega, show ¬4 + i = 3 by omega]

/-- Bits [31:8] of STATUS are above ERRCODE (R27). -/
theorem State.statusWord_reserved (s : State) : s.statusWord.extractLsb' 8 24 = 0#24 := by
  apply BitVec.eq_of_getLsbD_eq
  intro i hi
  have habove : s.errCode.getLsbD (8 + i - 4) = false := BitVec.getLsbD_of_ge _ _ (by omega)
  rw [BitVec.getLsbD_extractLsb', State.getLsbD_statusWord]
  simp [habove, show ¬8 + i = 1 by omega, show ¬8 + i = 2 by omega, show ¬8 + i = 3 by omega]

/-- The mask keeps the bits from `8 − n` up (R36). -/
theorem getLsbD_accMask (n : BitVec 3) (j : Nat) :
    (accMask n).getLsbD j = (decide (j < 8) && decide (8 - n.toNat ≤ j)) := by
  rw [accMask, BitVec.getLsbD_shiftLeft, show (0xFF#8 : BitVec 8) = BitVec.allOnes 8 from rfl, BitVec.getLsbD_allOnes]
  by_cases hj : j < 8 <;> by_cases hn : j < 8 - n.toNat <;> simp [hj, hn] <;> omega

/-- The word of ACC as a number (R36). -/
theorem State.accWord_eq (s : State) : s.accWord = BitVec.ofNat 32 (s.accN.toNat * 256 + s.accBits.toNat) := by
  have hn : s.accN.toNat < 8 := s.accN.isLt
  have hb : s.accBits.toNat < 2 ^ 8 := s.accBits.isLt
  have hword : s.accWord.toNat = BitVec.toNat (0#21 ++ s.accN ++ s.accBits : BitVec (21 + 3 + 8)) := rfl
  apply BitVec.eq_of_toNat_eq
  rw [hword, BitVec.toNat_append, BitVec.toNat_append, ← Nat.shiftLeft_add_eq_or_of_lt hb, Nat.shiftLeft_eq]
  simp
  omega

/-! ### Reads and writes of the host (R60 to R62) -/

/-- A register reads as its word, at any time (R60, R62). -/
theorem State.hostRead_register {s : State} {a : Addr} {t : Target} (hr : s.inReset = false) (ha : target a = t)
    (ht : t.isWindow = false) : s.hostRead a = s.readTarget t := by
  simp [State.hostRead, hr, ha, ht]

/-- While idle every target reads as its word (R62). -/
theorem State.hostRead_idle {s : State} {a : Addr} {t : Target} (hr : s.inReset = false) (hb : s.busy = false)
    (ha : target a = t) : s.hostRead a = s.readTarget t := by
  simp [State.hostRead, hr, hb, ha]

/-- A write of a target that is not engine-owned has its effect, at any time (R60, R62). -/
theorem State.hostWrite_free {s : State} {a : Addr} {t : Target} (hr : s.inReset = false) (ha : target a = t)
    (ht : t.isOwned = false) (d : Word) : s.hostWrite a d = s.writeTarget t d := by
  simp [State.hostWrite, hr, ha, ht]

/-- While idle every write has its effect (R62). -/
theorem State.hostWrite_idle {s : State} {a : Addr} {t : Target} (hr : s.inReset = false) (hb : s.busy = false)
    (ha : target a = t) (d : Word) : s.hostWrite a d = s.writeTarget t d := by
  simp [State.hostWrite, hr, hb, ha]

/-- What a host write is: without effect under reset, dropped, or its target's write (R60, R62, R190). -/
theorem State.hostWrite_cases (s : State) (a : Addr) (d : Word) :
    (s.inReset = true ∧ s.hostWrite a d = s) ∨
    (s.busy = true ∧ (target a).isOwned = true ∧ s.hostWrite a d = { s with drop := true }) ∨
    (s.inReset = false ∧ (s.busy = false ∨ (target a).isOwned = false) ∧
      s.hostWrite a d = s.writeTarget (target a) d) := by
  cases hr : s.inReset with
  | true => exact .inl ⟨rfl, by simp [State.hostWrite, hr]⟩
  | false =>
    cases hb : s.busy with
    | false => exact .inr (.inr ⟨rfl, .inl rfl, State.hostWrite_idle hr hb rfl d⟩)
    | true =>
      cases ho : (target a).isOwned with
      | true => exact .inr (.inl ⟨rfl, rfl, by simp [State.hostWrite, hr, hb, ho]⟩)
      | false => exact .inr (.inr ⟨rfl, .inr rfl, State.hostWrite_free hr rfl ho d⟩)

/-- The write of STATUS as one record update (R28). -/
theorem State.writeStatus_eq (s : State) (d : Word) :
    s.writeStatus d =
      { s with
        done := if d.getLsbD 1 then false else s.done
        err := if d.getLsbD 2 then false else s.err
        errCode := if d.getLsbD 2 then 0#4 else s.errCode
        drop := if d.getLsbD 3 then false else s.drop } := by
  unfold State.writeStatus
  split_ifs <;> rfl

theorem State.writeCtrl_reset {s : State} {d : Word} (h : d.getLsbD 1 = true) : s.writeCtrl d = s.softReset := by
  simp [State.writeCtrl, h]

theorem State.writeCtrl_irqEn {s : State} {d : Word} (h : d.getLsbD 1 = false) :
    s.writeCtrl d = { s with irqEn := d.getLsbD 0 } := by
  rw [State.writeCtrl, if_neg (by rw [h]; exact Bool.false_ne_true)]

theorem State.writeCmd_dropped {s : State} (hr : s.inReset = false) (h : s.busy = true ∨ s.err = true) (w : Word) :
    s.writeCmd w = { s with drop := true } := by
  have hbe : (s.busy || s.err) = true := by simpa using h
  simp [State.writeCmd, hr, hbe]

theorem State.writeCmd_accepted {s : State} (h : s.Accepting) (w : Word) : s.writeCmd w = s.accept w := by
  obtain ⟨hb, he, hr⟩ := h
  simp [State.writeCmd, hb, he, hr]

/-- A legal word that is accepted starts the engine (R26). -/
theorem State.accept_legal {s : State} {w : Word} (h : legal s.hasTree w = true) :
    s.accept w =
      { s with
        lastCmd := w
        symCount := 0#27
        done := false
        remain := units w
        rootSnap := if s.hasTree then s.root else 0#9
        busy := true } := by
  simp [State.accept, h]

/-- An illegal word that is accepted takes ILLEGAL_CMD; BUSY, which is 0, stays 0 (R26, R162). -/
theorem State.accept_illegal {s : State} {w : Word} (hb : s.busy = false) (h : legal s.hasTree w = false) :
    s.accept w =
      { s with
        lastCmd := w
        symCount := 0#27
        done := false
        err := true
        errCode := 1#4
        errInfo := 0#32
        remain := 0#27 } := by
  simp [State.accept, h, State.takeError, hb, ErrCode.toBits]

/-- What a write of CMD is: without effect under reset, dropped, or accepted (R26). -/
theorem State.writeCmd_cases (s : State) (w : Word) :
    s.writeCmd w = s ∨
    (s.inReset = false ∧ (s.busy = true ∨ s.err = true) ∧ s.writeCmd w = { s with drop := true }) ∨
    (s.Accepting ∧ s.writeCmd w = s.accept w) := by
  by_cases hr : s.inReset = true
  · exact .inl (by rw [State.writeCmd, if_pos hr])
  have hr : s.inReset = false := by simpa using hr
  by_cases h : s.busy = true ∨ s.err = true
  · exact .inr (.inl ⟨hr, h, State.writeCmd_dropped hr h w⟩)
  · obtain ⟨hb, he⟩ := not_or.1 h
    have hacc : s.Accepting := ⟨by simpa using hb, by simpa using he, hr⟩
    exact .inr (.inr ⟨hacc, State.writeCmd_accepted hacc w⟩)

/-! ### Writes to memory change one space -/

theorem State.withSpace_self (s : State) (sp : Space) : s.withSpace sp (s.space sp) = s := by cases sp <;> rfl

theorem State.setBytes_eq_withSpace (s : State) (sp : Space) (a : Nat) (vs : List Byte) :
    ∃ m, s.setBytes sp a vs = s.withSpace sp m := by
  induction vs generalizing s a with
  | nil => exact ⟨_, (s.withSpace_self sp).symm⟩
  | cons v vs ih =>
    obtain ⟨m, hm⟩ := ih (s.setByte sp a v) (a + 1)
    refine ⟨m, ?_⟩
    rw [State.setBytes, hm]
    cases sp <;> rfl

theorem State.setWord_eq_withSpace (s : State) (sp : Space) (a : Nat) (d : Word) :
    ∃ m, s.setWord sp a d = s.withSpace sp m := s.setBytes_eq_withSpace sp a _

/-- A window write replaces one memory space, and that is not the arena if `HAS_TREE = 0` (R41, R44 to R46). -/
theorem State.writeTarget_window {t : Target} (h : t.isWindow = true) (s : State) (d : Word) :
    ∃ sp m, s.writeTarget t d = s.withSpace sp m ∧ (s.hasTree = false → sp ≠ .arena) := by
  have hself : ∃ sp m, s = s.withSpace sp m ∧ (s.hasTree = false → sp ≠ .arena) :=
    ⟨.inBuf, _, (s.withSpace_self _).symm, fun _ => by decide⟩
  have hword : ∀ sp a, (s.hasTree = false → sp ≠ .arena) →
      ∃ q m, s.setWord sp a d = s.withSpace q m ∧ (s.hasTree = false → q ≠ .arena) := by
    intro sp a hsp
    obtain ⟨m, hm⟩ := s.setWord_eq_withSpace sp a d
    exact ⟨sp, m, hm, hsp⟩
  cases t
  case ctLen sym => exact ⟨.ctLen, _, rfl, fun _ => by decide⟩
  case ctCode sym j => exact hword _ _ fun _ => by decide
  case inWord m => exact hword _ _ fun _ => by decide
  case outWord m => exact hword _ _ fun _ => by decide
  case arena i =>
    cases ht : s.hasTree with
    | true => simpa [State.writeTarget, ht] using hword .arena (4 * i) (by simp [ht])
    | false => simpa [State.writeTarget, ht] using hself
  case ctPad => exact hself
  case arenaPad => exact hself
  all_goals exact absurd h Bool.false_ne_true

/-! ### What a write to a data register or a window leaves -/

/-- The flags, the command registers, ROOT_SNAP, the reset input and `idleSeen` are unchanged: what only CTRL, STATUS,
CMD, the engine and the reset input change (R25 to R31, R47). -/
structure KeepsControl (s t : State) : Prop where
  hasTree : t.hasTree = s.hasTree
  busy : t.busy = s.busy
  done : t.done = s.done
  err : t.err = s.err
  drop : t.drop = s.drop
  errCode : t.errCode = s.errCode
  lastCmd : t.lastCmd = s.lastCmd
  remain : t.remain = s.remain
  symCount : t.symCount = s.symCount
  rootSnap : t.rootSnap = s.rootSnap
  inReset : t.inReset = s.inReset
  idleSeen : t.idleSeen = s.idleSeen

theorem KeepsControl.refl (s : State) : KeepsControl s s :=
  ⟨rfl, rfl, rfl, rfl, rfl, rfl, rfl, rfl, rfl, rfl, rfl, rfl⟩

theorem keepsControl_withSpace (s : State) (sp : Space) (m : Memory) : KeepsControl s (s.withSpace sp m) := by
  constructor <;> simp

/-- What a write of a data register or a window may do to the rest: the control state is kept, ACC stays free of bits
below its pending ones, and with `HAS_TREE = 0` ROOT and the arena are kept (R36, R38, R44). -/
structure DataWrite (s t : State) : Prop where
  control : KeepsControl s t
  accLow : s.accBits &&& accMask s.accN = s.accBits → t.accBits &&& accMask t.accN = t.accBits
  noTree : s.hasTree = false → t.root = s.root ∧ t.arena = s.arena

theorem DataWrite.refl (s : State) : DataWrite s s := ⟨KeepsControl.refl s, id, fun _ => ⟨rfl, rfl⟩⟩

theorem dataWrite_withSpace {s : State} {sp : Space} (h : s.hasTree = false → sp ≠ .arena) (m : Memory) :
    DataWrite s (s.withSpace sp m) := by
  refine ⟨keepsControl_withSpace s sp m, fun hs => ?_, fun ht => ⟨State.withSpace_root _ _ _, ?_⟩⟩
  · rw [State.withSpace_accBits, State.withSpace_accN]
    exact hs
  · have harena : (s.withSpace sp m).space .arena = s.space .arena := by
      rw [State.space_withSpace, if_neg (h ht).symm]
    exact harena

/-- A write of a register that is none of CTRL, STATUS and CMD is a data write, and so is a window write. -/
theorem writeTarget_cases (s : State) (t : Target) (d : Word) :
    t = .ctrl ∨ t = .status ∨ t = .cmd ∨ DataWrite s (s.writeTarget t d) := by
  have hwindow : t.isWindow = true → DataWrite s (s.writeTarget t d) := by
    intro hw
    obtain ⟨sp, m, hm, hsp⟩ := State.writeTarget_window hw s d
    rw [hm]
    exact dataWrite_withSpace hsp m
  have hkept : KeepsControl s s := KeepsControl.refl s
  cases t
  case ctrl => exact .inl rfl
  case status => exact .inr (.inl rfl)
  case cmd => exact .inr (.inr (.inl rfl))
  all_goals refine .inr (.inr (.inr ?_))
  case inPtr | inLimit | outPtr | bitCount => exact ⟨{ hkept with }, id, fun _ => ⟨rfl, rfl⟩⟩
  case acc =>
    refine ⟨{ hkept with }, fun _ => ?_, fun _ => ⟨rfl, rfl⟩⟩
    exact (BitVec.and_assoc _ _ _).trans (congrArg _ BitVec.and_self)
  case root =>
    rw [State.writeTarget]
    split_ifs with ht
    · exact ⟨{ hkept with }, id, fun h => absurd ht (by rw [h]; exact Bool.false_ne_true)⟩
    · exact DataWrite.refl s
  case id | caps | lastCmd | remain | symCount | errInfo | reserved => exact DataWrite.refl s
  all_goals exact hwindow rfl

/-- A write of an engine-owned target is a data write (R62). -/
theorem dataWrite_of_isOwned {t : Target} (h : t.isOwned = true) (s : State) (d : Word) :
    DataWrite s (s.writeTarget t d) := by
  rcases writeTarget_cases s t d with rfl | rfl | rfl | hw
  · cases h
  · cases h
  · cases h
  · exact hw

/-! ### The invariant: steps of the engine -/

/-- A legal word decodes to a legal instruction: OP selects the same row in both, and `legal` asks what the row and the
instruction ask (R87, R90). -/
theorem exists_decode_of_legal {b : Bool} {w : Word} (h : legal b w = true) :
    ∃ i, decode w = .ok i ∧ i.isLegal b = true := by
  unfold legal at h
  unfold decode
  split at h <;> simp_all [requireClear, Instr.isLegal, Instr.wellFormed, Instr.present]


theorem runningCommand_of_legal {s : State} (h : legal s.hasTree s.lastCmd = true) :
    ∃ i, s.runningCommand = some i := by
  obtain ⟨i, hd, hl⟩ := exists_decode_of_legal h
  exact ⟨i, State.runningCommand_eq_some hd hl⟩

theorem ErrCode.toBits_range (c : ErrCode) : 1 ≤ c.toBits.toNat ∧ c.toBits.toNat ≤ 6 := by
  cases c <;> decide

/-- While a command runs the reset input is released (R190). -/
theorem State.Inv.released {s : State} (h : s.Inv) (hb : s.busy = true) : s.inReset = false := by
  by_contra hr
  obtain ⟨hidle, -⟩ := h.quietInReset (by simpa using hr)
  rw [hb] at hidle
  cases hidle

/-- The completion step keeps the invariant (R66). -/
theorem State.Inv.complete {s : State} (h : s.Inv) (hb : s.busy = true) : s.complete.Inv where
  busyClean := nofun
  notDoneAndErr := by simp [(h.busyClean hb).1]
  codeClear := h.codeClear
  codeRange := h.codeRange
  accLow := h.accLow
  runsLegal := nofun
  progress := nofun
  noTree := h.noTree
  memories := State.MemOk.congr h.memories s.complete_space
  quietInReset := by simp [h.released hb]
  seenIdle := fun _ => rfl

/-- The entry of an error keeps the invariant, in a state with DONE = 0 and the reset input released (R66, R170). -/
theorem State.Inv.takeError {s : State} (h : s.Inv) (hd : s.done = false) (hr : s.inReset = false) (e : UnitErr) :
    (s.takeError e).Inv where
  busyClean := nofun
  notDoneAndErr := by simp [hd]
  codeClear := nofun
  codeRange := fun _ => ErrCode.toBits_range e.code
  accLow := h.accLow
  runsLegal := nofun
  progress := nofun
  noTree := h.noTree
  memories := State.MemOk.congr h.memories (s.takeError_space e)
  quietInReset := by simp [hr]
  seenIdle := fun _ => rfl

/-- SYMCOUNT counts up as REMAIN counts down (R30, R31, R66). -/
theorem toNat_counters_step {sym rem n : BitVec 27} (h : sym.toNat + rem.toNat = n.toNat) (hr : rem ≠ 0#27) :
    (sym + 1#27).toNat + (rem - 1#27).toNat = n.toNat := by
  bv_omega

/-- A unit that commits keeps the invariant (R66). -/
theorem State.Inv.commit {i : Instr} {s t : State} (h : s.Inv) (hr : s.remain ≠ 0#27) (hu : unitOf i s = .ok t) :
    t.commit.Inv := by
  have hacc := unitOf_accLow h.accLow hu
  have hmem : t.MemOk := unitOf_memOk h.memories hu
  obtain ⟨m, p, n, b, c, q, l, k, rfl⟩ := unitOf_fields hu
  exact {
    busyClean := h.busyClean
    notDoneAndErr := h.notDoneAndErr
    codeClear := h.codeClear
    codeRange := h.codeRange
    accLow := hacc
    runsLegal := h.runsLegal
    progress := fun hb => toNat_counters_step (h.progress hb) hr
    noTree := h.noTree
    memories := hmem.congr (State.commit_space _)
    quietInReset := h.quietInReset
    seenIdle := h.seenIdle }

/-- A step of the running command keeps the invariant (R66). -/
theorem State.Inv.engineStep {s : State} (h : s.Inv) (hb : s.busy = true) (i : Instr) :
    (s.engineStep (unitOf i)).Inv := by
  rcases s.engineStep_cases (unitOf i) with ⟨-, he⟩ | ⟨hr, t, hu, he⟩ | ⟨-, e, -, he⟩ <;> rw [he]
  · exact h.complete hb
  · exact h.commit hr hu
  · exact h.takeError (h.busyClean hb).2 (h.released hb) e

/-! ### The invariant: accesses of the host and the reset input -/

/-- The inputs, turns and replies are free (assumption 5). -/
theorem State.Inv.withSchedule {s : State} (h : s.Inv) (xs : List Input) (ts : List Agent) (rs : List Word) :
    ({ s with inputs := xs, turns := ts, replies := rs } : State).Inv :=
  { h with memories := State.MemOk.congr h.memories fun sp => by cases sp <;> rfl }

/-- `idleSeen` may say that BUSY is 0 if it is (assumption 18). -/
theorem State.Inv.withIdleSeen {s : State} (h : s.Inv) {b : Bool} (hb : b = true → s.busy = false) :
    ({ s with idleSeen := b } : State).Inv :=
  { h with
    memories := State.MemOk.congr h.memories fun sp => by cases sp <;> rfl
    seenIdle := hb }

/-- DROP is free outside reset (R27). -/
theorem State.Inv.setDrop {s : State} (h : s.Inv) (hr : s.inReset = false) : ({ s with drop := true } : State).Inv :=
  { h with
    memories := State.MemOk.congr h.memories fun sp => by cases sp <;> rfl
    quietInReset := by simp [hr] }

/-- A data write keeps the invariant, if the memories stay canonical. -/
theorem State.Inv.dataWrite {s t : State} (h : s.Inv) (hw : DataWrite s t) (hmem : t.MemOk) : t.Inv := by
  obtain ⟨htree, hbusy, hdone, herr, hdrop, hcode, hcmd, hrem, hsym, hsnap, hreset, hidle⟩ := hw.control
  exact {
    busyClean := by rw [hbusy, herr, hdone]; exact h.busyClean
    notDoneAndErr := by rw [hdone, herr]; exact h.notDoneAndErr
    codeClear := by rw [herr, hcode]; exact h.codeClear
    codeRange := by rw [herr, hcode]; exact h.codeRange
    accLow := hw.accLow h.accLow
    runsLegal := by rw [hbusy, htree, hcmd]; exact h.runsLegal
    progress := by rw [hbusy, hsym, hrem, hcmd]; exact h.progress
    noTree := fun ht => by
      rw [htree] at ht
      obtain ⟨hroot, harena⟩ := hw.noTree ht
      rw [hroot, hsnap, harena]
      exact h.noTree ht
    memories := hmem
    quietInReset := by rw [hreset, hbusy, hdone, herr, hdrop]; exact h.quietInReset
    seenIdle := by rw [hidle, hbusy]; exact h.seenIdle }

/-- The register part of a reset keeps the invariant (R190, R191). -/
theorem State.Inv.resetRegisters {s : State} (h : s.Inv) : s.resetRegisters.Inv where
  busyClean := nofun
  notDoneAndErr := nofun
  codeClear := fun _ => rfl
  codeRange := nofun
  accLow := by simp [State.resetRegisters]
  runsLegal := nofun
  progress := nofun
  noTree := fun ht => ⟨rfl, rfl, (h.noTree ht).2.2⟩
  memories := State.MemOk.regWrite h.memories (.inr rfl) rfl rfl rfl rfl
  quietInReset := fun _ => ⟨rfl, rfl, rfl, rfl⟩
  seenIdle := fun _ => rfl

/-- Asserting the reset input keeps the invariant (R190). -/
theorem State.Inv.assertReset {s : State} (h : s.Inv) : s.assertReset.Inv :=
  { h.resetRegisters with
    noTree := fun _ => ⟨rfl, rfl, rfl⟩
    memories := fun sp => by cases sp <;> exact Memory.wf_nil _ _ _
    quietInReset := fun _ => ⟨rfl, rfl, rfl, rfl⟩ }

theorem State.Inv.releaseReset {s : State} (h : s.Inv) : s.releaseReset.Inv :=
  { h with
    memories := State.MemOk.congr h.memories fun sp => by cases sp <;> rfl
    quietInReset := nofun }

theorem State.Inv.writeCtrl {s : State} (h : s.Inv) (d : Word) : (s.writeCtrl d).Inv := by
  unfold State.writeCtrl
  split_ifs
  · exact h.resetRegisters
  · exact { h with memories := State.MemOk.congr h.memories fun sp => by cases sp <;> rfl }

/-- Clearing flags keeps the invariant (R28). -/
theorem State.Inv.writeStatus {s : State} (h : s.Inv) (d : Word) : (s.writeStatus d).Inv := by
  have hmem : (s.writeStatus d).MemOk := State.MemOk.writeStatus h.memories d
  rw [State.writeStatus_eq] at hmem ⊢
  refine { h with
    busyClean := fun hb => ?_
    notDoneAndErr := fun hde => h.notDoneAndErr ?_
    codeClear := fun he => ?_
    codeRange := fun he => ?_
    memories := hmem
    quietInReset := fun hr => ?_ }
  · obtain ⟨he, hd⟩ := h.busyClean hb
    simp [he, hd]
  · simp only [Bool.if_false_left, Bool.and_eq_true] at hde
    exact ⟨hde.1.2, hde.2.2⟩
  · dsimp only at he ⊢
    split_ifs at he ⊢
    · rfl
    · exact h.codeClear he
  · dsimp only at he ⊢
    split_ifs at he ⊢
    exact h.codeRange he
  · obtain ⟨hb, hd, he, hp⟩ := h.quietInReset hr
    simp [hb, hd, he, hp]

/-- The accept of a word keeps the invariant, once `idleSeen` is taken back (R26). -/
theorem State.Inv.accept {s : State} (h : s.Inv) (hs : s.Accepting) (hseen : s.idleSeen = false) (w : Word) :
    (s.accept w).Inv := by
  obtain ⟨hb, he, hr⟩ := hs
  cases hl : legal s.hasTree w with
  | true =>
    rw [State.accept_legal hl]
    exact {
      busyClean := fun _ => ⟨he, rfl⟩
      notDoneAndErr := nofun
      codeClear := h.codeClear
      codeRange := h.codeRange
      accLow := h.accLow
      runsLegal := fun _ => hl
      progress := fun _ => Nat.zero_add _
      noTree := fun ht => ⟨(h.noTree ht).1, by simp [show s.hasTree = false from ht], (h.noTree ht).2.2⟩
      memories := State.MemOk.regWrite h.memories (.inl rfl) rfl rfl rfl rfl
      quietInReset := by simp [hr]
      seenIdle := by simp [hseen] }
  | false =>
    rw [State.accept_illegal hb hl]
    exact { h with
      busyClean := by simp [hb]
      notDoneAndErr := by simp
      codeClear := nofun
      codeRange := fun _ => ErrCode.toBits_range .illegalCmd
      runsLegal := by simp [hb]
      progress := by simp [hb]
      memories := State.MemOk.regWrite h.memories (.inl rfl) rfl rfl rfl rfl
      quietInReset := by simp [hr] }

theorem State.Inv.writeCmd {s : State} (h : s.Inv) (hseen : s.idleSeen = false) (w : Word) : (s.writeCmd w).Inv := by
  rcases s.writeCmd_cases w with he | ⟨hr, -, he⟩ | ⟨hacc, he⟩ <;> rw [he]
  · exact h
  · exact h.setDrop hr
  · exact h.accept hacc hseen w

/-- A host write keeps the invariant, once a write of CMD has taken `idleSeen` back (R60 to R62). -/
theorem State.Inv.hostWrite {s : State} (h : s.Inv) {a : Addr} (hseen : target a = .cmd → s.idleSeen = false)
    (d : Word) : (s.hostWrite a d).Inv := by
  rcases s.hostWrite_cases a d with ⟨-, he⟩ | ⟨hb, -, he⟩ | ⟨-, -, he⟩
  · rw [he]; exact h
  · rw [he]; exact h.setDrop (h.released hb)
  · have hmem : (s.writeTarget (target a) d).MemOk := State.MemOk.writeTarget h.memories (target_inRange a) d
    rw [he]
    rcases writeTarget_cases s (target a) d with ht | ht | ht | hw
    · rw [ht]; exact h.writeCtrl d
    · rw [ht]; exact h.writeStatus d
    · rw [ht]; exact h.writeCmd (hseen ht) d
    · exact h.dataWrite hw hmem

/-- A read of STATUS that returns `BUSY = 0` says so of the state (R27, R190). -/
theorem State.Inv.idle_of_read {s : State} (h : s.Inv) {a : Addr} (ha : target a = .status)
    (hread : (s.hostRead a).getLsbD 0 = false) : s.busy = false := by
  cases hr : s.inReset with
  | true => exact (h.quietInReset hr).1
  | false =>
    rw [State.hostRead_register hr ha rfl] at hread
    exact s.statusWord_busy.symm.trans hread

theorem State.Inv.performRead {s : State} (h : s.Inv) (a : Addr) : (s.performRead a).Inv := by
  refine (h.withSchedule s.inputs s.turns (s.hostRead a :: s.replies)).withIdleSeen fun hi => ?_
  split_ifs at hi with ha
  · exact h.idle_of_read ha (by simpa using hi)
  · exact h.seenIdle hi

/-- Every input keeps the invariant. -/
theorem State.Inv.perform {s : State} (h : s.Inv) (x : Input) : (s.perform x).Inv := by
  cases x with
  | read a => exact h.performRead a
  | write a d =>
    have hnote : (s.noteWrite a).Inv := h.withIdleSeen fun hi => by
      split_ifs at hi
      exact h.seenIdle hi
    exact hnote.hostWrite (fun ha => by simp [State.noteWrite, ha]) d
  | wait =>
    unfold State.perform
    split_ifs
    · exact (h.performRead statusAddr).withSchedule _ _ _
    · exact h.performRead statusAddr
  | resetAssert => exact h.assertReset
  | resetRelease => exact h.releaseReset

/-! ### The invariant: every step -/

/-- The engine has a next state if the running command is legal (R26, R29). -/
theorem exists_engineTurn_next {s : State} (h : s.busy = true → legal s.hasTree s.lastCmd = true) :
    ∃ t, engineTurn s = .next t := by
  cases hb : s.busy with
  | false => exact ⟨s, by rw [engineTurn, if_neg (by simp [hb])]⟩
  | true =>
    obtain ⟨i, hi⟩ := runningCommand_of_legal (h hb)
    rw [engineTurn_running hb hi, exec_eq, runCommand_eq]
    exact ⟨_, rfl⟩

theorem exists_hostTurn_next (s : State) : ∃ t, hostTurn s = .next t := by
  cases hin : s.inputs with
  | nil => exact ⟨s, by simp only [hostTurn, hin]⟩
  | cons x rest => exact ⟨_, hostTurn_cons hin⟩

theorem State.Inv.exists_step_next {s : State} (h : s.Inv) : ∃ t, step s = .next t := by
  rw [step, stepTurn]
  cases s.mover with
  | engine => exact exists_engineTurn_next h.runsLegal
  | host => exact exists_hostTurn_next _

/-- Settles O57: an engine's turn is a step of the running command, a host's turn is an access or a change of the reset
input, and each keeps the invariant. -/
theorem everyStepKeepsTheInvariant : Obligations.EveryStepKeepsTheInvariant := by
  intro s h
  obtain ⟨t, ht⟩ := h.exists_step_next
  refine ⟨t, ht, ?_⟩
  rcases step_cases ht with ⟨-, -, rfl⟩ | ⟨-, hb, i, -, he⟩ | ⟨-, -, rfl⟩ | ⟨-, x, rest, -, rfl⟩
  · exact h.withSchedule _ _ _
  · have hturn : ({ s with turns := s.turns.tail } : State).Inv := h.withSchedule _ _ _
    rw [exec_eq, runCommand_eq, if_pos hb] at he
    injection he with he
    rw [← he]
    exact hturn.engineStep hb i
  · exact h.withSchedule _ _ _
  · exact (h.withSchedule _ _ _).perform x

/-! ### Register accesses (R23 to R38) -/

/-- While idle, a read after a write of the same engine-owned target gives what the write left there (R61, R62). -/
theorem State.hostRead_hostWrite {s : State} {a : Addr} {t : Target} (hr : s.inReset = false) (hb : s.busy = false)
    (ha : target a = t) (ht : t.isOwned = true) (d : Word) :
    (s.hostWrite a d).hostRead a = (s.writeTarget t d).readTarget t := by
  have hkept := (dataWrite_of_isOwned ht s d).control
  rw [State.hostWrite_idle hr hb ha]
  exact State.hostRead_idle (hkept.inReset.trans hr) (hkept.busy.trans hb) ha

theorem extractLsb'_zero_eq_setWidth (d : Word) (k : Nat) (hk : k ≤ 32) : d.extractLsb' 0 k = d.setWidth k :=
  (BitVec.setWidth_eq_extractLsb' hk).symm

/-- A register of `k` bits reads back the low `k` bits written, its reserved bits 0 (R61). -/
theorem setWidth_setWidth_eq_and (d : Word) (k : Nat) (hk : k ≤ 32) :
    (d.setWidth k).setWidth 32 = d &&& BitVec.ofNat 32 (2 ^ k - 1) := by
  have hpow : 2 ^ k ≤ 2 ^ 32 := Nat.pow_le_pow_right (by decide) hk
  have hpos : 0 < 2 ^ k := Nat.two_pow_pos k
  have hlt : d.toNat % 2 ^ k < 2 ^ 32 := (Nat.mod_lt _ hpos).trans_le hpow
  apply BitVec.eq_of_toNat_eq
  rw [BitVec.toNat_and, BitVec.toNat_ofNat, Nat.mod_eq_of_lt (by omega), Nat.and_two_pow_sub_one_eq_mod,
    BitVec.toNat_setWidth, BitVec.toNat_setWidth, Nat.mod_eq_of_lt hlt]

/-- A register of `k` bits, zero-extended, is the word of its number. -/
theorem setWidth_eq_ofNat_toNat {k : Nat} (x : BitVec k) : x.setWidth 32 = BitVec.ofNat 32 x.toNat :=
  BitVec.eq_of_toNat_eq (by rw [BitVec.toNat_setWidth, BitVec.toNat_ofNat])

/-- Settles O5: no write reaches the two words, and they rest on `HAS_TREE` alone, which no reset changes. -/
theorem idAndCapsAreConstants : Obligations.IdAndCapsAreConstants := by
  intro s hr
  refine ⟨fun a ha => ⟨State.hostRead_register hr ha rfl, fun d => State.hostWrite_free hr ha rfl d⟩,
    fun a ha => ⟨?_, fun d => State.hostWrite_free hr ha rfl d⟩, fun a ha => ?_⟩
  · rw [State.hostRead_register hr ha rfl, State.readTarget, State.capsWord]
    cases s.hasTree <;> decide
  · rcases ha with ha | ha <;>
      rw [State.hostRead_register hr ha rfl, State.hostRead_register (s := s.softReset) hr ha rfl,
        State.hostRead_register (s := s.assertReset.releaseReset) rfl ha rfl] <;>
      exact ⟨rfl, rfl⟩

/-- Settles O6: CTRL is not engine-owned, so its write has its effect at any time. -/
theorem controlRegisterWrites : Obligations.ControlRegisterWrites := by
  intro s a d hr ha
  have hwrite : s.hostWrite a d = s.writeCtrl d := State.hostWrite_free hr ha rfl d
  have hread : ∀ t : State, t.inReset = false → t.hostRead a = if t.irqEn then 1#32 else 0#32 := by
    intro t ht
    rw [State.hostRead_register ht ha rfl, State.readTarget, State.ctrlWord]
    cases t.irqEn <;> decide
  rw [hwrite]
  refine ⟨fun h1 => ?_, State.writeCtrl_irqEn, hread s hr⟩
  rw [State.writeCtrl_reset h1]
  exact ⟨rfl, hread s.softReset hr⟩

/-- Settles O7: STATUS is not engine-owned, and its three conditional clears are one update. -/
theorem statusWritesClearTheirBits : Obligations.StatusWritesClearTheirBits := by
  intro s a d hr ha
  rw [State.hostWrite_free hr ha rfl]
  exact s.writeStatus_eq d

/-- Settles O8: the bits of STATUS, read one by one. -/
theorem statusReadsItsFields : Obligations.StatusReadsItsFields := by
  intro s a hr ha
  have hread : s.hostRead a = s.statusWord := State.hostRead_register hr ha rfl
  rw [hread]
  exact ⟨s.getLsbD_statusWord 0, s.getLsbD_statusWord 1, s.getLsbD_statusWord 2, s.getLsbD_statusWord 3,
    s.statusWord_errCode, s.statusWord_reserved⟩

/-- Settles O9: CMD is not engine-owned, so its write is the accept rule at any time. -/
theorem commandWriteIsTheAcceptRule : Obligations.CommandWriteIsTheAcceptRule := by
  intro s a w hr ha
  have hwrite : s.hostWrite a w = s.writeCmd w := State.hostWrite_free hr ha rfl w
  rw [hwrite]
  refine ⟨State.hostRead_register hr ha rfl, fun h => State.writeCmd_dropped hr h w, fun hb he hl => ?_,
    fun hb he hl => ?_⟩
  · rw [State.writeCmd_accepted ⟨hb, he, hr⟩, State.accept_illegal hb hl]
  · rw [State.writeCmd_accepted ⟨hb, he, hr⟩, State.accept_legal hl]

/-- Settles O28: at BUSY = 0 the instruction is the write of its word, whose legality is the instruction's. -/
theorem acceptStartsEveryLegalInstruction : Obligations.AcceptStartsEveryLegalInstruction := by
  intro i s hs
  rw [exec_idle hs.1, State.writeCmd_accepted hs, ← legal_encode]
  exact ⟨fun hl => by rw [State.accept_legal hl], fun hl => by rw [State.accept_illegal hs.1 hl]⟩

/-- Settles O10: the bits written are masked, and ACC reads as the word of its two fields. -/
theorem accumulatorWritesMaskTheirBits : Obligations.AccumulatorWritesMaskTheirBits := by
  intro s a d hr hb ha
  have hwrite : s.hostWrite a d = s.writeAcc d := State.hostWrite_idle hr hb ha d
  have hread : (s.hostWrite a d).hostRead a = (s.writeAcc d).accWord := State.hostRead_hostWrite hr hb ha rfl d
  rw [hread, hwrite]
  refine ⟨rfl, fun j => ?_, State.accWord_eq _, rfl⟩
  rw [State.writeAcc, BitVec.getLsbD_and, getLsbD_accMask, BitVec.getLsbD_extractLsb', Nat.zero_add]
  cases decide (j < 8) <;> simp

/-- Settles O11: each write stores the low bits of the word, and the read of the register zero-extends them. -/
theorem streamRegistersReadBack : Obligations.StreamRegistersReadBack := by
  intro s a d hr hb
  refine ⟨fun ha => ?_, fun ha => ?_, fun ha => ?_, fun ha => ?_, fun ha ht => ?_, fun ha ht => ?_⟩
  · rw [State.hostRead_hostWrite hr hb ha rfl, State.hostWrite_idle hr hb ha, State.writeTarget,
      extractLsb'_zero_eq_setWidth d 18 (by decide)]
    exact ⟨rfl, setWidth_setWidth_eq_and d 18 (by decide)⟩
  · rw [State.hostRead_hostWrite hr hb ha rfl, State.hostWrite_idle hr hb ha, State.writeTarget,
      extractLsb'_zero_eq_setWidth d 16 (by decide)]
    exact ⟨rfl, setWidth_setWidth_eq_and d 16 (by decide)⟩
  · rw [State.hostRead_hostWrite hr hb ha rfl, State.hostWrite_idle hr hb ha, State.writeTarget,
      extractLsb'_zero_eq_setWidth d 16 (by decide)]
    exact ⟨rfl, setWidth_setWidth_eq_and d 16 (by decide)⟩
  · rw [State.hostRead_hostWrite hr hb ha rfl, State.hostWrite_idle hr hb ha]
    exact ⟨rfl, rfl⟩
  · rw [State.hostRead_hostWrite hr hb ha rfl, State.hostWrite_idle hr hb ha, State.writeTarget, if_pos ht,
      extractLsb'_zero_eq_setWidth d 9 (by decide), State.readTarget, if_pos ht]
    exact ⟨rfl, setWidth_setWidth_eq_and d 9 (by decide)⟩
  · rw [State.hostRead_register hr ha rfl, State.hostWrite_idle hr hb ha, State.writeTarget, State.readTarget, ht]
    exact ⟨rfl, rfl⟩

/-- Settles O12: no such target is engine-owned, so a write does nothing even while a command runs. -/
theorem readOnlyAndReservedIgnoreWrites : Obligations.ReadOnlyAndReservedIgnoreWrites := by
  intro s a d
  have hignored : ∀ t : Target, target a = t → t.isOwned = false → s.writeTarget t d = s → s.hostWrite a d = s := by
    intro t ha ho hw
    rcases s.hostWrite_cases a d with ⟨-, he⟩ | ⟨-, hown, -⟩ | ⟨-, -, he⟩
    · exact he
    · rw [ha, ho] at hown; cases hown
    · rw [he, ha, hw]
  refine ⟨?_, fun ha => ?_, fun hr => ⟨?_, ?_, ?_, ?_⟩⟩
  · rintro (ha | ha | ha | ha | ha | ha | ha) <;> exact hignored _ ha rfl rfl
  · cases hr : s.inReset with
    | true => simp [State.hostRead, hr]
    | false => exact State.hostRead_register hr ha rfl
  · exact fun ha => State.hostRead_register hr ha rfl
  · exact fun ha => (State.hostRead_register hr ha rfl).trans (setWidth_eq_ofNat_toNat _)
  · exact fun ha => (State.hostRead_register hr ha rfl).trans (setWidth_eq_ofNat_toNat _)
  · exact fun ha => State.hostRead_register hr ha rfl

/-- Settles O16: IRQ is defined by the three bits. -/
theorem interruptIsALevel : Obligations.InterruptIsALevel := by
  refine ⟨fun s => ?_, fun s t h1 h2 h3 => ?_⟩
  · rw [State.irq, Bool.and_eq_true, Bool.or_eq_true]
  · rw [State.irq, State.irq, h1, h2, h3]

/-! ### The address map (R23, R41, R44 to R46) -/

/-- The address map sees the word of an address and not its bits [1:0] (R60). -/
theorem target_congr {a b : Addr} (h : a.toNat / 4 = b.toNat / 4) : target a = target b := by
  simp only [target, h]

/-- Bits [1:0] cleared, an address is in the same word. -/
theorem toNat_and_wordMask (a : Addr) : (a &&& 0xFFFC#16).toNat / 4 = a.toNat / 4 := by
  have ha := a.isLt
  calc (a.toNat &&& 0xFFFC) / 4 = (a.toNat &&& 0xFFFC) >>> 2 := (Nat.shiftRight_eq_div_pow _ 2).symm
    _ = a.toNat >>> 2 &&& (2 ^ 14 - 1) := Nat.shiftRight_and_distrib
    _ = a.toNat / 4 := by
      rw [Nat.and_two_pow_sub_one_eq_mod, Nat.shiftRight_eq_div_pow]
      exact Nat.mod_eq_of_lt (by omega)

theorem target_register {a : Addr} (h : a.toNat < 0x1000) : target a = registerAt (a.toNat / 4 * 4) := by
  unfold target
  exact if_pos (by omega)

theorem target_ctEntry {a : Addr} (h1 : 0x1000 ≤ a.toNat) (h2 : a.toNat < 0x5000) :
    target a = ctEntryAt ((a.toNat / 4 * 4 - 0x1000) / 64) ((a.toNat / 4 * 4 - 0x1000) % 64) := by
  unfold target
  dsimp only
  rw [if_neg (by omega), if_pos (by omega)]

theorem target_arena {a : Addr} (h1 : 0x5000 ≤ a.toNat) (h2 : a.toNat < 0x57FC) :
    target a = .arena ((a.toNat / 4 * 4 - 0x5000) / 4) := by
  unfold target
  dsimp only
  rw [if_neg (by omega), if_neg (by omega), if_pos (by omega)]

theorem target_gap {a : Addr} (h1 : 0x5800 ≤ a.toNat) (h2 : a.toNat < 0x8000) : target a = .reserved := by
  unfold target
  dsimp only
  rw [if_neg (by omega), if_neg (by omega), if_neg (by omega), if_neg (by omega), if_pos (by omega)]

theorem target_inWord {a : Addr} (h1 : 0x8000 ≤ a.toNat) (h2 : a.toNat < 0xC000) :
    target a = .inWord ((a.toNat / 4 * 4 - 0x8000) / 4) := by
  unfold target
  dsimp only
  rw [if_neg (by omega), if_neg (by omega), if_neg (by omega), if_neg (by omega), if_neg (by omega), if_pos (by omega)]

theorem target_outWord {a : Addr} (h : 0xC000 ≤ a.toNat) : target a = .outWord ((a.toNat / 4 * 4 - 0xC000) / 4) := by
  unfold target
  dsimp only
  rw [if_neg (by omega), if_neg (by omega), if_neg (by omega), if_neg (by omega), if_neg (by omega), if_neg (by omega)]

/-- Above ROOT no register is left (R23). -/
theorem registerAt_reserved {off : Nat} (h : 0x3C ≤ off) : registerAt off = .reserved := by
  unfold registerAt
  split
  iterate 15 · omega
  rfl

theorem toNat_address {n : Nat} (h : n < 0x10000) : (BitVec.ofNat 16 n).toNat = n := by
  rw [BitVec.toNat_ofNat, Nat.mod_eq_of_lt h]

/-- The word of a CT entry that byte offset `q` of entry `sym` is in (R41). -/
theorem target_ctWindow {sym q : Nat} (hs : sym < 256) (hq : q < 64) :
    target (BitVec.ofNat 16 (0x1000 + 64 * sym + q)) = ctEntryAt sym (q / 4 * 4) := by
  have ha := toNat_address (n := 0x1000 + 64 * sym + q) (by omega)
  have hsym : ((0x1000 + 64 * sym + q) / 4 * 4 - 0x1000) / 64 = sym := by omega
  have hoff : ((0x1000 + 64 * sym + q) / 4 * 4 - 0x1000) % 64 = q / 4 * 4 := by omega
  rw [target_ctEntry (by omega) (by omega), ha, hsym, hoff]

theorem ctEntryAt_code {sym j : Nat} (hj : j < 8) : ctEntryAt sym (4 + 4 * j) = .ctCode sym j := by
  rw [ctEntryAt, if_neg (by omega), if_pos (by omega)]
  congr 1
  omega

theorem ctEntryAt_pad {sym q : Nat} (hq : 0x24 ≤ q) : ctEntryAt sym q = .ctPad := by
  rw [ctEntryAt, if_neg (by omega), if_neg (by omega)]

/-- Settles O4: each row of the table is one range of the map. -/
theorem addressMapIsTheTable : Obligations.AddressMapIsTheTable := by
  refine ⟨fun a => target_congr (toNat_and_wordMask a), by decide, fun a h1 h2 => ?_, fun sym hs => ?_,
    fun sym j hs hj => ?_, fun sym q hs h1 h2 => ?_, fun i hi => ?_, by decide, fun a => target_gap, fun m hm => ?_,
    fun m hm => ?_⟩
  · rw [target_register h2, registerAt_reserved (by omega)]
  · exact target_ctWindow (q := 0) hs (by decide)
  · rw [show 0x1004 + 64 * sym + 4 * j = 0x1000 + 64 * sym + (4 + 4 * j) by omega, target_ctWindow hs (by omega),
      show (4 + 4 * j) / 4 * 4 = 4 + 4 * j by omega, ctEntryAt_code hj]
  · rw [target_ctWindow hs h2, ctEntryAt_pad (by omega)]
  · have ha := toNat_address (n := 0x5000 + 4 * i) (by omega)
    rw [target_arena (by omega) (by omega), ha]
    congr 1
    omega
  · have ha := toNat_address (n := 0x8000 + 4 * m) (by omega)
    rw [target_inWord (by omega) (by omega), ha]
    congr 1
    omega
  · have ha := toNat_address (n := 0xC000 + 4 * m) (by omega)
    rw [target_outWord (by omega), ha]
    congr 1
    omega

/-! ### FLUSH pads with zero bits (R36, R124) -/

/-- Below its pending bits ACC is 0, so its eight bits are the pending ones and zeros (R36). -/
theorem State.bitsOf_accBits {s : State} (h : s.accBits &&& accMask s.accN = s.accBits) :
    bitsOf 8 s.accBits.toNat = s.pendingBits ++ List.replicate (8 - s.accN.toNat) false := by
  have hzero : ∀ j, s.accN.toNat ≤ j → j < 8 → s.accBits.toNat.testBit (7 - j) = false := by
    intro j hj hj8
    show s.accBits.getLsbD (7 - j) = false
    rw [← h, BitVec.getLsbD_and, getLsbD_accMask]
    simp [show ¬8 - s.accN.toNat ≤ 7 - j by omega]
  have hrest : (bitsOf 8 s.accBits.toNat).drop s.accN.toNat = List.replicate (8 - s.accN.toNat) false := by
    apply List.ext_getElem
    · simp
    · intro j h1 h2
      rw [List.getElem_drop, getElem_bitsOf, List.getElem_replicate]
      rw [List.length_replicate] at h2
      exact hzero _ (by omega) (by omega)
  rw [State.pendingBits, ← hrest, List.take_append_drop]

/-- A byte written at OUT_PTR, with OUT_PTR moved past it and no bit pending, is appended to the bytes of the output
stream (R120). -/
theorem State.outStream_setByte {s : State} {o : Nat} (ho : o ≤ s.outPtr.toNat) (hout : s.outPtr.toNat < Config.outSize)
    (v b : Byte) (c : BitVec 32) :
    ((s.setByte .outBuf s.outPtr.toNat v).setOutput (s.outPtr + 1#16) 0#3 b c).outStream o =
      (s.bytes .outBuf o (s.outPtr.toNat - o)).flatMap (fun x => bitsOf 8 x.toNat) ++ bitsOf 8 v.toNat := by
  generalize ht : (s.setByte .outBuf s.outPtr.toNat v).setOutput (s.outPtr + 1#16) 0#3 b c = t
  have hbyte : ∀ a, t.byte .outBuf a = if s.outPtr.toNat = a then v else s.byte .outBuf a := by
    intro a
    rw [← ht, State.setOutput_byte, State.byte_setByte]
    simp only [true_and, Space.mask]
    rw [show v &&& 0xFF#8 = v from BitVec.and_allOnes]
  have hptr : t.outPtr.toNat = s.outPtr.toNat + 1 := by
    rw [← ht]
    exact toNat_add_ofNat_of_lt (k := 1) (by unfold Config.outSize at hout; omega)
  have hpend : t.pendingBits = [] := by rw [← ht]; rfl
  have hold : t.bytes .outBuf o (s.outPtr.toNat - o) = s.bytes .outBuf o (s.outPtr.toNat - o) :=
    State.bytes_congr fun j hj => by rw [hbyte, if_neg (by omega)]
  have hnew : t.bytes .outBuf s.outPtr.toNat 1 = [v] := by
    simp [State.bytes, hbyte]
  rw [State.outStream, hpend, hptr, show s.outPtr.toNat + 1 - o = (s.outPtr.toNat - o) + 1 by omega, State.bytes_add,
    show o + (s.outPtr.toNat - o) = s.outPtr.toNat by omega, hold, hnew]
  simp

theorem State.outStream_commit (s : State) (o : Nat) : s.commit.outStream o = s.outStream o := rfl

/-- Settles O42: the byte FLUSH writes is the pending bits and zeros, and with nothing pending it writes none. -/
theorem flushPadsTheStreamWithZeros : Obligations.FlushPadsTheStreamWithZeros := by
  intro s o hs hacc hout ho
  by_cases hn : s.accN = 0#3
  · have hu : unitOf .flush s = .ok s := if_pos hn
    refine ⟨s.commit, exec_ok hs hu, hn, ?_⟩
    rw [State.outStream_commit, hn]
    exact (List.append_nil _).symm
  · have hu : unitOf .flush s =
        .ok ((s.setByte .outBuf s.outPtr.toNat s.accBits).setOutput (s.outPtr + 1#16) 0#3 0#8 s.bitCount) :=
      (if_neg hn).trans (if_neg (by unfold Config.outSize; omega))
    have hpad : (8 - s.accN.toNat) % 8 = 8 - s.accN.toNat := by
      have : s.accN.toNat ≠ 0 := fun h0 => hn (BitVec.eq_of_toNat_eq h0)
      omega
    refine ⟨_, exec_ok hs hu, rfl, ?_⟩
    rw [State.outStream_commit, State.outStream_setByte ho hout, State.bitsOf_accBits hacc, State.outStream, hpad,
      List.append_assoc]

/-! ### What may set a flag (R49) -/

/-- No flag of STATUS is 1 in `t` that was 0 in `s` (R27). -/
structure NoFlagRises (s t : State) : Prop where
  busy : t.busy = true → s.busy = true
  done : t.done = true → s.done = true
  err : t.err = true → s.err = true
  drop : t.drop = true → s.drop = true

theorem NoFlagRises.refl (s : State) : NoFlagRises s s := ⟨id, id, id, id⟩

theorem KeepsControl.noFlagRises {s t : State} (h : KeepsControl s t) : NoFlagRises s t := by
  constructor <;> simp [h.busy, h.done, h.err, h.drop]

theorem noFlagRises_resetRegisters (s : State) : NoFlagRises s s.resetRegisters := ⟨nofun, nofun, nofun, nofun⟩

theorem noFlagRises_writeCtrl (s : State) (d : Word) : NoFlagRises s (s.writeCtrl d) := by
  unfold State.writeCtrl
  split_ifs
  · exact noFlagRises_resetRegisters s
  · exact ⟨id, id, id, id⟩

theorem noFlagRises_writeStatus (s : State) (d : Word) : NoFlagRises s (s.writeStatus d) := by
  rw [State.writeStatus_eq]
  constructor <;> simp

/-- A write of CMD while BUSY = 1 or ERR = 1, or of an engine-owned resource while BUSY = 1 (R26, R62). -/
def State.Drops (s : State) (a : Addr) : Prop :=
  (target a = .cmd ∧ (s.busy = true ∨ s.err = true)) ∨ (EngineOwned a ∧ s.busy = true)

/-- A host write that sets a flag is dropped, or is the accept of a word (R26, R49, R62). -/
theorem hostWrite_flags (s : State) (a : Addr) (d : Word) :
    NoFlagRises s (s.hostWrite a d) ∨
    (s.Drops a ∧ s.hostWrite a d = { s with drop := true }) ∨
    (target a = .cmd ∧ s.Accepting ∧ s.hostWrite a d = s.accept d) := by
  rcases s.hostWrite_cases a d with ⟨-, he⟩ | ⟨hb, ho, he⟩ | ⟨-, -, he⟩
  · exact .inl (he.symm ▸ NoFlagRises.refl s)
  · exact .inr (.inl ⟨.inr ⟨(isOwned_target a).1 ho, hb⟩, he⟩)
  · rcases writeTarget_cases s (target a) d with ht | ht | ht | hw
    · rw [he, ht]
      exact .inl (noFlagRises_writeCtrl s d)
    · rw [he, ht]
      exact .inl (noFlagRises_writeStatus s d)
    · rw [ht] at he
      rcases s.writeCmd_cases d with hc | ⟨-, hbe, hc⟩ | ⟨hacc, hc⟩
      · exact .inl ((he.trans hc).symm ▸ NoFlagRises.refl s)
      · exact .inr (.inl ⟨.inl ⟨ht, hbe⟩, he.trans hc⟩)
      · exact .inr (.inr ⟨ht, hacc, he.trans hc⟩)
    · rw [he]
      exact .inl hw.control.noFlagRises

/-- Of all inputs only a write may set a flag (R49). -/
theorem perform_flags (s : State) (x : Input) :
    NoFlagRises s (s.perform x) ∨ ∃ a d, x = .write a d ∧
      ((s.Drops a ∧ s.perform x = { s.noteWrite a with drop := true }) ∨
        (target a = .cmd ∧ s.Accepting ∧ s.perform x = (s.noteWrite a).accept d)) := by
  cases x with
  | read a => exact .inl ⟨id, id, id, id⟩
  | write a d =>
    rcases hostWrite_flags (s.noteWrite a) a d with ⟨hb, hd, he, hp⟩ | h | h
    · exact .inl ⟨hb, hd, he, hp⟩
    · exact .inr ⟨a, d, rfl, .inl h⟩
    · exact .inr ⟨a, d, rfl, .inr h⟩
  | wait =>
    unfold State.perform
    split_ifs <;> exact .inl ⟨id, id, id, id⟩
  | resetAssert => exact .inl ⟨nofun, nofun, nofun, nofun⟩
  | resetRelease => exact .inl ⟨id, id, id, id⟩

/-- A step of the running command that sets a flag is the completion step or the entry of an error (R66). -/
theorem engineStep_flags (s : State) (i : Instr) :
    NoFlagRises s (s.engineStep (unitOf i)) ∨
    (s.remain = 0#27 ∧ s.engineStep (unitOf i) = s.complete) ∨
    (s.remain ≠ 0#27 ∧ ∃ e, s.engineStep (unitOf i) = s.takeError e) := by
  rcases s.engineStep_cases (unitOf i) with h | ⟨-, t, hu, he⟩ | ⟨hr, e, -, he⟩
  · exact .inr (.inl h)
  · obtain ⟨m, p, n, b, c, q, l, k, rfl⟩ := unitOf_fields hu
    rw [he]
    exact .inl ⟨id, id, id, id⟩
  · exact .inr (.inr ⟨hr, e, he⟩)

/-- What the accept of a word does to the flags (R26). -/
theorem accept_flags {s : State} (hs : s.Accepting) (w : Word) :
    (s.accept w).lastCmd = w ∧ (s.accept w).done = false ∧ (s.accept w).drop = s.drop ∧
      ((legal s.hasTree w = true ∧ (s.accept w).err = s.err) ∨
        (legal s.hasTree w = false ∧ (s.accept w).busy = s.busy ∧ (s.accept w).errCode = 1#4)) := by
  cases hl : legal s.hasTree w with
  | true =>
    rw [State.accept_legal hl]
    exact ⟨rfl, rfl, rfl, .inl ⟨rfl, rfl⟩⟩
  | false =>
    rw [State.accept_illegal hs.1 hl]
    exact ⟨rfl, rfl, rfl, .inr ⟨rfl, rfl, rfl⟩⟩

/-- A step that sets a flag is the completion step, the entry of a unit's error, a dropped write, or the accept of a
word, legal or not (R49). -/
theorem step_flags {s t : State} (h : step s = .next t) :
    NoFlagRises s t ∨
    (s.mover = .engine ∧ s.busy = true ∧ s.remain = 0#27 ∧ t.busy = false ∧ t.err = s.err ∧ t.drop = s.drop) ∨
    (s.mover = .engine ∧ s.AtUnit ∧ t.busy = false ∧ t.done = s.done ∧ t.drop = s.drop) ∨
    (s.mover = .host ∧ ∃ a d rest, s.inputs = .write a d :: rest ∧
      ((s.Drops a ∧ t.busy = s.busy ∧ t.done = s.done ∧ t.err = s.err) ∨
        (target a = .cmd ∧ s.err = false ∧ t.lastCmd = d ∧ t.done = false ∧ t.drop = s.drop ∧
          ((legal s.hasTree d = true ∧ t.err = s.err) ∨
            (legal s.hasTree d = false ∧ t.busy = s.busy ∧ t.errCode = 1#4))))) := by
  rcases step_cases h with ⟨-, -, rfl⟩ | ⟨hm, hb, i, -, he⟩ | ⟨-, -, rfl⟩ | ⟨hm, x, rest, hin, rfl⟩
  · exact .inl ⟨id, id, id, id⟩
  · rw [exec_eq, runCommand_eq, if_pos hb] at he
    injection he with he
    subst he
    rcases engineStep_flags { s with turns := s.turns.tail } i with ⟨hbusy, hdone, herr, hdrop⟩ | ⟨hr, hc⟩ | ⟨hr, e, hc⟩
    · exact .inl ⟨hbusy, hdone, herr, hdrop⟩
    · rw [hc]
      exact .inr (.inl ⟨hm, hb, hr, rfl, rfl, rfl⟩)
    · rw [hc]
      exact .inr (.inr (.inl ⟨hm, ⟨hb, hr⟩, rfl, rfl, rfl⟩))
  · exact .inl ⟨id, id, id, id⟩
  · rcases perform_flags { s with inputs := rest, turns := s.turns.tail } x with
      ⟨hbusy, hdone, herr, hdrop⟩ | ⟨a, d, rfl, ⟨hd, he⟩ | ⟨ha, hacc, he⟩⟩
    · exact .inl ⟨hbusy, hdone, herr, hdrop⟩
    · rw [he]
      exact .inr (.inr (.inr ⟨hm, a, d, rest, hin, .inl ⟨hd, rfl, rfl, rfl⟩⟩))
    · rw [he]
      have hflags := accept_flags (s := ({ s with inputs := rest, turns := s.turns.tail } : State).noteWrite a) hacc d
      exact .inr (.inr (.inr ⟨hm, a, d, rest, hin, .inr ⟨ha, hacc.2.1, hflags⟩⟩))

/-- A clause about the setting of a flag holds of a step in which the flag does not rise. -/
theorem of_flag_not_risen {x y : Bool} {P : Prop} (h : y = true → x = true) (h0 : x = false) (h1 : y = true) : P :=
  absurd (h0.symm.trans (h h1)) Bool.false_ne_true

theorem of_flag_low {x y : Bool} {P : Prop} (h : y = false) : x = false → y = true → P :=
  of_flag_not_risen fun h1 => absurd (h.symm.trans h1) Bool.false_ne_true

theorem of_flag_kept {x y : Bool} {P : Prop} (h : y = x) : x = false → y = true → P := of_flag_not_risen h.symm.trans

/-- Settles O58: of the steps that may set a flag at all, each sets only its own. -/
theorem flagsAreSetOnlyByTheirRules : Obligations.FlagsAreSetOnlyByTheirRules := by
  intro s t h
  rcases step_flags h with hq | ⟨hm, hb, hr, htb, hte, htp⟩ | ⟨hm, hu, htb, htd, htp⟩ | ⟨hm, a, d, rest, hin, hcase⟩
  · exact ⟨of_flag_not_risen hq.done, of_flag_not_risen hq.err, of_flag_not_risen hq.busy, of_flag_not_risen hq.drop⟩
  · exact ⟨fun _ _ => ⟨hm, hb, hr, htb⟩, of_flag_kept hte, of_flag_low htb, of_flag_kept htp⟩
  · exact ⟨of_flag_kept htd, fun _ _ => .inl ⟨hm, hu, htb⟩, of_flag_low htb, of_flag_kept htp⟩
  rcases hcase with ⟨hd, htb, htd, hte⟩ | ⟨ha, he, htc, htd, htp, ⟨hl, hte⟩ | ⟨hl, htb, htcode⟩⟩
  · exact ⟨of_flag_kept htd, of_flag_kept hte, of_flag_kept htb, fun _ _ => ⟨hm, a, d, rest, hin, hd⟩⟩
  · exact ⟨of_flag_low htd, of_flag_kept hte, fun _ _ => ⟨hm, he, a, d, rest, hin, ha, hl, htc⟩, of_flag_kept htp⟩
  · exact ⟨of_flag_low htd, fun _ _ => .inr ⟨hm, htcode, a, d, rest, hin, ha, hl, htc⟩, of_flag_kept htb,
      of_flag_kept htp⟩

/-! ### A running command and the host (R47, R62, R76) -/

/-- While a command runs, a host write that is no soft reset changes IRQ_EN and the flags DONE, ERR and DROP with
ERRCODE at most (R62). -/
theorem hostWrite_while_busy {s : State} (hb : s.busy = true) (hr : s.inReset = false) {a : Addr} {d : Word}
    (hsrst : ¬(target a = .ctrl ∧ d.getLsbD 1 = true)) :
    ∃ q dn er dr c, s.hostWrite a d = { s with irqEn := q, done := dn, err := er, drop := dr, errCode := c } := by
  rcases s.hostWrite_cases a d with ⟨-, he⟩ | ⟨-, -, he⟩ | ⟨-, hfree, he⟩
  · exact ⟨_, _, _, _, _, he⟩
  · exact ⟨_, _, _, _, _, he⟩
  have ho : (target a).isOwned = false := hfree.resolve_left (by simp [hb])
  rw [he]
  generalize target a = t at ho hsrst
  cases t
  case ctrl =>
    rw [State.writeTarget, State.writeCtrl_irqEn (by simpa using hsrst)]
    exact ⟨_, _, _, _, _, rfl⟩
  case status => exact ⟨_, _, _, _, _, s.writeStatus_eq d⟩
  case cmd => exact ⟨_, _, _, _, _, State.writeCmd_dropped hr (.inl hb) d⟩
  case id | caps | lastCmd | remain | symCount | errInfo | reserved => exact ⟨_, _, _, _, _, rfl⟩
  all_goals cases ho

/-- While a command runs, an access of the host that is no soft reset changes no more than that and the model's own
`inputs`, `replies` and `idleSeen` (R62, R69). -/
theorem perform_while_busy {s : State} {x : Input} (hb : s.busy = true) (hr : s.inReset = false)
    (hx : x = .wait ∨ (∃ a, x = .read a) ∨ ∃ a d, x = .write a d ∧ ¬(target a = .ctrl ∧ d.getLsbD 1 = true)) :
    ∃ q dn er dr c xs rs i, s.perform x =
      { s with irqEn := q, done := dn, err := er, drop := dr, errCode := c, inputs := xs, replies := rs,
               idleSeen := i } := by
  rcases hx with rfl | ⟨a, rfl⟩ | ⟨a, d, rfl, hsrst⟩
  · unfold State.perform
    split_ifs <;> exact ⟨_, _, _, _, _, _, _, _, rfl⟩
  · exact ⟨_, _, _, _, _, _, _, _, rfl⟩
  · obtain ⟨q, dn, er, dr, c, he⟩ := hostWrite_while_busy (s := s.noteWrite a) hb hr hsrst
    exact ⟨_, _, _, _, _, _, _, _, he⟩

/-- Settles O17: none of the fields a host access may change is one the command uses. -/
theorem hostCannotDisturbARunningCommand : Obligations.HostCannotDisturbARunningCommand := by
  intro s x hb hr hx
  obtain ⟨q, dn, er, dr, c, xs, rs, i, he⟩ := perform_while_busy hb hr hx
  rw [he]
  exact ⟨fun sp => by cases sp <;> rfl, hb, rfl, rfl, rfl, rfl, rfl, rfl, rfl, rfl, rfl, rfl, rfl, rfl, rfl, rfl⟩

/-! ### Window words and the bytes they are made of (R41, R44 to R46) -/

/-- The window word that byte `x` of a memory space is part of. -/
def windowWord : Space → Nat → Target
  | .ctLen, x => .ctLen x
  | .ctCode, x => .ctCode (x / 32) (x % 32 / 4)
  | .arena, x => .arena (x / 4)
  | .inBuf, x => .inWord (x / 4)
  | .outBuf, x => .outWord (x / 4)

theorem windowWord_ctCode {sym j x : Nat} (hj : j < 8) (h1 : 32 * sym + 4 * j ≤ x) (h2 : x < 32 * sym + 4 * j + 4) :
    windowWord .ctCode x = .ctCode sym j := by
  have hsym : x / 32 = sym := by omega
  have hword : x % 32 / 4 = j := by omega
  rw [windowWord, hsym, hword]

theorem windowWord_arena {i x : Nat} (h1 : 4 * i ≤ x) (h2 : x < 4 * i + 4) : windowWord .arena x = .arena i :=
  congrArg Target.arena (by omega)

theorem windowWord_inWord {m x : Nat} (h1 : 4 * m ≤ x) (h2 : x < 4 * m + 4) : windowWord .inBuf x = .inWord m :=
  congrArg Target.inWord (by omega)

theorem windowWord_outWord {m x : Nat} (h1 : 4 * m ≤ x) (h2 : x < 4 * m + 4) : windowWord .outBuf x = .outWord m :=
  congrArg Target.outWord (by omega)

/-- A write of the four bytes of one window word changes no byte of another. -/
theorem State.byte_setWord_of_windowWord_ne {s : State} {sp q : Space} {a x : Nat} {t : Target}
    (ht : ∀ y, a ≤ y → y < a + 4 → windowWord sp y = t) (hx : windowWord q x ≠ t) (d : Word) :
    (s.setWord sp a d).byte q x = s.byte q x := by
  refine State.byte_setWord_ne s sp q a x d ?_
  by_contra hin
  simp only [not_or, not_not, not_lt, not_le] at hin
  obtain ⟨rfl, h1, h2⟩ := hin
  exact hx (ht x h1 h2)

/-- A window write changes no byte of another window word (R41, R61). -/
theorem State.byte_writeTarget_ne {s : State} {t : Target} (ht : t.InRange) (hw : t.isWindow = true) {q : Space}
    {x : Nat} (hx : windowWord q x ≠ t) (d : Word) : (s.writeTarget t d).byte q x = s.byte q x := by
  cases t
  case ctLen sym =>
    refine (State.byte_setByte s .ctLen q sym x _).trans (if_neg ?_)
    rintro ⟨rfl, rfl⟩
    exact hx rfl
  case ctCode sym j => exact State.byte_setWord_of_windowWord_ne (fun y => windowWord_ctCode ht.2) hx d
  case inWord m => exact State.byte_setWord_of_windowWord_ne (fun y => windowWord_inWord) hx d
  case outWord m => exact State.byte_setWord_of_windowWord_ne (fun y => windowWord_outWord) hx d
  case arena i =>
    rw [State.writeTarget]
    split_ifs
    · exact State.byte_setWord_of_windowWord_ne (fun y => windowWord_arena) hx d
    · rfl
  case ctPad | arenaPad => rfl
  all_goals cases hw

/-- A word reads alike where its four bytes do. -/
theorem State.word_congr_of_windowWord {s t : State} {sp : Space} {a : Nat} {u : Target}
    (hu : ∀ y, a ≤ y → y < a + 4 → windowWord sp y = u) (h : ∀ q x, windowWord q x = u → t.byte q x = s.byte q x) :
    t.word sp a = s.word sp a :=
  State.word_congr fun j hj => h sp (a + j) (hu (a + j) (by omega) (by omega))

/-- A target reads as before when one memory space is replaced and the target's own bytes are as before. -/
theorem State.readTarget_withSpace {s : State} {sp : Space} {m : Memory} {u : Target} (hu : u.InRange)
    (h : ∀ q x, windowWord q x = u → (s.withSpace sp m).byte q x = s.byte q x) :
    (s.withSpace sp m).readTarget u = s.readTarget u := by
  cases u
  case ctLen sym => exact congrArg (BitVec.setWidth 32) (h .ctLen sym rfl)
  case ctCode sym j => exact State.word_congr_of_windowWord (fun y => windowWord_ctCode hu.2) h
  case inWord i => exact State.word_congr_of_windowWord (fun y => windowWord_inWord) h
  case outWord i => exact State.word_congr_of_windowWord (fun y => windowWord_outWord) h
  case arena i =>
    have hnode : (s.withSpace sp m).node i = s.node i := State.word_congr_of_windowWord (fun y => windowWord_arena) h
    rw [State.readTarget, State.readTarget, hnode, State.withSpace_hasTree]
  all_goals cases sp <;> rfl

/-- Settles O15: a window write replaces one space in which the bytes of every other word are kept. -/
theorem windowWritesAreLocal : Obligations.WindowWritesAreLocal := by
  intro s a b d hr hb hw hne
  obtain ⟨sp, m, hm, -⟩ := State.writeTarget_window hw s d
  have hbytes : ∀ q x, windowWord q x = target b → (s.withSpace sp m).byte q x = s.byte q x := by
    intro q x hx
    rw [← hm]
    exact State.byte_writeTarget_ne (target_inRange a) hw (by rw [hx]; exact hne) d
  rw [State.hostWrite_idle hr hb rfl, hm, State.hostRead_idle hr hb rfl,
    State.hostRead_idle (s := s.withSpace sp m) (by simpa using hr) (by simpa using hb) rfl]
  exact State.readTarget_withSpace (target_inRange b) hbytes

/-! ### Window words read back (R41, R44 to R46, R67) -/

/-- Byte `j` of a word is its bits [8j+7:8j] (R45, R46). -/
theorem ofNat_div_eq_extractLsb' (d : Word) (j : Nat) :
    BitVec.ofNat 8 (d.toNat / 256 ^ j) = d.extractLsb' (8 * j) 8 := by
  apply BitVec.eq_of_toNat_eq
  rw [BitVec.toNat_ofNat, BitVec.extractLsb'_toNat, Nat.shiftRight_eq_div_pow, Nat.pow_mul]

/-- A byte after the write of its word, where all eight bits exist. -/
theorem State.byte_setWord_full (s : State) {sp : Space} {a j : Nat} (d : Word) (hj : j < 4)
    (hm : sp.mask (a + j) = 0xFF#8) : (s.setWord sp a d).byte sp (a + j) = d.extractLsb' (8 * j) 8 := by
  rw [State.byte_setWord _ _ _ _ _ hj, hm, ofNat_div_eq_extractLsb']
  exact BitVec.and_allOnes

/-- Every bit of a CODE byte exists, but the top bit of the 32nd (R41). -/
theorem getLsbD_mask_ctCode (a k : Nat) (hk : k < 8) :
    (Space.mask .ctCode a).getLsbD k = (decide (a % 32 ≠ 31) || decide (k < 7)) := by
  have hfull : (0xFF#8 : BitVec 8).getLsbD k = decide (k < 8) := Nat.testBit_two_pow_sub_one 8 k
  have hlast : (0x7F#8 : BitVec 8).getLsbD k = decide (k < 7) := Nat.testBit_two_pow_sub_one 7 k
  simp only [Space.mask]
  split_ifs with h
  · simp [h, hlast]
  · simp [h, hfull, hk]

theorem getLsbD_lastWordMask (i : Nat) : (0x7FFFFFFF#32 : Word).getLsbD i = decide (i < 31) :=
  Nat.testBit_two_pow_sub_one 31 i

theorem extractLsb'_and_lastWordMask (d : Word) : (d &&& 0x7FFFFFFF#32).extractLsb' 0 31 = d.extractLsb' 0 31 := by
  apply BitVec.eq_of_getLsbD_eq
  intro i hi
  simp [getLsbD_lastWordMask, hi]

/-- Word 7 of a CODE after its write: bit 31, the 256th bit of the CODE, is not stored (R41). -/
theorem State.word_setWord_code_last (s : State) (sym : Nat) (d : Word) :
    (s.setWord .ctCode (32 * sym + 28) d).word .ctCode (32 * sym + 28) = d &&& 0x7FFFFFFF#32 := by
  apply BitVec.eq_of_getLsbD_eq
  intro i hi
  rw [State.getLsbD_word _ _ _ _ hi, State.byte_setWord _ _ _ _ _ (by omega), ofNat_div_eq_extractLsb',
    BitVec.getLsbD_and, BitVec.getLsbD_and, getLsbD_lastWordMask, getLsbD_mask_ctCode _ _ (by omega),
    BitVec.getLsbD_extractLsb', show 8 * (i / 8) + i % 8 = i by omega,
    decide_eq_true (show i % 8 < 8 by omega), Bool.true_and]
  congr 1
  rw [← Bool.decide_or, decide_eq_decide]
  omega

/-- Settles O14: each window word is the bytes its write set, and no register or padding word is one. -/
theorem windowWordsReadBack : Obligations.WindowWordsReadBack := by
  intro s a d hr hb
  have hwrite {t : Target} (ha : target a = t) : s.hostWrite a d = s.writeTarget t d := State.hostWrite_idle hr hb ha d
  have hread {t : Target} (ha : target a = t) (ho : t.isOwned = true) :
      (s.hostWrite a d).hostRead a = (s.writeTarget t d).readTarget t := State.hostRead_hostWrite hr hb ha ho d
  refine ⟨?_, fun m j ha hj => ?_, fun m j ha hj => ?_, fun i ha ht => ?_, fun i ha ht => ?_, fun sym ha => ?_,
    fun sym j ha hj => ?_, fun sym ha => ?_, ?_⟩
  · rintro m (ha | ha)
    · exact (hread ha rfl).trans (State.word_setWord s .inBuf (4 * m) d fun _ _ => rfl)
    · exact (hread ha rfl).trans (State.word_setWord s .outBuf (4 * m) d fun _ _ => rfl)
  · rw [hwrite ha]
    exact s.byte_setWord_full d hj rfl
  · rw [hwrite ha]
    exact s.byte_setWord_full d hj rfl
  · have hset : s.writeTarget (.arena i) d = s.setWord .arena (4 * i) d := if_pos ht
    have hnode : (s.setWord .arena (4 * i) d).node i = d := State.word_setWord s .arena (4 * i) d fun _ _ => rfl
    rw [hread ha rfl, hwrite ha, hset, State.readTarget, State.setWord_hasTree, if_pos ht]
    exact ⟨hnode, hnode⟩
  · rw [hwrite ha, State.hostRead_idle hr hb ha, State.writeTarget, State.readTarget, ht]
    exact ⟨rfl, rfl⟩
  · rw [hread ha rfl, hwrite ha, State.writeTarget, State.readTarget, State.len_setLen, if_pos rfl,
      extractLsb'_zero_eq_setWidth d 8 (by decide)]
    exact ⟨setWidth_setWidth_eq_and d 8 (by decide), rfl⟩
  · have hword : (s.setWord .ctCode (32 * sym + 4 * j) d).word .ctCode (32 * sym + 4 * j) = d :=
      State.word_setWord s .ctCode _ d fun k hk => if_neg (by omega)
    rw [hread ha rfl, hwrite ha, State.writeTarget, State.extractLsb'_code _ _ _ hj]
    exact ⟨hword, hword⟩
  · have hword := s.word_setWord_code_last sym d
    rw [hread ha rfl, hwrite ha, State.writeTarget, State.extractLsb'_code_last, State.readTarget]
    exact ⟨hword, by rw [hword, extractLsb'_and_lastWordMask]⟩
  · rintro (ha | ha)
    · exact ⟨hwrite ha, State.hostRead_idle hr hb ha⟩
    · exact ⟨hwrite ha, State.hostRead_idle hr hb ha⟩

end Sys2Proof.Machine

/-!
The local memories and the engine steps (spec 20_memory.md R60 to R69): what a running command owns, the bit-stream
primitives Fetch and Emit, how a unit and a command end, and what the outside's turn does.
-/

namespace Sys2Proof.Machine

/-! ### What a running command owns (R62) -/

theorem registerAt_isWindow (off : Nat) : (registerAt off).isWindow = false := by
  have hregisters : ∀ t ∈ [Target.id, .caps, .ctrl, .status, .cmd, .lastCmd, .remain, .symCount, .errInfo, .inPtr,
      .inLimit, .outPtr, .acc, .bitCount, .root, .reserved], t.isWindow = false := by decide
  exact hregisters _ (registerAt_cases off)

theorem ctEntryAt_isWindow (sym q : Nat) : (ctEntryAt sym q).isWindow = true := by
  unfold ctEntryAt
  split_ifs <;> rfl

theorem target_arenaPad {a : Addr} (h1 : 0x57FC ≤ a.toNat) (h2 : a.toNat < 0x5800) : target a = .arenaPad := by
  unfold target
  dsimp only
  rw [if_neg (by omega), if_neg (by omega), if_neg (by omega), if_pos (by omega)]

/-- The addresses below the windows and in the gap between them name no window word (R23). -/
theorem target_isWindow_false {a : Addr} (h : a.toNat < 0x1000 ∨ 0x5800 ≤ a.toNat ∧ a.toNat < 0x8000) :
    (target a).isWindow = false := by
  rcases h with h | ⟨h1, h2⟩
  · rw [target_register h]
    exact registerAt_isWindow _
  · rw [target_gap h1 h2]
    rfl

/-- The window addresses (R23). -/
theorem target_isWindow_true {a : Addr} (h : 0x1000 ≤ a.toNat ∧ a.toNat < 0x5800 ∨ 0x8000 ≤ a.toNat) :
    (target a).isWindow = true := by
  rcases h with ⟨h1, h2⟩ | h1
  · by_cases hct : a.toNat < 0x5000
    · rw [target_ctEntry h1 hct]
      exact ctEntryAt_isWindow _ _
    by_cases harena : a.toNat < 0x57FC
    · rw [target_arena (by omega) harena]
      rfl
    · rw [target_arenaPad (by omega) h2]
      rfl
  · by_cases hin : a.toNat < 0xC000
    · rw [target_inWord h1 hin]
      rfl
    · rw [target_outWord (by omega)]
      rfl

/-- A write to an engine-owned resource of a running command is dropped (R62). -/
theorem State.hostWrite_dropped {s : State} {a : Addr} (hr : s.inReset = false) (hb : s.busy = true)
    (ha : (target a).isOwned = true) (d : Word) : s.hostWrite a d = { s with drop := true } := by
  simp [State.hostWrite, hr, hb, ha]

/-- While a command runs a window reads as 0 (R62). -/
theorem State.hostRead_window_busy {s : State} {a : Addr} (hr : s.inReset = false) (hb : s.busy = true)
    (ha : (target a).isWindow = true) : s.hostRead a = 0#32 := by
  simp [State.hostRead, hr, hb, ha]

/-- Settles O13: the address ranges are the owned and the window targets, and a register reads as its word. -/
theorem engineOwnedResourcesWhileBusy : Obligations.EngineOwnedResourcesWhileBusy := by
  intro s a d hr
  refine ⟨fun hb => ⟨fun ha => ?_, fun ha => ?_, fun ha => ?_, fun ha => ?_, fun ha => ?_, fun ha => ?_, fun ha => ?_,
    fun ha => ?_, fun ha => ?_⟩, fun hb => ⟨State.hostWrite_idle hr hb rfl d, State.hostRead_idle hr hb rfl⟩⟩
  · exact State.hostWrite_dropped hr hb ((isOwned_target a).2 ha) d
  · exact State.hostRead_window_busy hr hb (target_isWindow_true ha)
  · exact State.hostRead_register hr rfl (target_isWindow_false ha)
  · exact (State.hostRead_register hr ha rfl).trans (setWidth_eq_ofNat_toNat _)
  · exact (State.hostRead_register hr ha rfl).trans (setWidth_eq_ofNat_toNat _)
  · exact (State.hostRead_register hr ha rfl).trans (setWidth_eq_ofNat_toNat _)
  · exact (State.hostRead_register hr ha rfl).trans s.accWord_eq
  · exact State.hostRead_register hr ha rfl
  · rw [State.hostRead_register hr ha rfl, State.readTarget, setWidth_eq_ofNat_toNat]

/-! ### Fetch and Emit (R63 to R65) -/

/-- Settles O36: below the limit Fetch gives its bits, else it is exhausted. -/
theorem fetchReadsTheInputBits : Obligations.FetchReadsTheInputBits := by
  intro s p k _
  refine ⟨fun h => State.fetch_eq_error h, fun h => ⟨_, State.fetch_eq_ok h, by simp, fun j hj => ?_⟩⟩
  rw [List.getElem_map, List.getElem_range, State.inBit]

/-- Emit of no bits changes nothing, where ACC is 0 below its pending bits (R36, R65). -/
theorem State.emitBits_nil {s : State} (h : s.accBits &&& accMask s.accN = s.accBits) : s.emitBits [] = .ok s := by
  have hn := s.accN.isLt
  have hdiv : s.accN.toNat / 8 = 0 := by omega
  have hmod : s.accN.toNat % 8 = s.accN.toNat := by omega
  have hacc : BitVec.ofNat 8 (val (s.pendingBits ++ List.replicate (8 - s.accN.toNat) false)) = s.accBits := by
    rw [← State.bitsOf_accBits h, val_bitsOf, Nat.mod_eq_of_lt s.accBits.isLt, BitVec.ofNat_toNat, BitVec.setWidth_eq]
  simp [State.emitBits, hdiv, hmod, hacc, packBytes, State.setBytes, State.setOutput]

/-- An Emit that succeeds writes the output side alone (R65). -/
theorem State.emitBits_frame {s t : State} {w : Bits} (h : s.emitBits w = .ok t) :
    KeepsOutside s t ∧ KeepsTable s t ∧ t.inPtr = s.inPtr := by
  obtain ⟨m, p, n, b, c, rfl⟩ := State.emitBits_fields h
  exact ⟨⟨rfl, rfl, rfl, rfl, rfl, rfl, rfl, rfl, rfl, rfl, rfl, rfl, rfl, rfl, rfl⟩, ⟨rfl, rfl⟩, rfl⟩

/-- Settles O37: Emit is the append of `bitsOf(k, v)`, which is empty at `k = 0`. -/
theorem emitAppendsToTheOutputStream : Obligations.EmitAppendsToTheOutputStream := by
  intro s k v
  have hlen : (bitsOf k v).length = k := length_bitsOf k v
  refine ⟨fun hroom => ?_, fun hroom => ?_, fun hk hacc => ?_⟩
  · obtain ⟨t, ht⟩ := State.emitBits_of_room (w := bitsOf k v) (by rwa [hlen])
    exact ⟨t, ht, (State.emitBits_ok ht).2.1, State.emitBits_frame ht⟩
  · rw [State.emit, State.emitBits_of_not_room (by rwa [hlen]), hlen]
  · subst hk
    exact State.emitBits_nil hacc

/-! ### The errors of a unit (R66, R169) -/

theorem State.fetch_error_code {s : State} {p k : Nat} {e : UnitErr} (h : s.fetch p k = .error e) :
    e.code = .inExhausted := by
  unfold State.fetch at h
  split_ifs at h
  cases h
  rfl

theorem State.emitBits_error_code {s : State} {w : Bits} {e : UnitErr} (h : s.emitBits w = .error e) :
    e.code = .outOverflow := by
  rcases s.emitBits_cases w with ⟨-, -, he⟩ | ⟨-, t, ht⟩
  · rw [he] at h
    cases h
    rfl
  · rw [ht] at h
    cases h

theorem State.emitSymbol_error_code {s : State} {sym : Nat} {e : UnitErr} (h : s.emitSymbol sym = .error e) :
    e.code = .unknownSymbol ∨ e.code = .outOverflow := by
  unfold State.emitSymbol at h
  split_ifs at h
  · cases h
    exact .inl rfl
  · exact .inr (State.emitBits_error_code h)

theorem packbufUnit_error_code {s : State} {e : UnitErr} (h : packbufUnit s = .error e) :
    e.code = .unknownSymbol ∨ e.code = .outOverflow ∨ e.code = .inExhausted := by
  unfold packbufUnit at h
  split at h
  case h_1 hf =>
    cases h
    exact .inr (.inr (State.fetch_error_code hf))
  case h_2 w hf =>
    split at h
    case h_1 hs =>
      cases h
      exact (State.emitSymbol_error_code hs).imp_right .inl
    case h_2 => cases h

theorem flushUnit_error_code {s : State} {e : UnitErr} (h : flushUnit s = .error e) : e.code = .outOverflow := by
  unfold flushUnit at h
  split_ifs at h
  cases h
  rfl

theorem scanCT_error_code {s : State} {p fuel k : Nat} {e : UnitErr} (h : scanCT s p fuel k = .error e) :
    e.code = .inExhausted ∨ e.code = .malformed := by
  induction fuel generalizing k with
  | zero =>
    cases h
    exact .inr rfl
  | succ fuel ih =>
    unfold scanCT at h
    split at h
    case h_1 hf =>
      cases h
      exact .inl (State.fetch_error_code hf)
    case h_2 w hf =>
      split at h
      case h_1 => cases h
      case h_2 =>
        split_ifs at h
        · exact ih h
        · cases h
          exact .inr rfl

theorem treeLeaf_error_code {s : State} {p d : Nat} {w : Word} {e : UnitErr} (h : treeLeaf s p d w = .error e) :
    e.code = .inExhausted ∨ e.code = .malformed := by
  unfold treeLeaf at h
  split_ifs at h
  split at h
  case h_1 hf =>
    cases h
    exact .inl (State.fetch_error_code hf)
  case h_2 b hf =>
    split_ifs at h
    cases h
    exact .inr rfl

/-- A round of the walk rejects the node, ends at a leaf, runs out of bits, or goes one node down (R142). -/
theorem walkTree_cases (s : State) (p fuel i d : Nat) :
    (∃ subcode, walkTree s p fuel i d = .error (badTree subcode i)) ∨
    walkTree s p fuel i d = treeLeaf s p d (s.node i) ∨
    walkTree s p fuel i d = .error ⟨.inExhausted, BitVec.ofNat 32 (d + 1)⟩ ∨
    ∃ n j, fuel = n + 1 ∧ walkTree s p fuel i d = walkTree s p n j (d + 1) := by
  by_cases hi : Config.arenaNodes ≤ i
  · exact .inl ⟨1, walkTree_outside hi⟩
  have hi : i < Config.arenaNodes := Nat.not_le.1 hi
  cases hl : nodeIsLeaf (s.node i) with
  | true =>
    cases hc : leafClear (s.node i) with
    | false => exact .inl ⟨4, walkTree_leaf_reserved hi hl hc⟩
    | true => exact .inr (.inl (walkTree_leaf hi hl hc))
  | false =>
    cases hc : internalClear (s.node i) with
    | false => exact .inl ⟨4, walkTree_internal_reserved hi hl hc⟩
    | true =>
      cases fuel with
      | zero => exact .inl ⟨2, walkTree_deep hi hl hc⟩
      | succ n =>
        rcases Nat.lt_or_ge (p + d) (8 * s.effLimit) with hb | hb
        · exact .inr (.inr (.inr ⟨n, _, rfl, walkTree_down hi hl hc hb⟩))
        · exact .inr (.inr (.inl (walkTree_exhausted hi hl hc hb)))

/-- A walk fails for want of bits, for the bit no leaf has, or at a bad node (R142). -/
theorem walkTree_error_code {s : State} {p fuel i d : Nat} {e : UnitErr} (h : walkTree s p fuel i d = .error e) :
    e.code = .inExhausted ∨ e.code = .malformed ∨ e.code = .badTree := by
  induction fuel using Nat.strong_induction_on generalizing i d with
  | _ fuel ih =>
    rcases walkTree_cases s p fuel i d with ⟨c, he⟩ | he | he | ⟨n, j, hn, he⟩ <;> rw [he] at h
    · cases h
      exact .inr (.inr rfl)
    · exact (treeLeaf_error_code h).imp_right .inl
    · cases h
      exact .inl rfl
    · exact ih n (by omega) h

theorem emitDecoded_error_code {s : State} {r : Except UnitErr (Nat × Nat)} {e : UnitErr}
    (h : emitDecoded s r = .error e) : r = .error e ∨ e.code = .outOverflow := by
  unfold emitDecoded at h
  split at h
  case h_1 hr =>
    cases h
    exact .inl rfl
  case h_2 sym k =>
    split at h
    case h_1 he =>
      cases h
      exact .inr (State.emitBits_error_code he)
    case h_2 => cases h

/-- The errors the unit of each command can raise (R169). -/
def unitErrors : Instr → List ErrCode
  | .nop | .clrct | .alignin => []
  | .putbits _ _ | .flush => [.outOverflow]
  | .putsym _ => [.unknownSymbol, .outOverflow]
  | .packbuf _ => [.unknownSymbol, .outOverflow, .inExhausted]
  | .unpack _ => [.outOverflow, .inExhausted, .malformed]
  | .assign => [.badTree]
  | .unpackt _ => [.outOverflow, .inExhausted, .malformed, .badTree]

/-- A unit that fails raises one of the errors of its command (R169). -/
theorem unitOf_error_code {i : Instr} {s : State} {e : UnitErr} (h : unitOf i s = .error e) :
    e.code ∈ unitErrors i := by
  cases i
  case nop | clrct | alignin => cases h
  case putbits n v => exact List.mem_singleton.2 (State.emitBits_error_code h)
  case putsym sym => simpa [unitErrors] using State.emitSymbol_error_code h
  case packbuf count => simpa [unitErrors] using packbufUnit_error_code h
  case flush => exact List.mem_singleton.2 (flushUnit_error_code h)
  case unpack count =>
    rcases emitDecoded_error_code h with hd | ho
    · have hscan : e.code = .inExhausted ∨ e.code = .malformed := scanCT_error_code hd
      rcases hscan with hc | hc <;> simp [unitErrors, hc]
    · simp [unitErrors, ho]
  case assign =>
    obtain ⟨subcode, j, -, rfl⟩ := assignUnit_error_iff.1 h
    exact List.mem_singleton.2 rfl
  case unpackt count =>
    rcases emitDecoded_error_code h with hd | ho
    · have hwalk : e.code = .inExhausted ∨ e.code = .malformed ∨ e.code = .badTree := walkTree_error_code hd
      rcases hwalk with hc | hc | hc <;> simp [unitErrors, hc]
    · simp [unitErrors, ho]

/-! ### How the engine steps of a command end (R66) -/

/-- The commit of a unit moves the two counters and no flag (R66). -/
theorem committed_of_unitOf {i : Instr} {s t : State} (h : unitOf i s = .ok t) : Committed s t.commit := by
  obtain ⟨m, p, n, b, c, q, l, k, rfl⟩ := unitOf_fields h
  exact ⟨rfl, rfl, rfl, rfl, rfl, rfl, rfl⟩

/-- Settles O31: the unit succeeds and commits, or it fails and its error alone is taken. -/
theorem unitsCommitOrFailWhole : Obligations.UnitsCommitOrFailWhole := by
  intro i s hs
  cases hu : unitOf i s with
  | ok t => exact .inl ⟨t.commit, exec_ok hs hu, committed_of_unitOf hu⟩
  | error e =>
    have hcode : e.code.toBits ∈ (unitErrors i).map ErrCode.toBits := List.mem_map_of_mem (unitOf_error_code hu)
    exact .inr ⟨e.code.toBits, e.info, exec_error hs hu, by cases i <;> exact hcode⟩

/-- Settles O30: the completion step is the one update `State.complete`. -/
theorem completionStepSetsDone : Obligations.CompletionStepSetsDone :=
  fun _ _ hb hr => exec_complete hb hr

/-! ### The outside's turn (R60, R69, R93, R190) -/

/-- With its turn laid down, or with none and BUSY = 0, the host moves (assumption 5). -/
theorem step_host {s : State} {ts : List Agent}
    (h : s.turns = .host :: ts ∨ (s.turns = [] ∧ ts = [] ∧ s.busy = false)) :
    step s = hostTurn { s with turns := ts } := by
  rcases h with h | ⟨h, rfl, hb⟩
  · exact step_of_turns_cons h
  · rw [step_of_turns_nil h, mover_default_host h hb, ← h]
    rfl

/-- The host's step performs its first input. -/
theorem step_host_input {s : State} {ts : List Agent} {x : Input} {rest : List Input}
    (h : s.turns = .host :: ts ∨ (s.turns = [] ∧ ts = [] ∧ s.busy = false)) (hin : s.inputs = x :: rest) :
    step s = .next (State.perform { s with inputs := rest, turns := ts } x) :=
  (step_host h).trans (hostTurn_cons hin)

theorem State.registersReset_resetRegisters (s : State) : s.resetRegisters.RegistersReset :=
  ⟨rfl, ⟨rfl, rfl, rfl, rfl, rfl⟩, ⟨rfl, rfl, rfl, rfl⟩, ⟨rfl, rfl, rfl, rfl, rfl, rfl⟩, ⟨rfl, rfl⟩, fun _ => rfl⟩

/-- Asserting the reset input resets every register (R190). -/
theorem State.registersReset_assertReset (s : State) : s.assertReset.RegistersReset :=
  { s.registersReset_resetRegisters with lens := fun _ => rfl }

/-- Asserting the reset input leaves CODE, ARENA, IN and OUT to the draws of the next epoch (R72, R190). -/
theorem State.byte_assertReset (s : State) {sp : Space} (h : sp ≠ .ctLen) (b : Nat) :
    s.assertReset.byte sp b = sp.fresh (s.epoch + 1) b := by
  cases sp
  case ctLen => exact absurd rfl h
  all_goals rfl

/-- A poll of a `wait` reads STATUS and stays the next input while BUSY reads 1 (R93). -/
theorem State.perform_wait {s : State} (hr : s.inReset = false) :
    s.perform .wait =
      { s with
        inputs := if s.busy then .wait :: s.inputs else s.inputs
        replies := s.statusWord :: s.replies
        idleSeen := !s.busy } := by
  have hread : s.hostRead statusAddr = s.statusWord := State.hostRead_register hr target_statusAddr rfl
  have hpoll : s.performRead statusAddr = { s with replies := s.statusWord :: s.replies, idleSeen := !s.busy } := by
    rw [State.performRead, hread, if_pos target_statusAddr, State.statusWord_busy]
  rw [State.perform, hread, State.statusWord_busy, hpoll]
  cases s.busy <;> rfl

/-- A poll of a `wait` while the reset input is asserted reads 0, so the `wait` is over (R190). -/
theorem State.perform_wait_inReset {s : State} (hr : s.inReset = true) :
    s.perform .wait = { s with replies := 0#32 :: s.replies, idleSeen := true } := by
  have hread : s.hostRead statusAddr = 0#32 := if_pos hr
  have hpoll : s.performRead statusAddr = { s with replies := 0#32 :: s.replies, idleSeen := true } := by
    rw [State.performRead, hread, if_pos target_statusAddr]
    rfl
  rw [State.perform, hread, hpoll]
  rfl

/-- Settles O27: the step is the host's turn, and each input is performed as its rule says. -/
theorem stepPerformsTheHostAccess : Obligations.StepPerformsTheHostAccess := by
  intro s rest ts h
  refine ⟨fun hin => ?_, fun a hin => step_host_input h hin, fun a d hin => step_host_input h hin, fun hin hr => ?_,
    fun hin hr => ?_, fun hin => ?_, fun hin => step_host_input h hin⟩
  · rw [step_host h]
    simp only [hostTurn, hin]
  · exact (step_host_input h hin).trans (congrArg _ (State.perform_wait hr))
  · exact (step_host_input h hin).trans (congrArg _ (State.perform_wait_inReset hr))
  · exact ⟨_, step_host_input h hin, rfl, State.registersReset_assertReset _, fun sp b hsp => State.byte_assertReset _ hsp b,
      rfl, rfl, rfl, rfl, rfl, rfl, rfl⟩

/-! ### Every command ends (R66, R199) -/

/-- While a command runs no reset can come: the outside has no turn before the command ends, or no input of it
resets. -/
def State.ResetFree (s : State) : Prop := s.turns = [] ∨ ∀ x ∈ s.inputs, ¬x.resets

/-- One turn later the command of `s` still runs in `t`, with a unit less if the turn was the engine's, and no reset
can come. -/
structure RunsOn (s t : State) : Prop where
  busy : t.busy = true
  resetFree : t.ResetFree
  turns : t.turns = s.turns.tail
  remain : t.remain.toNat + s.engineTurns 1 = s.remain.toNat

/-- The command has ended, with DONE or with ERR (R66). -/
def State.Ended (s : State) : Prop := s.busy = false ∧ (s.done = true ∨ s.err = true)

/-- While a command runs, an input that does not reset keeps it running, with its units left (R62). -/
theorem perform_keepsRunning {s : State} {x : Input} (hb : s.busy = true) (hr : s.inReset = false) (hx : ¬x.resets) :
    (s.perform x).busy = true ∧ (s.perform x).remain = s.remain ∧ (s.perform x).turns = s.turns ∧
      ∀ y ∈ (s.perform x).inputs, y ∈ x :: s.inputs := by
  have hold : ∀ y ∈ s.inputs, y ∈ x :: s.inputs := fun y => List.mem_cons_of_mem x
  cases x with
  | read a => exact ⟨hb, rfl, rfl, hold⟩
  | write a d =>
    obtain ⟨q, dn, er, dr, c, he⟩ := hostWrite_while_busy (s := s.noteWrite a) hb hr hx
    rw [State.perform, he]
    exact ⟨hb, rfl, rfl, hold⟩
  | wait =>
    rw [State.perform_wait hr, hb]
    exact ⟨rfl, rfl, rfl, fun y hy => hy⟩
  | resetAssert => exact absurd trivial hx
  | resetRelease => exact ⟨hb, rfl, rfl, hold⟩

/-- A step of the engine ends the command, or commits a unit and counts REMAIN down (R66). -/
theorem engineStep_progress {s : State} (hb : s.busy = true) (i : Instr) :
    (s.engineStep (unitOf i)).Ended ∨
    ((s.engineStep (unitOf i)).busy = true ∧ (s.engineStep (unitOf i)).inputs = s.inputs ∧
      (s.engineStep (unitOf i)).turns = s.turns ∧
      (s.engineStep (unitOf i)).remain.toNat + 1 = s.remain.toNat) := by
  rcases s.engineStep_cases (unitOf i) with ⟨-, he⟩ | ⟨hr, t, hu, he⟩ | ⟨-, e, -, he⟩ <;> rw [he]
  · exact .inl ⟨rfl, .inl rfl⟩
  · have hcount : (s.remain - 1#27).toNat + 1 = s.remain.toNat := by bv_omega
    obtain ⟨m, p, n, b, c, q, l, k, rfl⟩ := unitOf_fields hu
    exact .inr ⟨hb, rfl, rfl, hcount⟩
  · exact .inl ⟨rfl, .inr rfl⟩

/-- The engine's turns among the first `k + 1` are those of the first turn and of the `k` after it (assumption 5). -/
theorem State.engineTurns_succ {s t : State} (h : t.turns = s.turns.tail) (k : Nat) :
    s.engineTurns (k + 1) = s.engineTurns 1 + t.engineTurns k := by
  unfold State.engineTurns
  rw [h]
  cases s.turns with
  | nil => simp [Nat.add_comm]
  | cons a ts =>
    simp [List.count_cons]
    omega

/-- While a command runs the next turn counts as the engine's exactly if the engine moves (assumption 5). -/
theorem State.engineTurns_one {s : State} (hb : s.busy = true) :
    s.engineTurns 1 = if s.mover = .engine then 1 else 0 := by
  unfold State.engineTurns State.mover
  cases s.turns with
  | nil => simp [hb]
  | cons a ts => simp [List.count_singleton]

/-- While a command runs the host moves only in a turn laid down, and then its inputs are those that do not reset
(assumption 5). -/
theorem State.ResetFree.inputs_of_host {s : State} (hf : s.ResetFree) (hb : s.busy = true) (hm : s.mover = .host) :
    ∀ x ∈ s.inputs, ¬x.resets := by
  refine hf.resolve_left fun hnil => ?_
  rw [mover_default_engine hnil hb] at hm
  cases hm

/-- While a command runs and no reset can come, a step ends the command or leaves it running (R66, R199). -/
theorem step_running {s t : State} (h : s.Inv) (hb : s.busy = true) (hf : s.ResetFree) (hstep : step s = .next t) :
    t.Ended ∨ RunsOn s t := by
  have hone := State.engineTurns_one hb
  rcases step_cases hstep with ⟨-, hidle, -⟩ | ⟨hm, -, i, -, he⟩ | ⟨hm, -, rfl⟩ | ⟨hm, x, rest, hin, rfl⟩
  · rw [hb] at hidle
    cases hidle
  · rw [exec_eq, runCommand_eq, if_pos hb] at he
    injection he with he
    subst he
    rw [if_pos hm] at hone
    rcases engineStep_progress (s := { s with turns := s.turns.tail }) hb i with hend | ⟨hbusy, hinputs, hturns, hrem⟩
    · exact .inl hend
    · refine .inr ⟨hbusy, ?_, hturns, by rw [hone]; exact hrem⟩
      rcases hf with hf | hf
      · exact .inl (by rw [hturns, hf]; rfl)
      · exact .inr (by rw [hinputs]; exact hf)
  · refine .inr ⟨hb, .inr (hf.inputs_of_host hb hm), rfl, ?_⟩
    rw [hone, hm]
    rfl
  · have hinputs := hf.inputs_of_host hb hm
    rw [hin] at hinputs
    have hx : ¬x.resets := hinputs x List.mem_cons_self
    obtain ⟨hbusy, hrem, hturns, hkept⟩ := perform_keepsRunning
      (s := { s with inputs := rest, turns := s.turns.tail }) hb (h.released hb) hx
    refine .inr ⟨hbusy, .inr fun y hy => hinputs y (hkept y hy), hturns, ?_⟩
    rw [hone, hm, hrem]
    rfl

/-- Each turn uses up a turn laid down or a unit (assumption 5). -/
theorem RunsOn.measure_lt {s t : State} (h : RunsOn s t) (hb : s.busy = true) :
    t.turns.length + t.remain.toNat < s.turns.length + s.remain.toNat := by
  have hrem := h.remain
  rw [h.turns, List.length_tail]
  cases hturns : s.turns with
  | nil =>
    rw [State.engineTurns_one hb, mover_default_engine hturns hb, if_pos rfl] at hrem
    simp
    omega
  | cons a ts =>
    simp
    omega

theorem core_run_succ {s t : State} (h : step s = .next t) (k : Nat) :
    Host.Core.run core (k + 1) s = Host.Core.run core k t := by
  have hcore : core.step s = .next t := h
  simp only [Host.Core.run, hcore]

/-- By induction on the turns laid down and the units left: a running command ends, with at most one engine step more
than it has units left (R66, R199). -/
theorem State.Inv.command_ends {s : State} (h : s.Inv) (hb : s.busy = true) (hf : s.ResetFree) :
    ∃ k, s.engineTurns k ≤ s.remain.toNat + 1 ∧ ∃ t, Host.Core.run core k s = .next t ∧ t.Ended := by
  induction hn : s.turns.length + s.remain.toNat using Nat.strong_induction_on generalizing s with
  | _ n ih =>
    obtain ⟨t, ht, hinv⟩ := everyStepKeepsTheInvariant s h
    rcases step_running h hb hf ht with hend | hrun
    · have hone : s.engineTurns 1 ≤ 1 := by
        rw [State.engineTurns_one hb]
        split_ifs <;> omega
      exact ⟨1, by omega, t, core_run_succ ht 0, hend⟩
    · obtain ⟨k, hk, u, hu, hend⟩ := ih _ (hn ▸ hrun.measure_lt hb) hinv hrun.busy hrun.resetFree rfl
      have hrem := hrun.remain
      refine ⟨k + 1, ?_, u, (core_run_succ ht k).trans hu, hend⟩
      rw [State.engineTurns_succ hrun.turns]
      omega

/-- Settles O55: from a state that meets the invariant, each turn ends the command or brings its end nearer. -/
theorem everyCommandEnds : Obligations.EveryCommandEnds :=
  fun _ h hb hf => h.command_ends hb hf

end Sys2Proof.Machine

/-!
The encoding (spec 30_encoding.md): the decoder and the encoder are inverse to each other, which words are legal, the
words the assembler writes, and the expansion of PUTCODE.
-/

namespace Sys2Proof.Machine

/-! ### Decoding and encoding (R81 to R86, R90) -/

/-- Settles O18: the fields of an encoded word are the opcode, the operands and clear reserved bits. -/
theorem decodeOfEncodeIsTheInstruction : Obligations.DecodeOfEncodeIsTheInstruction := by
  intro i
  cases i
  case putbits n value =>
    simp only [decode, encode, opField_formatB, reservedB_formatB, nField_formatB, valueField_formatB]
    rfl
  case putsym sym =>
    simp only [decode, encode, opField_formatS, reservedS_formatS, symField_formatS]
    rfl
  case packbuf count | unpack count | unpackt count =>
    simp only [decode, encode, opField_append, countField_append]
  all_goals
    simp only [decode, encode, opField_append, countField_append]
    rfl

theorem requireClear_eq_ok_iff {w : Word} {clear : Bool} {i j : Instr} :
    requireClear w clear i = .ok j ↔ clear = true ∧ i = j := by
  cases clear <;> simp [requireClear]

/-- A word is put together from its opcode and the three fields of format B (R83). -/
theorem append_fieldsB (w : Word) : opField w ++ reservedB w ++ nField w ++ valueField w = w := by
  rw [formatB, countField_formatB, opField_append_countField]

/-- A word is put together from its opcode and the two fields of format S (R84). -/
theorem append_fieldsS (w : Word) : opField w ++ reservedS w ++ symField w = w := by
  rw [formatS, countField_formatS, opField_append_countField]

/-- Settles O19: the word is put together from its fields, and those that the instruction does not hold are the opcode
and the reserved bits, which the row fixes. -/
theorem encodeOfDecodeIsTheWord : Obligations.EncodeOfDecodeIsTheWord := by
  intro w i h
  unfold decode at h
  split at h
  case h_2 hop =>
    obtain ⟨hclear, rfl⟩ := requireClear_eq_ok_iff.1 h
    rw [encode, ← hop, ← beq_iff_eq.1 hclear, append_fieldsB]
  case h_3 hop =>
    obtain ⟨hclear, rfl⟩ := requireClear_eq_ok_iff.1 h
    rw [encode, ← hop, ← beq_iff_eq.1 hclear, append_fieldsS]
  case h_4 hop | h_6 hop | h_10 hop =>
    cases h
    rw [encode, ← hop, opField_append_countField]
  case h_11 => cases h
  all_goals
    rename_i hop
    obtain ⟨hclear, rfl⟩ := requireClear_eq_ok_iff.1 h
    rw [encode, ← hop, ← beq_iff_eq.1 hclear, opField_append_countField]

/-- Settles O22: each sample word is the encoding of its instruction, and the two reserved words are computed. -/
theorem sampleWordsDecode : Obligations.SampleWordsDecode :=
  have decodes := decodeOfEncodeIsTheInstruction
  ⟨decodes .nop, decodes (.putbits 3#5 5#16), decodes (.putsym 0x62#8), decodes (.packbuf 6#27), decodes .flush,
    decodes (.unpack 7#27), decodes .alignin, decodes .clrct, decodes .assign, decodes (.unpackt 6#27), by decide,
    by decide⟩

/-! ### The assembler's words (R91) -/

/-- A format-C word is its opcode's word OR-ed with COUNT. -/
theorem opcode_append_eq_or (op : BitVec 5) (x : BitVec 27) :
    (op ++ x : Word) = op.setWidth 32 <<< 27 ||| x.setWidth 32 :=
  (BitVec.setWidth_eq _).symm.trans BitVec.setWidth_append_eq_shiftLeft_setWidth_or

/-- Settles O23: a word put together from fields is the OR of the fields, each shifted to its place. -/
theorem encodingsAreTheAssemblersWords : Obligations.EncodingsAreTheAssemblersWords := by
  refine ⟨rfl, fun n v => ?_, fun sym => ?_, opcode_append_eq_or 0x03#5, rfl, opcode_append_eq_or 0x05#5, rfl, rfl,
    rfl, opcode_append_eq_or 0x09#5⟩
  · exact (BitVec.setWidth_eq _).symm.trans BitVec.setWidth_append_append_append_eq_shiftLeft_setWidth_or
  · exact (BitVec.setWidth_eq _).symm.trans BitVec.setWidth_append_append_eq_shiftLeft_setWidth_or

/-! ### PUTCODE (R92) -/

/-- A bit string is the string of its high bits, then the string of its low bits. -/
theorem bitsOf_add (a b v : Nat) : bitsOf (a + b) v = bitsOf a (v / 2 ^ b) ++ bitsOf b v := by
  apply val_inj
  · simp
  · rw [val_append, length_bitsOf, val_bitsOf, val_bitsOf, val_bitsOf, Nat.add_comm a b, Nat.pow_add, Nat.mod_mul]
    ring

/-- A PUTBITS of `k` bits appends the low `k` bits of the number its VALUE was made from (R121). -/
theorem literalBits_putbits {k : Nat} (hk : k ≤ 16) (v : Nat) :
    literalBits (.putbits (BitVec.ofNat 5 k) (BitVec.ofNat 16 v)) = bitsOf k v := by
  rw [literalBits, BitVec.toNat_ofNat, BitVec.toNat_ofNat, Nat.mod_eq_of_lt (by omega : k < 2 ^ 5), ← bitsOf_mod,
    Nat.mod_mod_of_dvd _ (Nat.pow_dvd_pow 2 hk), bitsOf_mod]

theorem wellFormed_putbits {k v : Nat} (h1 : 1 ≤ k) (hk : k ≤ 16) (hv : v % 2 ^ 16 < 2 ^ k) :
    (Instr.putbits (BitVec.ofNat 5 k) (BitVec.ofNat 16 v)).wellFormed = true := by
  rw [Instr.wellFormed, BitVec.toNat_ofNat, BitVec.toNat_ofNat, Nat.mod_eq_of_lt (by omega : k < 2 ^ 5)]
  simp only [h1, hk, hv, decide_true, Bool.and_self]

/-- The chunks after the first hold the low bits, 16 each (R92). -/
theorem flatMap_putcodeTail (m v : Nat) : (putcodeTail m v).flatMap literalBits = bitsOf (16 * m) v := by
  induction m with
  | zero => rfl
  | succ m ih =>
    rw [putcodeTail, List.flatMap_cons, ih, literalBits_putbits le_rfl, Nat.mul_succ, Nat.add_comm,
      bitsOf_add]

theorem wellFormed_of_mem_putcodeTail {m v : Nat} {i : Instr} (h : i ∈ putcodeTail m v) :
    ∃ k x, i = .putbits k x ∧ i.wellFormed = true := by
  induction m with
  | zero => cases h
  | succ m ih =>
    rcases List.mem_cons.1 h with rfl | h
    · exact ⟨_, _, rfl, wellFormed_putbits (by decide) le_rfl (Nat.mod_lt _ (by decide))⟩
    · exact ih h

/-- PUTCODE of a first chunk of `k` bits and `m` chunks after it (R92). -/
theorem asmPutcode_chunks {k m v : Nat} (h1 : 1 ≤ k) (hk : k ≤ 16) (hv : v < 2 ^ (k + 16 * m)) :
    asmPutcode (k + 16 * m) v =
      some (.putbits (BitVec.ofNat 5 k) (BitVec.ofNat 16 (v / 2 ^ (16 * m))) :: putcodeTail m v) := by
  have hfirst : (k + 16 * m - 1) % 16 + 1 = k := by omega
  have hlater : (k + 16 * m - k) / 16 = m := by omega
  simp only [asmPutcode, hfirst, hlater, if_pos (⟨by omega, hv⟩ : 1 ≤ k + 16 * m ∧ v < 2 ^ (k + 16 * m))]

/-- Settles O24: the first chunk is the bits above the others, which fit in its 1 to 16 bits, and each later chunk is
the next 16 bits below. -/
theorem putcodeAppendsItsBits : Obligations.PutcodeAppendsItsBits := by
  intro n v hn hv
  obtain ⟨k, m, h1, hk, rfl⟩ : ∃ k m, 1 ≤ k ∧ k ≤ 16 ∧ n = k + 16 * m :=
    ⟨(n - 1) % 16 + 1, (n - 1) / 16, by omega, by omega, by omega⟩
  have hfirst : v / 2 ^ (16 * m) < 2 ^ k := Nat.div_lt_of_lt_mul (by rwa [← Nat.pow_add, Nat.add_comm])
  refine ⟨_, asmPutcode_chunks h1 hk hv, fun i hi => ?_, ?_⟩
  · rcases List.mem_cons.1 hi with rfl | hi
    · exact ⟨_, _, rfl, wellFormed_putbits h1 hk ((Nat.mod_le _ _).trans_lt hfirst)⟩
    · exact wellFormed_of_mem_putcodeTail hi
  · rw [List.flatMap_cons, flatMap_putcodeTail, literalBits_putbits hk, bitsOf_add]

/-! ### Legal words (R87) -/

/-- Settles O21: a legal word decodes to a legal instruction, and a word that decodes is the encoding of its
instruction, which is legal exactly when the word is. -/
theorem legalMeansDecodedAndLegal : Obligations.LegalMeansDecodedAndLegal := by
  intro b w
  refine ⟨exists_decode_of_legal, ?_⟩
  rintro ⟨i, hd, hl⟩
  rw [← encodeOfDecodeIsTheWord w i hd, legal_encode, hl]

/-- `legal(w)` over the fields of the word, one clause per format and option (R87): each branch of `legal` fixes OP, which
selects its clause. -/
theorem legal_iff_fields (b : Bool) (w : Word) :
    legal b w = true ↔
      (opField w ∈ [0x00#5, 0x04#5, 0x06#5, 0x07#5] ∧ countField w = 0#27) ∨
      (opField w = 0x01#5 ∧ reservedB w = 0#6 ∧ 1 ≤ (nField w).toNat ∧ (nField w).toNat ≤ 16 ∧
        (valueField w).toNat < 2 ^ (nField w).toNat) ∨
      (opField w = 0x02#5 ∧ reservedS w = 0#19) ∨
      opField w = 0x03#5 ∨ opField w = 0x05#5 ∨
      (opField w = 0x08#5 ∧ b = true ∧ countField w = 0#27) ∨
      (opField w = 0x09#5 ∧ b = true) := by
  unfold legal
  split <;> simp_all [and_assoc]

theorem toNat_opField (w : Word) : (opField w).toNat = w.toNat / 2 ^ 27 := by
  have := w.isLt
  rw [opField, BitVec.extractLsb'_toNat, Nat.shiftRight_eq_div_pow]
  omega

theorem toNat_countField (w : Word) : (countField w).toNat = w.toNat % 2 ^ 27 := rfl

theorem toNat_nField (w : Word) : (nField w).toNat = w.toNat / 2 ^ 16 % 2 ^ 5 := by
  rw [nField, BitVec.extractLsb'_toNat, Nat.shiftRight_eq_div_pow]

theorem toNat_valueField (w : Word) : (valueField w).toNat = w.toNat % 2 ^ 16 := rfl

theorem toNat_reservedB (w : Word) : (reservedB w).toNat = w.toNat / 2 ^ 21 % 2 ^ 6 := by
  rw [reservedB, BitVec.extractLsb'_toNat, Nat.shiftRight_eq_div_pow]

theorem toNat_reservedS (w : Word) : (reservedS w).toNat = w.toNat / 2 ^ 8 % 2 ^ 19 := by
  rw [reservedS, BitVec.extractLsb'_toNat, Nat.shiftRight_eq_div_pow]

/-- Settles O20: the fields of the word are digits of its number, and the write of an illegal word is accepted and takes
ILLEGAL_CMD. -/
theorem legalWordsAreTheseWords : Obligations.LegalWordsAreTheseWords := by
  refine ⟨fun b w => ?_, fun s w hs hl => ?_⟩
  · simp only [legal_iff_fields, ← BitVec.toNat_inj, List.mem_cons, List.not_mem_nil, toNat_opField,
      toNat_countField, toNat_nField, toNat_valueField, toNat_reservedB, toNat_reservedS, BitVec.toNat_ofNat,
      Nat.reducePow, Nat.reduceMod]
  · rw [hostWrite_cmd, State.writeCmd_accepted hs, State.accept_illegal hs.1 hl]
    exact ⟨rfl, rfl⟩

/-! ### Units (R88) -/

/-- A command with no unit is accepted, and its next step is the completion step (R66, R88). -/
theorem exec_exec_of_no_units {i : Instr} {s : State} (hu : units (encode i) = 0#27) (hs : s.Accepting)
    (hl : i.isLegal s.hasTree = true) :
    ∃ t, exec i s = .next t ∧ t.busy = true ∧
      exec i t =
        .next { s with
          lastCmd := encode i
          symCount := 0#27
          done := true
          remain := 0#27
          rootSnap := if s.hasTree then s.root else 0#9 } := by
  refine ⟨_, (acceptStartsEveryLegalInstruction i s hs).1 hl, rfl, ?_⟩
  obtain ⟨hb, -, -⟩ := hs
  rw [exec_complete rfl hu, State.complete, hu, ← hb]

/-- Settles O29: COUNT stands in the word of a format-C command, and with no unit only the completion step is left. -/
theorem unitsAreCountOrOne : Obligations.UnitsAreCountOrOne := by
  refine ⟨fun c => ⟨units_encode (.packbuf c), units_encode (.unpack c), units_encode (.unpackt c)⟩,
    fun n v => units_encode (.putbits n v), fun a => units_encode (.putsym a), by decide, fun i s hi hs hl => ?_⟩
  have hu : units (encode i) = 0#27 := by rcases hi with rfl | rfl | rfl <;> exact units_encode _
  exact exec_exec_of_no_units hu hs hl

end Sys2Proof.Machine

/-!
The code table (spec 40_code_table.md): what each command's step leaves unchanged, NOP and CLRCT, the table an ASSIGN
makes, and the nodes ASSIGN and UNPACKT reject.
-/

namespace Sys2Proof.Machine

/-! ### ASSIGN (R102, R104) -/

/-- An entry's CODE is the value of its string, when no symbol is named twice (R102). -/
theorem State.code_setEntries_mem (s : State) {xs : List (Byte × Bits)} (hn : (xs.map Prod.fst).Nodup)
    {x : Byte × Bits} (hx : x ∈ xs) (hl : x.2.length ≤ 255) :
    ((s.setEntries xs).code x.1.toNat).toNat = val x.2 := by
  obtain ⟨as, bs, rfl⟩ := List.append_of_mem hx
  have hlater : ∀ y ∈ bs, y.1.toNat ≠ x.1.toNat := by
    intro y hy he
    rw [List.map_append, List.map_cons, List.nodup_append, List.nodup_cons] at hn
    obtain ⟨-, ⟨hnot, -⟩, -⟩ := hn
    exact hnot (List.mem_map.2 ⟨y, hy, BitVec.eq_of_toNat_eq he⟩)
  have hv : val x.2 < 2 ^ 255 := lt_of_lt_of_le (val_lt x.2) (Nat.pow_le_pow_right (by norm_num) hl)
  rw [State.setEntries_append, State.setEntries, State.code_setEntries_of_not_mem _ hlater, State.setEntry_def,
    State.code_setCode, BitVec.toNat_ofNat, Nat.mod_eq_of_lt hv]

/-- The code table is the tree's: each leaf's symbol has its code, and every other symbol is absent (R102). -/
structure State.TableIs (t : State) (T : CodeTree) : Prop where
  codeBits : ∀ x ∈ T.codes, t.codeBits x.1.toNat = x.2
  absent : ∀ a : Byte, a ∉ T.symbols → t.len a.toNat = 0#8

theorem CodeTree.fst_ne_of_not_mem_symbols {T : CodeTree} {a : Byte} (ha : a ∉ T.symbols) :
    ∀ x ∈ T.codes, x.1.toNat ≠ a.toNat := by
  intro x hx he
  rw [← CodeTree.codes_fst, ← BitVec.eq_of_toNat_eq he] at ha
  exact ha (List.mem_map_of_mem hx)

theorem State.tableIs_setEntries (s : State) {T : CodeTree} (hd : T.depth ≤ 255) (hn : T.symbols.Nodup) :
    (s.clearLens.setEntries T.codes).TableIs T where
  codeBits x hx :=
    (State.setEntries_mem _ (by rwa [CodeTree.codes_fst]) hx (CodeTree.code_length_le hd hx)).2
  absent a ha := State.len_setEntries_of_not_mem _ (CodeTree.fst_ne_of_not_mem_symbols ha)

section
variable {t : State} {T : CodeTree} (h : t.TableIs T)
include h

theorem State.TableIs.len {x : Byte × Bits} (hx : x ∈ T.codes) : (t.len x.1.toNat).toNat = x.2.length := by
  rw [← State.length_codeBits, h.codeBits x hx]

/-- A leaf's symbol has a LEN of at least 1, and of at most 255 (R104). -/
theorem State.TableIs.len_range {a : Byte} (ha : a ∈ T.symbols) :
    1 ≤ (t.len a.toNat).toNat ∧ (t.len a.toNat).toNat ≤ 255 := by
  obtain ⟨w, hw⟩ := CodeTree.exists_code ha
  have hpos : 0 < w.length := List.length_pos_of_ne_nil (CodeTree.code_ne_nil hw)
  have hlen := h.len hw
  have := (t.len a.toNat).isLt
  dsimp only at hlen
  omega

/-- Exactly the symbols of the leaves have a code (R104). -/
theorem State.TableIs.len_ne_zero_iff (a : Byte) : t.len a.toNat ≠ 0#8 ↔ a ∈ T.symbols := by
  refine ⟨fun hl => by_contra fun ha => hl (h.absent a ha), fun ha h0 => ?_⟩
  have hpos := (h.len_range ha).1
  rw [h0] at hpos
  exact absurd hpos (by decide)

/-- The table of a tree is prefix-free, because the paths to two leaves are (R104). -/
theorem State.TableIs.prefixFree : t.PrefixFree := by
  intro a b ha hb hab hla hlb hp
  obtain ⟨a, rfl⟩ : ∃ x : Byte, x.toNat = a := ⟨BitVec.ofNat 8 a, Nat.mod_eq_of_lt ha⟩
  obtain ⟨b, rfl⟩ : ∃ x : Byte, x.toNat = b := ⟨BitVec.ofNat 8 b, Nat.mod_eq_of_lt hb⟩
  obtain ⟨u, hu⟩ := CodeTree.exists_code ((h.len_ne_zero_iff a).1 hla)
  obtain ⟨v, hv⟩ := CodeTree.exists_code ((h.len_ne_zero_iff b).1 hlb)
  rw [h.codeBits _ hu, h.codeBits _ hv] at hp
  exact hab (congrArg (fun x : Byte × Bits => x.1.toNat) (CodeTree.codes_eq_of_prefix hu hv hp))

end

/-- An ASSIGN step after which the command still runs has committed the table of a tree (R66, R102). -/
theorem exec_assign_committed {s t : State} (hs : s.AtUnit) (h : exec .assign s = .next t) (hb : t.busy = true) :
    ∃ T : CodeTree, s.HoldsTree s.rootSnap.toNat T ∧ T.depth ≤ 255 ∧ T.symbols.Nodup ∧ t.TableIs T := by
  cases hu : unitOf .assign s with
  | error e =>
    rw [exec_error hs hu] at h
    cases h
    cases hb
  | ok u =>
    rw [exec_ok hs hu] at h
    cases h
    obtain ⟨T, hT, hd, hn, rfl⟩ := assignUnit_ok hu
    have htab := s.tableIs_setEntries hd hn
    exact ⟨T, hT, hd, hn, htab.codeBits, htab.absent⟩

/-- Settles O49: the walk of the tree writes one entry per leaf, its code, over an empty table. -/
theorem assignGivesEachLeafItsPath : Obligations.AssignGivesEachLeafItsPath := by
  intro s T hs hT hd hn
  have hu : unitOf .assign s = .ok (s.clearLens.setEntries T.codes) := assignUnit_holds hT hd hn
  have htab := s.tableIs_setEntries hd hn
  obtain ⟨l, c, hfields⟩ := s.clearLens.setEntries_fields T.codes
  refine ⟨_, exec_ok hs hu, fun x hx => ⟨htab.len hx, htab.codeBits x hx, ?_⟩, fun a ha => ⟨htab.absent a ha, ?_⟩,
    committed_of_unitOf hu, ?_⟩
  · exact State.code_setEntries_mem _ (by rwa [CodeTree.codes_fst]) hx (CodeTree.code_length_le hd hx)
  · exact State.code_setEntries_of_not_mem _ (CodeTree.fst_ne_of_not_mem_symbols ha)
  · rw [hfields]
    exact ⟨⟨rfl, rfl, rfl, rfl, rfl, rfl, rfl, rfl, rfl, rfl, rfl, rfl, rfl, rfl, rfl⟩, ⟨rfl, rfl, rfl, rfl, rfl⟩, rfl⟩

/-- Settles O50: the walk fails exactly at the first bad node, and a walk that does not fail has seen a tree. -/
theorem assignRejectsEverythingElse : Obligations.AssignRejectsEverythingElse := by
  intro s hs
  have hreject : ∀ subcode index, s.FirstBad s.rootSnap.toNat 0 [] subcode index →
      exec .assign s = .next (s.AfterError 6#4 (BitVec.ofNat 32 (subcode * 2 ^ 16 + index))) :=
    fun subcode index hbad => exec_error (i := .assign) hs (assignUnit_error_iff.2 ⟨subcode, index, hbad, rfl⟩)
  refine ⟨hreject, fun hno => ?_⟩
  cases hu : assignUnit s with
  | ok u =>
    obtain ⟨T, hT, hd, hn, -⟩ := assignUnit_ok hu
    exact absurd ⟨T, hT, hd, hn⟩ hno
  | error e =>
    obtain ⟨subcode, index, hbad, -⟩ := assignUnit_error_iff.1 hu
    obtain ⟨hsub, hidx⟩ := hbad.range s.rootSnap.isLt
    exact ⟨subcode, index, hbad, hsub, hidx, hreject _ _ hbad⟩

/-- Settles O51: the table is that of a tree, whose codes have 1 to 255 bits and are prefix-free. -/
theorem assignMakesAPrefixFreeTable : Obligations.AssignMakesAPrefixFreeTable := by
  intro s t hs h hb
  obtain ⟨T, hT, -, hn, htab⟩ := exec_assign_committed hs h hb
  exact ⟨htab.prefixFree, T, hT, hn, fun _ ha => htab.len_range ha, htab.len_ne_zero_iff⟩

/-! ### The nodes UNPACKT rejects (R103, R142) -/

/-- UNPACKT takes the error in which the walk from ROOT_SNAP ends (R142, R143). -/
theorem exec_unpackt_error {s : State} {e : UnitErr} (hs : s.AtUnit) (c : BitVec 27)
    (h : decodeTree s s.inPtr.toNat = .error e) : exec (.unpackt c) s = .next (s.takeError e) :=
  exec_error hs (congrArg (emitDecoded s) h)

/-- Settles O48: the walk goes on to the node the bits lead to, and the first check that fails there ends it. -/
theorem unpacktRejectsInvalidNodes : Obligations.UnpacktRejectsInvalidNodes := by
  intro c s w j hs hw hp hi
  have hwalk : ∀ {e : UnitErr}, walkTree s s.inPtr.toNat (255 - w.length) j w.length = .error e →
      exec (.unpackt c) s = .next (s.takeError e) :=
    fun he => exec_unpackt_error hs c ((decodeTree_path hp hw hi).trans he)
  refine ⟨fun hj => hwalk (walkTree_outside hj), fun hj hl hc => hwalk (walkTree_leaf_reserved hj hl hc),
    fun hj hl hc => hwalk (walkTree_internal_reserved hj hl hc), fun hj hl hc hdeep => ?_, fun hj hl hc hlt hx => ?_⟩
  · rw [hdeep] at hwalk
    exact hwalk (walkTree_deep hj hl hc)
  · rw [show 255 - w.length = 254 - w.length + 1 by omega] at hwalk
    exact hwalk (walkTree_exhausted hj hl hc hx)

/-! ### NOP and CLRCT (R100, R101) -/

/-- Settles O33: the unit is the identity, so of the three steps only the accept, the commit and the completion write. -/
theorem nopDoesNothing : Obligations.NopDoesNothing := by
  have hword : encode .nop = 0#32 := rfl
  have hunits : units 0#32 = 1#27 := rfl
  refine ⟨fun s hs => exec_ok hs rfl, fun s hs => ?_⟩
  refine ⟨_, _, (acceptStartsEveryLegalInstruction .nop s hs).1 rfl, exec_ok ⟨rfl, ?_⟩ rfl, ?_⟩
  · simp [hword, hunits]
  · obtain ⟨hb, -, -⟩ := hs
    rw [exec_complete rfl (by simp [hword, hunits])]
    simp [State.complete, State.commit, hword, hunits, hb]

/-- With no LEN listed every symbol is absent (R42). -/
theorem State.len_of_ctLen_eq_nil {s : State} (h : s.ctLen = []) (a : Nat) : s.len a = 0#8 := by
  rw [State.len, State.byte, State.space, h]
  rfl

/-- On an empty table the scan ends at its first bit (R101, R140). -/
theorem decodeCT_of_no_codes {s : State} {p : Nat} (h : ∀ a, s.len a = 0#8) (hp : p < 8 * s.effLimit) :
    decodeCT s p = .error ⟨.malformed, 1#32⟩ := by
  refine decodeCT_malformed (w := []) (State.inputIs_singleton hp) (fun j h1 h2 => absurd (h1.trans h2) (by decide)) ?_ ?_
  · refine State.matchSymbol_eq_none.2 fun a _ he => ?_
    have hlen := State.length_codeBits s a
    rw [he, h a] at hlen
    exact absurd hlen (by simp)
  · refine Bool.eq_false_iff.2 fun hpre => ?_
    obtain ⟨a, -, hlt, -⟩ := State.isProperPrefix_iff.1 hpre
    simp [h a] at hlt

/-- Settles O34: the unit empties the list of LENs, and in a table with no LEN no symbol is found. -/
theorem clrctMarksEverySymbolAbsent : Obligations.ClrctMarksEverySymbolAbsent := by
  intro s hs
  refine ⟨s.clearLens.commit, exec_ok hs rfl, committed_of_unitOf (i := .clrct) rfl,
    ⟨rfl, rfl, rfl, rfl, rfl, rfl, rfl, rfl, rfl, rfl, rfl, rfl, rfl, rfl, rfl⟩, ⟨rfl, rfl, rfl, rfl, rfl⟩, rfl,
    State.len_of_ctLen_eq_nil rfl, fun _ => rfl, fun u hu hunit => ?_⟩
  have hlen : ∀ a, u.len a = 0#8 := State.len_of_ctLen_eq_nil hu
  refine ⟨fun sym => ?_, fun c hbit => ?_⟩
  · rw [setWidth_eq_ofNat_toNat]
    exact exec_error (i := .putsym sym) hunit (if_pos (hlen sym.toNat))
  · exact exec_error (i := .unpack c) hunit (congrArg (emitDecoded u) (decodeCT_of_no_codes hlen hbit))

/-! ### What each command leaves unchanged (R66, R100 to R144) -/

/-- The part of the state that the rule of a command does not name, beside what no command changes: the same in both
states. -/
def KeepsUnnamed (i : Instr) (s t : State) : Prop :=
  match i with
  | .nop => KeepsTable s t ∧ KeepsOutput s t ∧ t.inPtr = s.inPtr
  | .putbits _ _ | .putsym _ | .flush => KeepsTable s t ∧ t.inPtr = s.inPtr
  | .packbuf _ | .unpack _ | .unpackt _ => KeepsTable s t
  | .alignin => KeepsTable s t ∧ KeepsOutput s t
  | .clrct => t.ctCode = s.ctCode ∧ KeepsOutput s t ∧ t.inPtr = s.inPtr
  | .assign => KeepsOutput s t ∧ t.inPtr = s.inPtr

/-- The frame of a command from `s` to `t`: what no command changes, the bytes of OUT its unit does not complete, and
what its rule does not name. -/
structure CommandFrame (i : Instr) (s t : State) : Prop where
  outside : KeepsOutside s t
  bytes : ∀ a, a < s.outPtr.toNat ∨ s.outPtr.toNat + s.storedBytes i ≤ a → t.byte .outBuf a = s.byte .outBuf a
  unnamed : KeepsUnnamed i s t

theorem CommandFrame.refl (i : Instr) (s : State) : CommandFrame i s s where
  outside := ⟨rfl, rfl, rfl, rfl, rfl, rfl, rfl, rfl, rfl, rfl, rfl, rfl, rfl, rfl, rfl⟩
  bytes _ _ := rfl
  unnamed := by
    have htab : KeepsTable s s := ⟨rfl, rfl⟩
    have hout : KeepsOutput s s := ⟨rfl, rfl, rfl, rfl, rfl⟩
    cases i <;> simp [KeepsUnnamed, htab, hout]

/-- The flags and counters of a command's step are no part of its frame (R66). -/
theorem CommandFrame.withFlags {i : Instr} {s t : State} (h : CommandFrame i s t) (busy done err : Bool)
    (errCode : BitVec 4) (errInfo : Word) (symCount remain : BitVec 27) :
    CommandFrame i s { t with
      busy := busy, done := done, err := err, errCode := errCode, errInfo := errInfo, symCount := symCount
      remain := remain } where
  outside := { h.outside with }
  bytes := h.bytes
  unnamed := by cases i <;> exact h.unnamed

/-- A unit writes OUT, OUT_PTR, ACC, BITCOUNT, IN_PTR and CT at most (R66). -/
theorem keepsOutside_of_unitOf {i : Instr} {s t : State} (h : unitOf i s = .ok t) : KeepsOutside s t := by
  obtain ⟨m, p, n, b, c, q, l, k, rfl⟩ := unitOf_fields h
  exact ⟨rfl, rfl, rfl, rfl, rfl, rfl, rfl, rfl, rfl, rfl, rfl, rfl, rfl, rfl, rfl⟩

theorem State.eq_of_fetch_eq_ok {s : State} {p k : Nat} {w : Bits} (h : s.fetch p k = .ok w) :
    w = (List.range k).map fun j => s.inBit (p + j) := by
  unfold State.fetch at h
  split_ifs at h
  cases h
  rfl

/-- An Emit changes no byte of OUT but the ones it completes (R65). -/
theorem State.emitBits_bytes {s t : State} {w : Bits} (h : s.emitBits w = .ok t) {k : Nat} (hk : w.length = k) (a : Nat)
    (ha : a < s.outPtr.toNat ∨ s.outPtr.toNat + s.bytesDue k ≤ a) : t.byte .outBuf a = s.byte .outBuf a :=
  (State.emitBits_ok h).2.1.bytes a (by rwa [hk])

/-- The frame of a unit that succeeds. -/
theorem commandFrame_of_unitOf {i : Instr} {s t : State} (h : unitOf i s = .ok t) : CommandFrame i s t := by
  have hout := keepsOutside_of_unitOf h
  cases i
  case nop => cases h; exact .refl _ _
  case putbits n v =>
    obtain ⟨-, hkeep⟩ := State.emitBits_frame h
    exact ⟨hout, State.emitBits_bytes h (length_bitsOf _ _), hkeep⟩
  case putsym sym =>
    obtain ⟨-, hemit⟩ := State.emitSymbol_ok h
    obtain ⟨-, hkeep⟩ := State.emitBits_frame hemit
    exact ⟨hout, State.emitBits_bytes hemit (State.length_codeBits _ _), hkeep⟩
  case packbuf count =>
    obtain ⟨w, u, hf, hu, rfl⟩ := packbufUnit_ok h
    obtain ⟨-, hemit⟩ := State.emitSymbol_ok hu
    obtain ⟨-, htab, -⟩ := State.emitBits_frame hemit
    rw [State.eq_of_fetch_eq_ok hf] at hemit
    exact ⟨hout, State.emitBits_bytes hemit (State.length_codeBits _ _), htab⟩
  case flush =>
    rcases flushUnit_cases h with rfl | ⟨hn, -, rfl⟩
    · exact .refl _ _
    · refine ⟨hout, fun a ha => ?_, ⟨rfl, rfl⟩, rfl⟩
      rw [State.storedBytes, if_neg hn] at ha
      rw [State.setOutput_byte, State.byte_setByte, if_neg (by omega)]
  case unpack count =>
    obtain ⟨sym, k, u, -, hemit, rfl⟩ := emitDecoded_ok h
    obtain ⟨-, htab, -⟩ := State.emitBits_frame hemit
    exact ⟨hout, State.emitBits_bytes hemit (length_bitsOf _ _), htab⟩
  case unpackt count =>
    obtain ⟨sym, k, u, -, hemit, rfl⟩ := emitDecoded_ok h
    obtain ⟨-, htab, -⟩ := State.emitBits_frame hemit
    exact ⟨hout, State.emitBits_bytes hemit (length_bitsOf _ _), htab⟩
  case alignin => cases h; exact ⟨hout, fun _ _ => rfl, ⟨rfl, rfl⟩, rfl, rfl, rfl, rfl, rfl⟩
  case clrct => cases h; exact ⟨hout, fun _ _ => rfl, rfl, ⟨rfl, rfl, rfl, rfl, rfl⟩, rfl⟩
  case assign =>
    obtain ⟨T, -, -, -, rfl⟩ := assignUnit_ok h
    obtain ⟨l, c, hfields⟩ := s.clearLens.setEntries_fields T.codes
    rw [hfields] at hout ⊢
    exact ⟨hout, fun _ _ => rfl, ⟨rfl, rfl, rfl, rfl, rfl⟩, rfl⟩

/-- The frame of a step of a running command, in whichever of the three ways it ends (R66). -/
theorem commandFrame_engineStep (i : Instr) (s : State) : CommandFrame i s (s.engineStep (unitOf i)) := by
  rcases s.engineStep_cases (unitOf i) with ⟨-, he⟩ | ⟨-, t, ht, he⟩ | ⟨-, e, -, he⟩ <;> rw [he]
  · exact (CommandFrame.refl i s).withFlags _ _ _ _ _ _ _
  · exact (commandFrame_of_unitOf ht).withFlags _ _ _ _ _ _ _
  · exact (CommandFrame.refl i s).withFlags _ _ _ _ _ _ _

/-- Settles O32: a step while BUSY = 1 is an engine step, and its frame is that of the unit. -/
theorem commandsChangeOnlyWhatTheirRulesName : Obligations.CommandsChangeOnlyWhatTheirRulesName := by
  intro i s t hb h
  rw [exec_eq, runCommand_eq, if_pos hb] at h
  cases h
  obtain ⟨hout, hbytes, hkeep⟩ := commandFrame_engineStep i s
  exact ⟨hout, hbytes, by cases i <;> exact hkeep⟩

end Sys2Proof.Machine

/-!
The packing commands (spec 41_pack.md): the unit of PUTBITS and of PUTSYM as one Emit, the unit of PACKBUF as the Emit
of the code of the byte at IN_PTR, the unit of FLUSH, and the run of a PACKBUF over its symbols.
-/

namespace Sys2Proof.Machine

/-! ### Units that are one Emit: PUTBITS and PUTSYM (R120 to R122) -/

theorem Appended.commit {s t : State} {w : Bits} (h : Appended s t w) : Appended s t.commit w := { h with }

theorem KeepsOutside.commit {s t : State} (h : KeepsOutside s t) : KeepsOutside s t.commit := { h with }

section
variable {i : Instr} {s : State} {w : Bits} (hs : s.AtUnit) (hu : unitOf i s = s.emitBits w)
include hs hu

/-- With room, a command whose unit is one Emit appends the bits and writes nothing beside the output side (R65). -/
theorem exec_emitBits (hroom : s.Room w.length) :
    ∃ t, exec i s = .next t ∧ Appended s t w ∧ Committed s t ∧ KeepsOutside s t ∧ KeepsTable s t ∧
      t.inPtr = s.inPtr := by
  obtain ⟨t, ht⟩ := State.emitBits_of_room hroom
  obtain ⟨-, happ, -⟩ := State.emitBits_ok ht
  obtain ⟨hout, htab, hptr⟩ := State.emitBits_frame ht
  rw [ht] at hu
  exact ⟨t.commit, exec_ok hs hu, happ.commit, committed_of_unitOf hu, hout.commit, htab, hptr⟩

/-- Without room it takes OUT_OVERFLOW with the bytes due (R65). -/
theorem exec_emitBits_overflow (hroom : ¬s.Room w.length) :
    exec i s = .next (s.AfterError 3#4 (BitVec.ofNat 32 (s.bytesDue w.length))) :=
  exec_error hs (hu.trans (State.emitBits_of_not_room hroom))

end

/-- The unit of PUTBITS is the Emit of the low N bits of VALUE (R121). -/
theorem putbitsUnit_eq (n : BitVec 5) (v : BitVec 16) (s : State) :
    putbitsUnit n v s = s.emitBits (bitsOf n.toNat v.toNat) := by
  rw [putbitsUnit, State.emit, operandN, operandValue, bitsOf_mod]

/-- Settles O38: the unit is the Emit of the N bits of VALUE. -/
theorem putbitsAppendsItsBits : Obligations.PutbitsAppendsItsBits := by
  intro n v s _ hs
  have hu : unitOf (.putbits n v) s = s.emitBits (bitsOf n.toNat v.toNat) := putbitsUnit_eq n v s
  have happend := exec_emitBits hs hu
  have hoverflow := exec_emitBits_overflow hs hu
  rw [length_bitsOf] at happend hoverflow
  exact ⟨happend, hoverflow⟩

/-- A symbol with a code is emitted as its code (R122, R123). -/
theorem State.emitSymbol_present {s : State} {sym : Nat} (h : s.len sym ≠ 0#8) :
    s.emitSymbol sym = s.emitBits (s.codeBits sym) := if_neg h

/-- A symbol with no code is unknown (R122, R123). -/
theorem State.emitSymbol_absent {s : State} {sym : BitVec 8} (h : s.len sym.toNat = 0#8) :
    s.emitSymbol sym.toNat = .error ⟨.unknownSymbol, sym.setWidth 32⟩ := by
  rw [State.emitSymbol, if_pos h, setWidth_eq_ofNat_toNat]

/-- A symbol whose code has no room is not emitted (R65, R122, R123). -/
theorem State.emitSymbol_overflow {s : State} {sym : Nat} (h : s.len sym ≠ 0#8) (hroom : ¬s.Room (s.len sym).toNat) :
    s.emitSymbol sym = .error ⟨.outOverflow, BitVec.ofNat 32 (s.bytesDue (s.len sym).toNat)⟩ := by
  rw [← State.length_codeBits] at hroom ⊢
  rw [State.emitSymbol_present h, State.emitBits_of_not_room hroom]

/-- Settles O39: the unit is the Emit of the code, if there is one. -/
theorem putsymAppendsTheCode : Obligations.PutsymAppendsTheCode := by
  intro sym s hs
  refine ⟨fun hlen hroom => ?_, fun hlen => ?_, fun hlen hroom => ?_⟩
  · exact exec_emitBits hs (i := .putsym sym) (State.emitSymbol_present hlen) (by rwa [State.length_codeBits])
  · exact exec_error hs (i := .putsym sym) (State.emitSymbol_absent hlen)
  · exact exec_error hs (i := .putsym sym) (State.emitSymbol_overflow hlen hroom)

/-! ### PACKBUF (R123) -/

/-- The byte at IN_PTR is fetched as its eight bits (R64, R123). -/
theorem State.InputIs.fetch_byte {s : State} {p : Nat} {b : Byte} (h : s.InputIs p (bitsOf 8 b.toNat)) :
    s.fetch p 8 = .ok (bitsOf 8 b.toNat) := by
  have hne : bitsOf 8 b.toNat ≠ [] := List.ne_nil_of_length_eq_add_one (length_bitsOf 8 _)
  have hfetch := h.fetch hne
  rwa [length_bitsOf] at hfetch

theorem val_bitsOf_byte (b : Byte) : val (bitsOf 8 b.toNat) = b.toNat := by
  rw [val_bitsOf, Nat.mod_eq_of_lt b.isLt]

/-- The next byte of the input is below the limit, so IN_PTR does not wrap past it (R33, R34). -/
theorem State.InputIs.inPtr_add_eight {s : State} {b : Byte} (h : s.InputIs s.inPtr.toNat (bitsOf 8 b.toNat)) :
    (s.inPtr + 8#18).toNat = s.inPtr.toNat + 8 := by
  have hle := h.le (List.ne_nil_of_length_eq_add_one (length_bitsOf 8 _))
  have hlimit := s.effLimit_le
  rw [length_bitsOf] at hle
  exact toNat_add_ofNat_of_lt (k := 8) (by omega)

/-- The unit of PACKBUF on the byte at IN_PTR: the symbol is emitted and IN_PTR moves past it, or its error is the
unit's (R123). -/
theorem packbufUnit_byte {s : State} {b : Byte} (h : s.InputIs s.inPtr.toNat (bitsOf 8 b.toNat)) :
    (∀ u, s.emitSymbol b.toNat = .ok u → packbufUnit s = .ok (u.setInPtr (u.inPtr + 8#18))) ∧
    (∀ e, s.emitSymbol b.toNat = .error e → packbufUnit s = .error e) := by
  constructor <;> intro r hr <;> simp only [packbufUnit, h.fetch_byte, val_bitsOf_byte, hr]

/-- With too few bits left the unit of PACKBUF is exhausted (R64, R123). -/
theorem packbufUnit_exhausted {s : State} (h : 8 * s.effLimit < s.inPtr.toNat + 8) :
    packbufUnit s = .error ⟨.inExhausted, 8#32⟩ := by
  simp only [packbufUnit, State.fetch_eq_error h]

/-- A PACKBUF step on a byte whose code has room (R123). -/
theorem exec_packbuf_byte {s : State} {b : Byte} (c : BitVec 27) (hs : s.AtUnit)
    (hi : s.InputIs s.inPtr.toNat (bitsOf 8 b.toNat)) (hlen : s.len b.toNat ≠ 0#8)
    (hroom : s.Room (s.codeBits b.toNat).length) :
    ∃ t, exec (.packbuf c) s = .next t ∧ Appended s t (s.codeBits b.toNat) ∧ Committed s t ∧ KeepsOutside s t ∧
      KeepsTable s t ∧ t.inPtr.toNat = s.inPtr.toNat + 8 := by
  obtain ⟨u, hemit⟩ := State.emitBits_of_room hroom
  obtain ⟨-, happ, -⟩ := State.emitBits_ok hemit
  obtain ⟨hout, htab, hptr⟩ := State.emitBits_frame hemit
  have hu : unitOf (.packbuf c) s = .ok (u.setInPtr (u.inPtr + 8#18)) :=
    (packbufUnit_byte hi).1 u ((State.emitSymbol_present hlen).trans hemit)
  refine ⟨_, exec_ok hs hu, { happ with }, committed_of_unitOf hu, { hout with }, htab, ?_⟩
  rw [State.commit_inPtr, State.setInPtr_inPtr, hptr, hi.inPtr_add_eight]

/-- Settles O40: the byte is fetched, then its symbol is emitted, and each of the three checks ends the unit. -/
theorem packbufPacksTheNextByte : Obligations.PackbufPacksTheNextByte := by
  intro c s hs
  refine ⟨fun hx => exec_error (i := .packbuf c) hs (packbufUnit_exhausted hx), fun b hi => ?_⟩
  have herror : ∀ {e : UnitErr}, s.emitSymbol b.toNat = .error e → exec (.packbuf c) s = .next (s.takeError e) :=
    fun he => exec_error (i := .packbuf c) hs ((packbufUnit_byte hi).2 _ he)
  refine ⟨fun hlen hroom => ?_, fun hlen => ?_, fun hlen hroom => ?_⟩
  · exact exec_packbuf_byte c hs hi hlen (by rwa [State.length_codeBits])
  · exact herror (State.emitSymbol_absent hlen)
  · exact herror (State.emitSymbol_overflow hlen hroom)

/-! ### FLUSH (R124) -/

/-- The unit of FLUSH with a pending bit and room for its byte (R124). -/
theorem flushUnit_pending {s : State} (hn : s.accN ≠ 0#3) (hout : s.outPtr.toNat < Config.outSize) :
    flushUnit s =
      .ok ((s.setByte .outBuf s.outPtr.toNat s.accBits).setOutput (s.outPtr + 1#16) 0#3 0#8 s.bitCount) :=
  (if_neg hn).trans (if_neg (Nat.not_lt.2 hout))

/-- The unit of FLUSH with a pending bit and no room for its byte (R124). -/
theorem flushUnit_overflow {s : State} (hn : s.accN ≠ 0#3) (hout : Config.outSize ≤ s.outPtr.toNat) :
    flushUnit s = .error ⟨.outOverflow, 1#32⟩ :=
  (if_neg hn).trans (if_pos (Nat.lt_succ_of_le hout))

/-- A byte of OUT after a write of one: OUT stores all eight bits (R46). -/
theorem State.byte_setByte_outBuf (s : State) (a b : Nat) (v : Byte) :
    (s.setByte .outBuf a v).byte .outBuf b = if a = b then v else s.byte .outBuf b := by
  have hmask : v &&& Space.mask .outBuf a = v := BitVec.and_allOnes
  simp only [State.byte_setByte, true_and, hmask]

/-- Settles O41: with nothing pending the unit is the identity, else it writes the byte ACC holds, if it has room. -/
theorem flushWritesThePendingByte : Obligations.FlushWritesThePendingByte := by
  intro s hs
  refine ⟨fun hn => exec_ok (i := .flush) hs (if_pos hn), fun hn hout => ?_,
    fun hn hout => exec_error (i := .flush) hs (flushUnit_overflow hn hout)⟩
  have hu : unitOf .flush s = _ := flushUnit_pending hn hout
  have hptr : (s.outPtr + 1#16).toNat = s.outPtr.toNat + 1 := toNat_add_ofNat_of_lt (k := 1) (by omega)
  refine ⟨_, exec_ok hs hu, ?_, fun a ha => ?_, hptr, rfl, rfl, rfl, committed_of_unitOf hu,
    (keepsOutside_of_unitOf hu).commit, ⟨rfl, rfl⟩, rfl⟩
  · rw [State.commit_byte, State.setOutput_byte, State.byte_setByte_outBuf, if_pos rfl]
  · rw [State.commit_byte, State.setOutput_byte, State.byte_setByte_outBuf, if_neg ha.symm]

/-! ### Runs of units (R66) -/

/-- While a command runs, `n` of its units have committed between the two states; together they appended the string `w`
to the output stream and took `k` input bits (R66). -/
structure UnitsDone (s t : State) (w : Bits) (k n : Nat) : Prop where
  busy : t.busy = s.busy
  stream : ∀ o, o ≤ s.outPtr.toNat → t.outStream o = s.outStream o ++ w
  outPtr : s.outPtr.toNat ≤ t.outPtr.toNat
  inPtr : t.inPtr.toNat = s.inPtr.toNat + k
  bitCount : t.bitCount = s.bitCount + BitVec.ofNat 32 w.length
  symCount : t.symCount = s.symCount + BitVec.ofNat 27 n
  remain : t.remain.toNat = s.remain.toNat - n

theorem UnitsDone.none (s : State) : UnitsDone s s [] 0 0 where
  busy := rfl
  stream _ _ := (List.append_nil _).symm
  outPtr := le_rfl
  inPtr := rfl
  bitCount := (BitVec.add_zero _).symm
  symCount := (BitVec.add_zero _).symm
  remain := rfl

/-- One unit that commits and appends its string. -/
theorem UnitsDone.one {s t : State} {w : Bits} {k : Nat} (hs : s.AtUnit) (hroom : s.Room w.length)
    (happ : Appended s t w) (hcom : Committed s t) (hptr : t.inPtr.toNat = s.inPtr.toNat + k) :
    UnitsDone s t w k 1 where
  busy := hcom.busy
  stream := happ.stream
  outPtr := by rw [happ.outPtr, State.outPtr_add_bytesDue hroom]; omega
  inPtr := hptr
  bitCount := happ.bitCount
  symCount := hcom.symCount
  remain := by rw [hcom.remain, State.remain_sub hs.2]

theorem UnitsDone.trans {s t u : State} {w x : Bits} {k l m n : Nat} (h : UnitsDone s t w k m)
    (h' : UnitsDone t u x l n) : UnitsDone s u (w ++ x) (k + l) (m + n) where
  busy := h'.busy.trans h.busy
  stream o ho := by rw [h'.stream o (ho.trans h.outPtr), h.stream o ho, List.append_assoc]
  outPtr := h.outPtr.trans h'.outPtr
  inPtr := by rw [h'.inPtr, h.inPtr, Nat.add_assoc]
  bitCount := by rw [h'.bitCount, h.bitCount, List.length_append, BitVec.ofNat_add, BitVec.add_assoc]
  symCount := by rw [h'.symCount, h.symCount, BitVec.ofNat_add, BitVec.add_assoc]
  remain := by rw [h'.remain, h.remain, Nat.sub_sub]

/-- With no turn laid down, a step while BUSY = 1 is `exec` of the instruction whose word LASTCMD holds (R29,
assumption 5). -/
theorem step_eq_exec_of_lastCmd {s : State} {i : Instr} (hb : s.busy = true) (hturns : s.turns = [])
    (hcmd : s.lastCmd = encode i) (hl : i.isLegal s.hasTree = true) : step s = exec i s := by
  have hd : decode s.lastCmd = .ok i := by rw [hcmd, decodeOfEncodeIsTheInstruction i]
  obtain ⟨hstep, -⟩ := stepRunsTheDecodedInstruction s i hb hd hl
  exact hstep hturns

/-! ### PACKBUF over many symbols (R123, R125) -/

theorem State.codesOf_cons (s : State) (x : Byte) (xs : List Byte) :
    s.codesOf (x :: xs) = s.codeBits x.toNat ++ s.codesOf xs := List.flatMap_cons

theorem KeepsTable.codesOf {s t : State} (h : KeepsTable s t) (he : t.epoch = s.epoch) (xs : List Byte) :
    t.codesOf xs = s.codesOf xs := by
  simp only [State.codesOf, h.codeBits he]

/-- A PACKBUF runs whose next units can pack the symbols: they are the next input bytes, each has a code, and OUT has
room for the codes. -/
structure State.ReadyToPack (s : State) (c : BitVec 27) (xs : List Byte) : Prop where
  busy : s.busy = true
  turns : s.turns = []
  lastCmd : s.lastCmd = encode (.packbuf c)
  remain : xs.length ≤ s.remain.toNat
  input : s.InputIs s.inPtr.toNat (symbolBits xs)
  present : ∀ x ∈ xs, s.len x.toNat ≠ 0#8
  room : s.Room (s.codesOf xs).length

/-- The next step packs the first symbol and is ready to pack the others, by the same codes. -/
theorem State.ReadyToPack.step {s : State} {c : BitVec 27} {x : Byte} {xs : List Byte}
    (h : s.ReadyToPack c (x :: xs)) :
    ∃ t, step s = .next t ∧ UnitsDone s t (s.codeBits x.toNat) 8 1 ∧ t.ReadyToPack c xs ∧
      t.codesOf xs = s.codesOf xs := by
  have hrem : xs.length + 1 ≤ s.remain.toNat := h.remain
  have hinput : s.InputIs s.inPtr.toNat (bitsOf 8 x.toNat ++ symbolBits xs) := h.input
  have hroom : s.Room ((s.codeBits x.toNat).length + (s.codesOf xs).length) := by
    rw [← List.length_append, ← State.codesOf_cons]
    exact h.room
  have hs : s.AtUnit := ⟨h.busy, fun h0 => by rw [h0] at hrem; exact absurd hrem (Nat.not_succ_le_zero _)⟩
  have hfirst : s.Room (s.codeBits x.toNat).length := hroom.mono (Nat.le_add_right _ _)
  obtain ⟨t, hexec, happ, hcom, hout, htab, hptr⟩ :=
    exec_packbuf_byte c hs hinput.left (h.present x List.mem_cons_self) hfirst
  have hdone : UnitsDone s t (s.codeBits x.toNat) 8 1 := .one hs hfirst happ hcom hptr
  have hcodes := htab.codesOf hout.epoch xs
  have hrest : t.InputIs t.inPtr.toNat (symbolBits xs) := by
    have hright := hinput.right
    rw [length_bitsOf, ← hptr] at hright
    exact hright.congr hout.inBuf hout.epoch hout.inLimit
  refine ⟨t, (step_eq_exec_of_lastCmd h.busy h.turns h.lastCmd rfl).trans hexec, hdone, ?_, hcodes⟩
  exact
    { busy := hdone.busy.trans h.busy
      turns := hout.turns.trans h.turns
      lastCmd := hout.lastCmd.trans h.lastCmd
      remain := by rw [hdone.remain]; omega
      input := hrest
      present := fun y hy => by rw [htab.len hout.epoch]; exact h.present y (List.mem_cons_of_mem x hy)
      room := by rw [hcodes]; exact happ.room hroom }

/-- By induction on the symbols: one step packs each. -/
theorem State.ReadyToPack.run {s : State} {c : BitVec 27} {xs : List Byte} (h : s.ReadyToPack c xs) :
    ∃ t, Host.Core.run core xs.length s = .next t ∧ UnitsDone s t (s.codesOf xs) (8 * xs.length) xs.length := by
  induction xs generalizing s with
  | nil => exact ⟨s, rfl, .none s⟩
  | cons x xs ih =>
    obtain ⟨t, hstep, hfirst, hready, hcodes⟩ := h.step
    obtain ⟨u, hrun, hrest⟩ := ih hready
    refine ⟨u, (core_run_succ hstep xs.length).trans hrun, ?_⟩
    rw [hcodes] at hrest
    rw [State.codesOf_cons, List.length_cons, Nat.mul_succ, Nat.add_comm (8 * _), Nat.add_comm xs.length]
    exact hfirst.trans hrest

/-- Settles O52: each step packs the next symbol, and what the steps append adds up. -/
theorem packbufAppendsTheCodesInOrder : Obligations.PackbufAppendsTheCodesInOrder := by
  intro c s xs hb hturns hcmd hrem hinput hpresent hroom
  have hready : s.ReadyToPack c xs := ⟨hb, hturns, hcmd, hrem, hinput, hpresent, hroom⟩
  obtain ⟨t, hrun, hdone⟩ := hready.run
  exact ⟨t, hrun, hdone.busy.trans hb, hdone.stream, hdone.inPtr, hdone.bitCount, hdone.symCount, hdone.remain⟩

end Sys2Proof.Machine

/-!
The unpacking commands (spec 42_unpack.md): the unit of ALIGNIN, a unit that emits a decoded symbol, how the table scan
and the tree walk end, the run of an UNPACK over the codes of its symbols, and that the two decoders agree.
-/

namespace Sys2Proof.Machine

/-! ### ALIGNIN (R144) -/

theorem ofNat_mod_two_pow (n m : Nat) : BitVec.ofNat n (m % 2 ^ n) = BitVec.ofNat n m :=
  BitVec.eq_of_toNat_eq (by simp)

/-- Settles O35: the unit writes IN_PTR alone, and the rounding is arithmetic below 2^18. -/
theorem aligninRoundsInPtrUp : Obligations.AligninRoundsInPtrUp := by
  have hexec : ∀ s : State, s.AtUnit → exec .alignin s = .next { s with
      inPtr := BitVec.ofNat 18 (8 * ((s.inPtr.toNat + 7) / 8) % 2 ^ 18)
      symCount := s.symCount + 1#27
      remain := s.remain - 1#27 } := by
    intro s hs
    rw [ofNat_mod_two_pow]
    exact exec_ok (i := .alignin) hs rfl
  refine ⟨hexec, fun s t hs h => ?_⟩
  have hlt := s.inPtr.isLt
  have hround : t.inPtr.toNat = 8 * ((s.inPtr.toNat + 7) / 8) % 2 ^ 18 := by
    rw [hexec s hs] at h
    injection h with h
    rw [← h, BitVec.toNat_ofNat, Nat.mod_mod]
  refine ⟨by omega, fun haligned => BitVec.eq_of_toNat_eq ?_, fun hle => by omega,
    fun hlast => BitVec.eq_of_toNat_eq ?_⟩
  · omega
  · rw [hround, BitVec.toNat_zero]
    omega

/-! ### Units that emit a decoded symbol (R141, R143) -/

section
variable {i : Instr} {s : State} {sym k : Nat} (hs : s.AtUnit) (hu : unitOf i s = emitDecoded s (.ok (sym, k)))
include hs hu

/-- With room, the symbol is appended as 8 bits and IN_PTR moves past the bits used. -/
theorem exec_decoded (hk : s.inPtr.toNat + k < 2 ^ 18) (hroom : s.Room 8) :
    ∃ t, exec i s = .next t ∧ Appended s t (bitsOf 8 sym) ∧ t.inPtr.toNat = s.inPtr.toNat + k ∧ Committed s t ∧
      KeepsOutside s t ∧ KeepsTable s t := by
  obtain ⟨t, ht, hdone⟩ := emitDecoded_of_room rfl hroom hk
  exact ⟨t.commit, exec_ok hs (hu.trans ht), hdone⟩

/-- Without room for its byte the symbol is not emitted, and OUT_OVERFLOW is taken with the bytes due. -/
theorem exec_decoded_overflow (hroom : ¬s.Room 8) :
    exec i s = .next (s.AfterError 3#4 (BitVec.ofNat 32 (s.bytesDue 8))) := by
  have hemit : s.emit 8 sym = .error ⟨.outOverflow, BitVec.ofNat 32 (s.bytesDue 8)⟩ := by
    rw [← length_bitsOf 8 sym] at hroom
    rw [State.emit, State.emitBits_of_not_room hroom, length_bitsOf]
  simp only [emitDecoded, hemit] at hu
  exact exec_error hs hu

end

/-- UNPACK takes the error in which the scan at IN_PTR ends (R140, R141). -/
theorem exec_unpack_error {s : State} {e : UnitErr} (hs : s.AtUnit) (c : BitVec 27)
    (h : decodeCT s s.inPtr.toNat = .error e) : exec (.unpack c) s = .next (s.takeError e) :=
  exec_error hs (congrArg (emitDecoded s) h)

/-- Bits of the input end below the limit, so IN_PTR does not wrap past them (R33, R34). -/
theorem State.InputIs.add_length_lt {s : State} {p : Nat} {w : Bits} (h : s.InputIs p w) (hw : w ≠ []) :
    p + w.length < 2 ^ 18 := by
  have hle := h.le hw
  have hlimit := s.effLimit_le
  omega

/-! ### How the table scan ends (R140) -/

theorem State.codeBits_ne_nil {s : State} {a : Nat} (h : s.len a ≠ 0#8) : s.codeBits a ≠ [] := by
  intro hnil
  have hlen := State.length_codeBits s a
  rw [hnil] at hlen
  exact State.len_ne_zero h hlen.symm

theorem State.codeBits_eq_nil {s : State} {a : Nat} (h : s.len a = 0#8) : s.codeBits a = [] := by
  rw [← List.length_eq_zero_iff, State.length_codeBits, h]
  rfl

/-- The scan ends at the first bit that leaves the codes (R140). -/
theorem decodeCT_off_codes {s : State} {p : Nat} {w : Bits} {b : Bool} (hi : s.InputIs p (w ++ [b]))
    (hmatch : ∀ a, a < 256 → s.len a ≠ 0#8 → ¬(s.codeBits a <+: w ++ [b]))
    (hin : w ≠ [] → ∃ a, a < 256 ∧ w <+: s.codeBits a) (hoff : ∀ a, a < 256 → ¬(w ++ [b] <+: s.codeBits a)) :
    decodeCT s p = .error ⟨.malformed, BitVec.ofNat 32 (w.length + 1)⟩ := by
  have hgo : s.ScanGoesOn w :=
    State.scanGoesOn_of (fun a ha hl hp => hmatch a ha hl (hp.trans (List.prefix_append _ _))) hin
  refine decodeCT_malformed hi hgo ?_ ?_
  · exact State.matchSymbol_eq_none.2 fun a ha he => hoff a ha (he ▸ List.prefix_refl _)
  · refine Bool.eq_false_iff.2 fun hpre => ?_
    obtain ⟨a, ha, -, hp⟩ := State.isProperPrefix_iff.1 hpre
    exact hoff a ha hp

/-- In a prefix-free table the scan finds the code the input begins with (R140, R145). -/
theorem decodeCT_of_prefixFree {s : State} {p sym : Nat} (hfree : s.PrefixFree) (hsym : sym < 256)
    (hlen : s.len sym ≠ 0#8) (hi : s.InputIs p (s.codeBits sym)) : decodeCT s p = .ok (sym, (s.len sym).toNat) := by
  refine decodeCT_shortest hsym hlen hi (fun a ha hla hlt => ?_) (fun a ha he => ?_)
  · exact hfree a sym ha hsym (fun he => hlt.ne (by rw [he])) hla hlen
  · have hla : s.len a ≠ 0#8 := fun h0 => State.codeBits_ne_nil hlen (he ▸ State.codeBits_eq_nil h0)
    exact hfree a sym (ha.trans hsym) hsym ha.ne hla hlen (by rw [he])

/-- In a prefix-free table the scan runs out of bits inside a code (R140). -/
theorem decodeCT_inside_code {s : State} {p sym : Nat} {w : Bits} (hfree : s.PrefixFree) (hsym : sym < 256)
    (hw : w <+: s.codeBits sym) (hlt : w.length < (s.codeBits sym).length) (hi : s.InputIs p w)
    (hx : 8 * s.effLimit < p + w.length + 1) :
    decodeCT s p = .error ⟨.inExhausted, BitVec.ofNat 32 (w.length + 1)⟩ := by
  have hlen : s.len sym ≠ 0#8 := by
    intro h0
    rw [State.codeBits_eq_nil h0] at hlt
    exact Nat.not_lt_zero _ hlt
  refine decodeCT_exhausted hi (State.scanGoesOn_of (fun a ha hla hp => ?_) fun _ => ⟨sym, hsym, hw⟩) hx
  by_cases he : a = sym
  · subst he
    exact absurd hp.length_le (Nat.not_le.2 hlt)
  · exact hfree a sym ha hsym he hla hlen (hp.trans hw)

/-- Settles O43: the scan ends at the shortest match, and its symbol is emitted. -/
theorem unpackTakesTheShortestMatch : Obligations.UnpackTakesTheShortestMatch := by
  intro c s sym hs hsym hlen hi hshort hlow
  have hu : unitOf (.unpack c) s = emitDecoded s (.ok (sym, (s.len sym).toNat)) :=
    congrArg (emitDecoded s) (decodeCT_shortest hsym hlen hi hshort hlow)
  have hk := hi.add_length_lt (State.codeBits_ne_nil hlen)
  rw [State.length_codeBits] at hk
  exact ⟨exec_decoded hs hu hk, exec_decoded_overflow hs hu⟩

/-- Settles O44: the scan fails at the bit that leaves the codes. -/
theorem unpackReportsMalformedBits : Obligations.UnpackReportsMalformedBits := by
  intro c s w b hs hi hmatch hin hoff
  exact exec_unpack_error hs c (decodeCT_off_codes hi hmatch hin hoff)

/-- Settles O45: the scan goes on through the bits there are and fails at the first that is missing. -/
theorem unpackReportsExhaustedInput : Obligations.UnpackReportsExhaustedInput := by
  intro c s w hs hi hx hmatch hin
  exact exec_unpack_error hs c (decodeCT_exhausted hi (State.scanGoesOn_of hmatch hin) hx)

/-! ### How the tree walk ends (R142) -/

/-- Below the root a leaf is decoded by the path to it. -/
theorem decodeTree_leaf {s : State} {p j : Nat} {w : Bits} (hp : s.Path s.rootSnap.toNat w j) (hw : w.length ≤ 255)
    (hne : w ≠ []) (hj : j < Config.arenaNodes) (hl : nodeIsLeaf (s.node j) = true) (hc : leafClear (s.node j) = true)
    (hi : s.InputIs p w) : decodeTree s p = .ok (nodeSym (s.node j), w.length) := by
  rw [decodeTree_path hp hw hi, walkTree_leaf hj hl hc]
  exact if_neg (fun h0 => hne (List.length_eq_zero_iff.1 h0))

section
variable {s : State} {p : Nat} (hj : s.rootSnap.toNat < Config.arenaNodes)
  (hl : nodeIsLeaf (s.node s.rootSnap.toNat) = true) (hc : leafClear (s.node s.rootSnap.toNat) = true)
include hj hl hc

/-- At a leaf that is the root the walk reads one bit. -/
theorem decodeTree_root_leaf {b : Bool} (hi : s.InputIs p [b]) :
    decodeTree s p = if b then .error ⟨.malformed, 1#32⟩ else .ok (nodeSym (s.node s.rootSnap.toNat), 1) := by
  have hf : s.fetch p 1 = .ok [b] := hi.fetch (List.cons_ne_nil _ _)
  rw [decodeTree, walkTree_leaf hj hl hc]
  cases b <;> simp [treeLeaf, hf]

theorem decodeTree_root_leaf_exhausted (hx : 8 * s.effLimit ≤ p) : decodeTree s p = .error ⟨.inExhausted, 1#32⟩ := by
  have hf : s.fetch p 1 = .error ⟨.inExhausted, 1#32⟩ := State.fetch_eq_error (Nat.lt_succ_of_le hx)
  rw [decodeTree, walkTree_leaf hj hl hc]
  simp [treeLeaf, hf]

end

/-- Settles O46: the walk follows the path to the leaf, and its symbol is emitted. -/
theorem unpacktFollowsThePath : Obligations.UnpacktFollowsThePath := by
  intro c s w j hs hne hw hp hj hl hc hi
  have hu : unitOf (.unpackt c) s = emitDecoded s (.ok (nodeSym (s.node j), w.length)) :=
    congrArg (emitDecoded s) (decodeTree_leaf hp hw hne hj hl hc hi)
  exact ⟨exec_decoded hs hu (hi.add_length_lt hne), exec_decoded_overflow hs hu⟩

/-- Settles O47: at a leaf that is the root the walk ends by the one bit it reads. -/
theorem unpacktOnASingleLeaf : Obligations.UnpacktOnASingleLeaf := by
  intro c s hs hj hl hc
  have hu : s.InputIs s.inPtr.toNat [false] →
      unitOf (.unpackt c) s = emitDecoded s (.ok (nodeSym (s.node s.rootSnap.toNat), 1)) :=
    fun hi => congrArg (emitDecoded s) (decodeTree_root_leaf hj hl hc hi)
  refine ⟨fun hi => ?_, fun hi => exec_decoded_overflow hs (hu hi), fun hi => ?_, fun hx => ?_⟩
  · exact exec_decoded hs (hu hi) (hi.add_length_lt (List.cons_ne_nil _ _))
  · exact exec_unpackt_error hs c (decodeTree_root_leaf hj hl hc hi)
  · exact exec_unpackt_error hs c (decodeTree_root_leaf_exhausted hj hl hc hx)

/-! ### UNPACK over many symbols (R141, R145) -/

theorem symbolBits_cons (x : Byte) (xs : List Byte) : symbolBits (x :: xs) = bitsOf 8 x.toNat ++ symbolBits xs :=
  List.flatMap_cons

theorem KeepsTable.prefixFree {s t : State} (h : KeepsTable s t) (he : t.epoch = s.epoch) (hfree : s.PrefixFree) :
    t.PrefixFree := by
  simpa only [State.PrefixFree, h.len he, h.codeBits he] using hfree

/-- An UNPACK runs whose next units can decode the symbols: the table is prefix-free and has a code for each, the input
goes on with their codes, and OUT has room for a byte each. -/
structure State.ReadyToUnpack (s : State) (c : BitVec 27) (xs : List Byte) : Prop where
  busy : s.busy = true
  turns : s.turns = []
  lastCmd : s.lastCmd = encode (.unpack c)
  remain : xs.length ≤ s.remain.toNat
  prefixFree : s.PrefixFree
  present : ∀ x ∈ xs, s.len x.toNat ≠ 0#8
  input : s.InputIs s.inPtr.toNat (s.codesOf xs)
  room : s.Room (8 * xs.length)

/-- The next step decodes the first symbol and is ready to decode the others, by the same codes. -/
theorem State.ReadyToUnpack.step {s : State} {c : BitVec 27} {x : Byte} {xs : List Byte}
    (h : s.ReadyToUnpack c (x :: xs)) :
    ∃ t, step s = .next t ∧ UnitsDone s t (bitsOf 8 x.toNat) (s.codeBits x.toNat).length 1 ∧ t.ReadyToUnpack c xs ∧
      t.codesOf xs = s.codesOf xs := by
  have hrem : xs.length + 1 ≤ s.remain.toNat := h.remain
  have hinput := h.input
  rw [State.codesOf_cons] at hinput
  have hroom : s.Room ((bitsOf 8 x.toNat).length + 8 * xs.length) := by
    rw [length_bitsOf, Nat.add_comm]
    exact h.room
  have hs : s.AtUnit := ⟨h.busy, fun h0 => by rw [h0] at hrem; exact absurd hrem (Nat.not_succ_le_zero _)⟩
  have hlen := h.present x List.mem_cons_self
  have hfirst : s.Room (bitsOf 8 x.toNat).length := hroom.mono (Nat.le_add_right _ _)
  have hu : unitOf (.unpack c) s = emitDecoded s (.ok (x.toNat, (s.codeBits x.toNat).length)) := by
    rw [State.length_codeBits]
    exact congrArg (emitDecoded s) (decodeCT_of_prefixFree h.prefixFree x.isLt hlen hinput.left)
  obtain ⟨t, hexec, happ, hptr, hcom, hout, htab⟩ :=
    exec_decoded hs hu (hinput.left.add_length_lt (State.codeBits_ne_nil hlen)) (by rwa [length_bitsOf] at hfirst)
  have hdone : UnitsDone s t (bitsOf 8 x.toNat) (s.codeBits x.toNat).length 1 := .one hs hfirst happ hcom hptr
  have hcodes := htab.codesOf hout.epoch xs
  refine ⟨t, (step_eq_exec_of_lastCmd h.busy h.turns h.lastCmd rfl).trans hexec, hdone, ?_, hcodes⟩
  exact
    { busy := hdone.busy.trans h.busy
      turns := hout.turns.trans h.turns
      lastCmd := hout.lastCmd.trans h.lastCmd
      remain := by rw [hdone.remain]; omega
      prefixFree := htab.prefixFree hout.epoch h.prefixFree
      present := fun y hy => by rw [htab.len hout.epoch]; exact h.present y (List.mem_cons_of_mem x hy)
      input := by rw [hcodes, hptr]; exact hinput.right.congr hout.inBuf hout.epoch hout.inLimit
      room := happ.room hroom }

/-- By induction on the symbols: one step decodes each. -/
theorem State.ReadyToUnpack.run {s : State} {c : BitVec 27} {xs : List Byte} (h : s.ReadyToUnpack c xs) :
    ∃ t, Host.Core.run core xs.length s = .next t ∧ UnitsDone s t (symbolBits xs) (s.codesOf xs).length xs.length := by
  induction xs generalizing s with
  | nil => exact ⟨s, rfl, .none s⟩
  | cons x xs ih =>
    obtain ⟨t, hstep, hfirst, hready, hcodes⟩ := h.step
    obtain ⟨u, hrun, hrest⟩ := ih hready
    refine ⟨u, (core_run_succ hstep xs.length).trans hrun, ?_⟩
    rw [hcodes] at hrest
    rw [State.codesOf_cons, symbolBits_cons, List.length_append, List.length_cons, Nat.add_comm xs.length]
    exact hfirst.trans hrest

/-- Settles O53: each step decodes the next symbol by its code alone, so the bits after the codes are never read. -/
theorem unpackInvertsPackingAndIsPaddingSafe : Obligations.UnpackInvertsPackingAndIsPaddingSafe := by
  intro c s xs hb hturns hcmd hrem hfree hpresent hinput hroom
  have hready : s.ReadyToUnpack c xs := ⟨hb, hturns, hcmd, hrem, hfree, hpresent, hinput, hroom⟩
  obtain ⟨t, hrun, hdone⟩ := hready.run
  exact ⟨t, hrun, hdone.busy.trans hb, hdone.stream, hdone.inPtr, hdone.symCount, hdone.remain⟩

/-! ### The walk of a held tree (R142, R146) -/

/-- The child of a node that a bit leads to: 0 to the left, 1 to the right (R43). -/
def CodeTree.child (b : Bool) (l r : CodeTree) : CodeTree := if b then r else l

theorem CodeTree.mem_paths_node {b : Bool} {l r : CodeTree} {x : Byte × Bits} (h : x ∈ (CodeTree.child b l r).paths) :
    (x.1, b :: x.2) ∈ (CodeTree.node l r).paths := by
  cases b with
  | false => exact List.mem_append_left _ (List.mem_map_of_mem h)
  | true => exact List.mem_append_right _ (List.mem_map_of_mem h)

theorem CodeTree.exists_path (T : CodeTree) : ∃ x, x ∈ T.paths := by
  induction T with
  | leaf sym => exact ⟨_, List.mem_singleton_self _⟩
  | node l r ihl _ =>
    obtain ⟨x, hx⟩ := ihl
    exact ⟨_, CodeTree.mem_paths_node (b := false) hx⟩

/-- The input bits from `p` on lead from node `i`, which holds the tree, to the leaf `x` of it. -/
structure State.ReachesLeaf (s : State) (i p : Nat) (T : CodeTree) (x : Byte × Bits) : Prop where
  mem : x ∈ T.paths
  input : s.InputIs p x.2
  leaf : ∃ j, s.Path i x.2 j ∧ s.HoldsTree j (.leaf x.1)

/-- The input from `p` on is `w` to its end, and leads from node `i`, which holds the tree, to an internal node. -/
structure State.RunsOut (s : State) (i p : Nat) (T : CodeTree) (w : Bits) : Prop where
  input : s.InputIs p w
  limit : 8 * s.effLimit < p + w.length + 1
  internal : ∃ j l r, s.Path i w j ∧ s.HoldsTree j (.node l r)
  inside : ∃ x ∈ T.paths, w <+: x.2 ∧ w.length < x.2.length

section
variable {s : State} {i p : Nat} {l r : CodeTree} (hT : s.HoldsTree i (.node l r))
include hT

/-- A bit leads from a node to a child that holds the child of its tree. -/
theorem State.HoldsTree.child (b : Bool) :
    s.HoldsTree (if b then nodeRight (s.node i) else nodeLeft (s.node i)) (.child b l r) := by
  obtain ⟨-, -, -, hl, hr⟩ := hT
  cases b with
  | false => exact hl
  | true => exact hr

theorem State.HoldsTree.path_down {b : Bool} {w : Bits} {j : Nat}
    (h : s.Path (if b then nodeRight (s.node i) else nodeLeft (s.node i)) w j) : s.Path i (b :: w) j := by
  obtain ⟨hi, hl, hc, -, -⟩ := hT
  exact .down i b w j hi hl hc h

theorem State.ReachesLeaf.down {b : Bool} {x : Byte × Bits} (hb : s.InputIs p [b])
    (h : s.ReachesLeaf (if b then nodeRight (s.node i) else nodeLeft (s.node i)) (p + 1) (.child b l r) x) :
    s.ReachesLeaf i p (.node l r) (x.1, b :: x.2) where
  mem := CodeTree.mem_paths_node h.mem
  input := hb.append h.input
  leaf := by
    obtain ⟨j, hp, hj⟩ := h.leaf
    exact ⟨j, hT.path_down hp, hj⟩

theorem State.RunsOut.down {b : Bool} {w : Bits} (hb : s.InputIs p [b])
    (h : s.RunsOut (if b then nodeRight (s.node i) else nodeLeft (s.node i)) (p + 1) (.child b l r) w) :
    s.RunsOut i p (.node l r) (b :: w) where
  input := hb.append h.input
  limit := by
    have hlimit := h.limit
    rw [List.length_cons]
    omega
  internal := by
    obtain ⟨j, l', r', hp, hj⟩ := h.internal
    exact ⟨j, l', r', hT.path_down hp, hj⟩
  inside := by
    obtain ⟨x, hx, hw, hlt⟩ := h.inside
    exact ⟨_, CodeTree.mem_paths_node hx, List.cons_prefix_cons.2 ⟨rfl, hw⟩, Nat.succ_lt_succ hlt⟩

theorem State.HoldsTree.runsOut_here (hx : 8 * s.effLimit ≤ p) : s.RunsOut i p (.node l r) [] where
  input := s.inputIs_nil p
  limit := Nat.lt_succ_of_le hx
  internal := ⟨i, l, r, .here i, hT⟩
  inside := by
    obtain ⟨x, hx⟩ := (CodeTree.child false l r).exists_path
    exact ⟨_, CodeTree.mem_paths_node hx, List.nil_prefix, Nat.succ_pos _⟩

end

/-- In a held tree the input leads to a leaf or runs out above one: no walk of it meets a bad node (R142, R146). -/
theorem State.HoldsTree.walk {s : State} {i : Nat} {T : CodeTree} (hT : s.HoldsTree i T) (p : Nat) :
    (∃ x, s.ReachesLeaf i p T x) ∨ ∃ w, s.RunsOut i p T w := by
  induction T generalizing i p with
  | leaf sym => exact .inl ⟨(sym, []), List.mem_singleton_self _, s.inputIs_nil p, i, .here i, hT⟩
  | node l r ihl ihr =>
    rcases Nat.lt_or_ge p (8 * s.effLimit) with hb | hx
    · have hbit : s.InputIs p [s.inBit p] := State.inputIs_singleton hb
      have hchild := hT.child (s.inBit p)
      have ih : ∀ b j, s.HoldsTree j (.child b l r) →
          (∃ x, s.ReachesLeaf j (p + 1) (.child b l r) x) ∨ ∃ w, s.RunsOut j (p + 1) (.child b l r) w := by
        intro b j hj
        cases b with
        | false => exact ihl hj (p + 1)
        | true => exact ihr hj (p + 1)
      rcases ih _ _ hchild with ⟨x, hleaf⟩ | ⟨w, hout⟩
      · exact .inl ⟨_, hleaf.down hT hbit⟩
      · exact .inr ⟨_, hout.down hT hbit⟩
    · exact .inr ⟨[], hT.runsOut_here hx⟩

/-! ### The two decoders agree (R146) -/

theorem State.TableIs.congr {s t : State} {T : CodeTree} (h : s.TableIs T) (hk : KeepsTable s t)
    (he : t.epoch = s.epoch) : t.TableIs T where
  codeBits x hx := (hk.codeBits he _).trans (h.codeBits x hx)
  absent a ha := (hk.len he _).trans (h.absent a ha)

section
variable {s : State} {p : Nat} {T : CodeTree} (htab : s.TableIs T)
include htab

/-- The scan finds the leaf whose code the input begins with. -/
theorem State.TableIs.decodeCT_code {x : Byte × Bits} (hx : x ∈ T.codes) (hi : s.InputIs p x.2) :
    decodeCT s p = .ok (x.1.toNat, x.2.length) := by
  have hsym : x.1 ∈ T.symbols := by
    rw [← CodeTree.codes_fst]
    exact List.mem_map_of_mem hx
  rw [← htab.len hx]
  refine decodeCT_of_prefixFree htab.prefixFree x.1.isLt ((htab.len_ne_zero_iff _).2 hsym) ?_
  rwa [htab.codeBits x hx]

/-- The scan runs out of bits inside a leaf's code. -/
theorem State.TableIs.decodeCT_inside {x : Byte × Bits} {w : Bits} (hx : x ∈ T.codes) (hw : w <+: x.2)
    (hlt : w.length < x.2.length) (hi : s.InputIs p w) (hlimit : 8 * s.effLimit < p + w.length + 1) :
    decodeCT s p = .error ⟨.inExhausted, BitVec.ofNat 32 (w.length + 1)⟩ := by
  rw [← htab.codeBits x hx] at hw hlt
  exact decodeCT_inside_code htab.prefixFree x.1.isLt hw hlt hi hlimit

end

section
variable {s : State} {sym : Byte} (htab : s.TableIs (.leaf sym))
include htab

/-- The table of a single leaf has the one code "0" (R102). -/
theorem State.TableIs.codeBits_leaf {a : Nat} (ha : a < 256) (hlen : s.len a ≠ 0#8) : s.codeBits a = [false] := by
  obtain ⟨a, rfl⟩ : ∃ x : Byte, x.toNat = a := ⟨BitVec.ofNat 8 a, Nat.mod_eq_of_lt ha⟩
  have hmem : a ∈ [sym] := (htab.len_ne_zero_iff a).1 hlen
  rw [List.mem_singleton.1 hmem]
  exact htab.codeBits (sym, [false]) (List.mem_singleton_self _)

/-- On a single leaf's table a 1 bit is malformed (R102, R140). -/
theorem State.TableIs.decodeCT_leaf_one {p : Nat} (hi : s.InputIs p [true]) :
    decodeCT s p = .error ⟨.malformed, 1#32⟩ := by
  refine decodeCT_off_codes (w := []) hi (fun a ha hlen => ?_) (fun h => absurd rfl h) (fun a ha => ?_)
  · rw [htab.codeBits_leaf ha hlen]
    decide
  · by_cases hlen : s.len a = 0#8
    · rw [State.codeBits_eq_nil hlen]
      decide
    · rw [htab.codeBits_leaf ha hlen]
      decide

end

section
variable {s : State} {p : Nat} {T : CodeTree} (hd : T.depth ≤ 255)
include hd

/-- The walk ends at the leaf the input leads to, if it is below the root. -/
theorem State.ReachesLeaf.decodeTree_eq {x : Byte × Bits} (h : s.ReachesLeaf s.rootSnap.toNat p T x)
    (hne : x.2 ≠ []) : decodeTree s p = .ok (x.1.toNat, x.2.length) := by
  obtain ⟨j, hp, hj, hl, hc, hsym⟩ := h.leaf
  rw [decodeTree_leaf hp ((CodeTree.length_le_depth h.mem).trans hd) hne hj hl hc h.input, hsym]

/-- The walk ends where the input runs out. -/
theorem State.RunsOut.decodeTree_eq {w : Bits} (h : s.RunsOut s.rootSnap.toNat p T w) :
    decodeTree s p = .error ⟨.inExhausted, BitVec.ofNat 32 (w.length + 1)⟩ := by
  obtain ⟨j, l, r, hp, hj, hl, hc, -, -⟩ := h.internal
  obtain ⟨x, hx, -, hlt⟩ := h.inside
  have hlen : w.length < 255 := hlt.trans_le ((CodeTree.length_le_depth hx).trans hd)
  rw [decodeTree_path hp hlen.le h.input, show 255 - w.length = 254 - w.length + 1 by omega]
  exact walkTree_exhausted hj hl hc (Nat.le_of_lt_succ h.limit)

end

/-- On a single leaf both decoders read one bit: 0 is the symbol and 1 is malformed (R146). -/
theorem decoders_agree_leaf {s : State} {sym : Byte} (hT : s.HoldsTree s.rootSnap.toNat (.leaf sym))
    (htab : s.TableIs (.leaf sym)) (p : Nat) : decodeCT s p = decodeTree s p := by
  obtain ⟨hj, hl, hc, hsym⟩ := hT
  have hcode : (sym, [false]) ∈ (CodeTree.leaf sym).codes := List.mem_singleton_self _
  rcases Nat.lt_or_ge p (8 * s.effLimit) with hb | hx
  · have hbit : s.InputIs p [s.inBit p] := State.inputIs_singleton hb
    rw [decodeTree_root_leaf hj hl hc hbit, hsym]
    cases h : s.inBit p with
    | false => exact htab.decodeCT_code hcode (h ▸ hbit)
    | true => exact htab.decodeCT_leaf_one (h ▸ hbit)
  · rw [decodeTree_root_leaf_exhausted hj hl hc hx]
    exact htab.decodeCT_inside hcode List.nil_prefix Nat.one_pos (s.inputIs_nil p) (Nat.lt_succ_of_le hx)

/-- On a tree with more than a leaf both decoders follow the same bits to the leaf, or to their end (R146). -/
theorem decoders_agree_node {s : State} {l r : CodeTree} (hT : s.HoldsTree s.rootSnap.toNat (.node l r))
    (hd : (CodeTree.node l r).depth ≤ 255) (htab : s.TableIs (.node l r)) (p : Nat) :
    decodeCT s p = decodeTree s p := by
  rcases hT.walk p with ⟨x, hleaf⟩ | ⟨w, hout⟩
  · have hcode : x ∈ (CodeTree.node l r).codes := hleaf.mem
    rw [hleaf.decodeTree_eq hd (CodeTree.code_ne_nil hcode), htab.decodeCT_code hcode hleaf.input]
  · obtain ⟨x, hx, hw, hlt⟩ := hout.inside
    rw [hout.decodeTree_eq hd, htab.decodeCT_inside hx hw hlt hout.input hout.limit]

theorem decoders_agree {s : State} {T : CodeTree} (hT : s.HoldsTree s.rootSnap.toNat T) (hd : T.depth ≤ 255)
    (htab : s.TableIs T) (p : Nat) : decodeCT s p = decodeTree s p := by
  cases T with
  | leaf sym => exact decoders_agree_leaf hT htab p
  | node l r => exact decoders_agree_node hT hd htab p

/-- A node word depends on the arena and the epoch only. -/
theorem State.node_congr {s t : State} (h : t.arena = s.arena) (he : t.epoch = s.epoch) (i : Nat) :
    t.node i = s.node i := by
  simp only [State.node, State.word]
  rw [State.bytes_congr (t := t) (s := s) fun j _ => State.byte_congr (sp := .arena) h he _]

/-- While BUSY = 1 two commands whose units do the same step alike (R66). -/
theorem exec_eq_exec {i j : Instr} {s : State} (hb : s.busy = true) (hu : unitOf i s = unitOf j s) :
    exec i s = exec j s := by
  simp only [exec_eq, runCommand_eq, if_pos hb, State.engineStep, hu]

/-- Settles O54: an ASSIGN that commits leaves the table of the tree the arena holds, and on it the decoders agree. -/
theorem treeAndTableDecodersAgree : Obligations.TreeAndTableDecodersAgree := by
  intro s t hs hassign hb u c hsame hbusy
  obtain ⟨T, hT, hd, -, htab⟩ := exec_assign_committed hs hassign hb
  obtain ⟨hkeep, -⟩ := commandsChangeOnlyWhatTheirRulesName .assign s t hs.1 hassign
  obtain ⟨hlen, hcode, harena, hepoch, hroot⟩ := hsame
  have hheld : u.HoldsTree u.rootSnap.toNat T := by
    rw [hroot, hkeep.rootSnap]
    exact hT.congr (State.node_congr (harena.trans hkeep.arena) (hepoch.trans hkeep.epoch))
  have hagree := decoders_agree hheld hd (htab.congr ⟨hlen, hcode⟩ hepoch) u.inPtr.toNat
  exact exec_eq_exec hbusy (congrArg (emitDecoded u) hagree)

end Sys2Proof.Machine

/-!
Recovery from an error by the host (spec 60_exceptions.md R171, 10_state.md R28): commands dropped, the error cleared,
the next command accepted.
-/

namespace Sys2Proof.Machine

/-- While ERR = 1 an instruction at BUSY = 0 is a write of CMD that is dropped (R26, R171). -/
theorem exec_dropped {i : Instr} {s : State} (hr : s.inReset = false) (hb : s.busy = false) (he : s.err = true) :
    exec i s = .next { s with drop := true } := by
  rw [exec_idle hb, State.writeCmd_dropped hr (.inr he)]

/-- A legal instruction that is accepted runs, with its word in LASTCMD (R26). -/
theorem exec_starts {i : Instr} {s : State} (hs : s.Accepting) (hl : i.isLegal s.hasTree = true) :
    ∃ t, exec i s = .next t ∧ t.busy = true ∧ t.lastCmd = encode i :=
  ⟨_, (acceptStartsEveryLegalInstruction i s hs).1 hl, rfl, rfl⟩

/-- A write of STATUS with bit 2 set is the return from the error, with DONE and DROP cleared by their own bits
(R28, R171). -/
theorem State.hostWrite_status_clearError {s : State} {d : Word} (hr : s.inReset = false) (h : d.getLsbD 2 = true) :
    s.hostWrite statusAddr d =
      { s.clearError with
        done := if d.getLsbD 1 then false else s.done
        drop := if d.getLsbD 3 then false else s.drop } := by
  rw [statusWritesClearTheirBits s statusAddr d hr target_statusAddr, if_pos h, if_pos h]
  rfl

/-- With the error cleared the idle machine accepts commands again (R171). -/
theorem State.accepting_hostWrite_status {s : State} {d : Word} (hr : s.inReset = false) (hb : s.busy = false)
    (h : d.getLsbD 2 = true) : (s.hostWrite statusAddr d).Accepting := by
  rw [State.hostWrite_status_clearError hr h]
  exact ⟨hb, rfl, hr⟩

/-- Settles O59: a set ERR drops the CMD write, and the state the clear leaves accepts the next command. -/
theorem errorsAreRecoveredByTheHost : Obligations.ErrorsAreRecoveredByTheHost := by
  intro s i d hr hb he
  refine ⟨exec_dropped hr hb he, fun hd => ?_⟩
  have hacc := State.accepting_hostWrite_status hr hb hd
  rw [State.hostWrite_status_clearError hr hd] at hacc ⊢
  exact ⟨rfl, rfl, rfl, fun hl => exec_starts hacc hl⟩

end Sys2Proof.Machine

/-!
The resets (spec 70_reset_and_hazards.md R190 to R192): what the hardware reset input and SRST leave, and the
invariant of the machine in the state after reset.
-/

namespace Sys2Proof.Machine

/-! ### The reset state (R192) -/

/-- A hardware reset, asserted and released, leaves the reset state at the machine's own `HAS_TREE`, with the model's
own fields as it has them (R190; assumptions 2, 5, 18). -/
theorem State.releaseReset_assertReset (s : State) :
    s.assertReset.releaseReset =
      { State.reset with
        hasTree := s.hasTree
        epoch := s.epoch + 1
        inputs := s.inputs
        turns := s.turns
        replies := s.replies
        idleSeen := s.idleSeen } := rfl

/-- Settles O1: the reset action sets every field but `HAS_TREE` and the model's own. -/
theorem resetStateIsTheHardwareResetState : Obligations.ResetStateIsTheHardwareResetState := by
  intro s htree
  simp only [State.perform, State.releaseReset_assertReset, htree]
  rfl

/-- The reset state meets the invariant at either value of `HAS_TREE`: nothing runs, no flag is set, and every memory
is empty (R12, R192). -/
theorem State.inv_reset (b : Bool) : ({ State.reset with hasTree := b } : State).Inv where
  busyClean := nofun
  notDoneAndErr := nofun
  codeClear := fun _ => rfl
  codeRange := nofun
  accLow := BitVec.zero_and
  runsLegal := nofun
  progress := nofun
  noTree := fun _ => ⟨rfl, rfl, rfl⟩
  memories := State.MemOk.congr State.memOk_reset fun sp => by cases sp <;> rfl
  quietInReset := nofun
  seenIdle := nofun

/-- Settles O56: the two values of `HAS_TREE` are the two cases of one lemma. -/
theorem invariantHoldsAtReset : Obligations.InvariantHoldsAtReset := ⟨State.inv_reset true, State.inv_reset false⟩

/-! ### The hardware reset input (R190) -/

/-- Releasing the reset input touches no register (R190). -/
theorem State.RegistersReset.releaseReset {s : State} (h : s.RegistersReset) : s.releaseReset.RegistersReset :=
  { h with }

/-- While the reset input is asserted every read returns 0 (R190, assumption 17). -/
theorem State.hostRead_inReset {s : State} (hr : s.inReset = true) (a : Addr) : s.hostRead a = 0#32 := if_pos hr

/-- While the reset input is asserted no write has an effect (R190). -/
theorem State.hostWrite_inReset {s : State} (hr : s.inReset = true) (a : Addr) (d : Word) : s.hostWrite a d = s :=
  if_pos hr

/-- Settles O2: the assertion resets the registers and silences the port, and the release changes nothing but the
level of the input. -/
theorem hardwareResetActsAtOnce : Obligations.HardwareResetActsAtOnce := by
  intro s
  exact ⟨s.registersReset_assertReset, fun sp a hsp => s.byte_assertReset hsp a, State.hostRead_inReset rfl,
    State.hostWrite_inReset rfl, s.registersReset_assertReset.releaseReset, rfl⟩

/-! ### The soft reset (R191) -/

/-- The register part of a reset keeps CODE, ARENA, IN and OUT (R191). -/
theorem State.byte_resetRegisters (s : State) {sp : Space} (h : sp ≠ .ctLen) (b : Nat) :
    s.resetRegisters.byte sp b = s.byte sp b := by
  have hspace : s.resetRegisters.space sp = s.space sp := by
    cases sp
    case ctLen => exact absurd rfl h
    all_goals rfl
  exact State.byte_congr hspace rfl b

/-- With every register reset, CTRL and STATUS read 0 (R192). -/
theorem State.RegistersReset.hostRead_eq_zero {s : State} (h : s.RegistersReset) (hr : s.inReset = false) {a : Addr}
    (ha : target a = .ctrl ∨ target a = .status) : s.hostRead a = 0#32 := by
  rcases ha with ha | ha
  · rw [State.hostRead_register hr ha rfl, State.readTarget, State.ctrlWord, h.ctrl]
    rfl
  · obtain ⟨hbusy, hdone, herr, hdrop, hcode⟩ := h.status
    rw [State.hostRead_register hr ha rfl, State.readTarget, State.statusWord, hbusy, hdone, herr, hdrop, hcode]
    rfl

/-- Settles O3: CTRL is not engine-owned, so the write is the register part of the reset action at any time. -/
theorem softResetKeepsTheMemories : Obligations.SoftResetKeepsTheMemories := by
  intro s a d hr ha hsrst
  have hwrite : s.hostWrite a d = s.resetRegisters :=
    (State.hostWrite_free hr ha rfl d).trans (State.writeCtrl_reset hsrst)
  have hregs : s.resetRegisters.RegistersReset := s.registersReset_resetRegisters
  rw [hwrite]
  exact ⟨hregs, fun sp b hsp => s.byte_resetRegisters hsp b, fun b hb => hregs.hostRead_eq_zero hr hb⟩

end Sys2Proof.Machine
